-- ==== Sys2Proof/Word.lean ====
section
/-! DEFINITION. The word types of the block: a byte, a 32-bit window word and a 64-bit Keccak lane
(spec/00_scope.md R4, R6). Everything computed from them stands in `Sys2Proof/Machine/Bits.lean`. -/

namespace Sys2Proof

/-- A byte (R6: "A byte is 8 bits"). -/
abbrev Byte := BitVec 8

/-- One host access: `WORD_BITS` = 32 (R4). -/
abbrev Word := BitVec 32

/-- A lane of the Keccak state: `LANE_BITS` = 64 (R4). -/
abbrev Lane := BitVec 64

end Sys2Proof
end

