-- ==== Sys2Proof/Config.lean ====
section
/-! DEFINITION. What is fixed for the block (spec/00_scope.md R4), the two named parameters with an
alternative value (R8, R77), and what the spec leaves open: the window's base address, the value of a
read that is a draw, and how many host steps pass before the engine's step. -/

namespace Sys2Proof.Config

/-- `Q`, the prime modulus (R4). -/
abbrev Q : Int := 3329

/-- `N`, the number of coefficients of a polynomial (R4). -/
abbrev N : Nat := 256

/-- `LANES` (R4). -/
abbrev LANES : Nat := 25

/-- `ROUNDS` (R4). -/
abbrev ROUNDS : Nat := 24

/-- `MSG_CAP`, the bytes of the message buffer (R4). -/
abbrev MSG_CAP : Nat := 1024

/-- `OUT_CAP`, the bytes of the output buffer (R4). -/
abbrev OUT_CAP : Nat := 1024

/-- `NBANKS` (R4). -/
abbrev NBANKS : Nat := 8

/-- `WINDOW_BYTES` (R4). -/
abbrev WINDOW_BYTES : Nat := 8192

/-- `QINV`, with `QINV · Q ≡ 1 mod 2^16` (R79). -/
abbrev QINV : Int := 62209

/-- The rounding of the Barrett quotient (R77). -/
inductive BarrettVariant where
  | floor
  | round
deriving DecidableEq, Repr

/-- The meaning of `mod Q` on a negative operand (R8). -/
inductive NegMod where
  | floor
  | trunc
deriving DecidableEq, Repr

/-- "This hardware takes `BARRETT_VARIANT = floor`" (R77, R4). -/
abbrev barrettVariant : BarrettVariant := .floor

/-- `NEG_MOD = floor`, "the value this hardware takes" (R8, R4). -/
abbrev negMod : NegMod := .floor

/-- `BASE` is OPEN (R4, decision D5: "required to be a multiple of 4"): the number of words below the
window is a constant with no value (notes/assumptions/4.md). -/
opaque baseWords : Nat

/-- `BASE`, the byte address of the window in the host's address space: any multiple of 4 (R4, R31). -/
def base : Nat := 4 * baseWords

/-- `draw32`: the value of the `n`-th draw, unconstrained (R12, R37, R115; notes/assumptions/5.md). -/
opaque freeWord : Nat → Word

/-- How many host steps come between the accepting CMD write and the engine's step: unconstrained but
finite (R118, "weak fairness"; notes/assumptions/6.md). -/
opaque engineDelay : Nat → Nat

/-- The value of host variable `t` before the program sets it: R52 gives none (notes/assumptions/8.md). -/
opaque hostVariable : Nat → Word

end Sys2Proof.Config
end

