-- ==== Sys2Proof/Machine/Bits.lean ====
section
/-! DEFINITION. Widths, signs, byte order and residues: the notation of spec/00_scope.md R6 to R9 as
functions. Byte order is decided here once (`leBytes`, `leValue`). -/

namespace Sys2Proof.Machine

/-- `low_N(v) = v mod 2^N`, a value in [0, 2^N) (R7). -/
def low (n : Nat) (v : Int) : Int := v % 2 ^ n

/-- `sext_N(v)`: "the low N bits of `v` read as N-bit two's complement" (R7). -/
def sext (n : Nat) (v : Int) : Int :=
  if low n v < 2 ^ (n - 1) then low n v else low n v - 2 ^ n

/-- `s16(v) = sext_16(low_16(v))` (R7). -/
def s16 (v : Int) : Int := sext 16 (low 16 v)

/-- `a >> n` on a signed integer is `floor(a / 2^n)` (R7). -/
def asr (a : Int) (n : Nat) : Int := a / 2 ^ n

/-- `a mod Q` under either value of `NEG_MOD` (R8). -/
def modWith : Config.NegMod → Int → Int
  | .floor, a => a % Config.Q
  | .trunc, a => a.tmod Config.Q

/-- `a mod Q` as this hardware takes it (R8). -/
def modQ (a : Int) : Int := modWith Config.negMod a

/-- `rotl64` (R9). -/
def rotl64 (v : Lane) (n : Nat) : Lane :=
  if n = 0 then v else (v <<< n) ||| (v >>> (64 - n))

/-- A result register's word: the result sign-extended to 32 bits (R84 (a)). -/
def regOf (v : Int) : Word := BitVec.ofInt 32 v

/-- The `n` bytes of a value, byte 0 the least significant: byte `k` is `v[8k+7:8k]` (R6, R32). -/
def leBytes : Nat → Nat → List Byte
  | 0, _ => []
  | n + 1, v => BitVec.ofNat 8 v :: leBytes n (v / 256)

/-- The value of bytes, byte 0 the least significant (R6, R32). -/
def leValue : List Byte → Nat
  | [] => 0
  | b :: bs => b.toNat + 256 * leValue bs

/-- The 25 lanes of the Keccak state (R17). -/
abbrev KState := Vector Lane 25

/-- The 256 coefficients of a polynomial, exact integers (R7, R19). -/
abbrev Poly := Vector Int 256

/-- All `n` elements that `f` gives, if it gives every one of them. -/
def gather {α : Type} (n : Nat) (f : Nat → Option α) (d : α) : Option (Vector α n) :=
  if (List.range n).all (fun i => (f i).isSome) then
    some (Vector.ofFn fun i => (f i.val).getD d)
  else none

end Sys2Proof.Machine
end

