-- ==== Sys2Proof/Syntax.lean ====
section
/-! DEFINITION. The commands of the block, one constructor per row of spec/opcode_table.json
(spec/30_encoding.md R46). A bank operand is one of the 8 banks `P[0]`..`P[7]` (R45), so a bank number
that does not exist cannot be written down. -/

namespace Sys2Proof

/-- A command. `rd` is the destination bank, `ra` and `rb` the source banks (R44, R51). -/
inductive Instr where
  | keccakF
  | stateClear
  | sha3_256
  | sha3_512
  | shake128
  | shake256
  | barrett
  | montgomery
  | csubq
  | butterfly
  | ntt (rd : Fin 8)
  | basemul (rd ra rb : Fin 8)
  | padd (rd ra rb : Fin 8)
  | psub (rd ra rb : Fin 8)
  | preduce (rd ra : Fin 8)
deriving DecidableEq, Repr

end Sys2Proof
end

