-- ==== Sys2Proof/WellFormed.lean ====
section
/-! DEFINITION. Well-formedness of a command word's fields (spec/30_encoding.md R44, R46 to R48) and of
a command. The host program's own checks stand in `Sys2Proof/Machine/HostProgram.lean`. -/

namespace Sys2Proof

/-- The fields of a command word (R44), the reserved bits among them. -/
structure CommandFields where
  op : BitVec 8
  fn : BitVec 4
  rd : BitVec 3
  ra : BitVec 3
  rb : BitVec 3
  rsv15 : BitVec 1
  rsv19 : BitVec 1
  rsvHigh : BitVec 9
deriving DecidableEq, Repr

/-- "the reserved bits 15, 19 and 31:23 must be 0, in every command" (R47). -/
abbrev CommandFields.reservedZero (f : CommandFields) : Bool :=
  f.rsv15 == 0#1 && f.rsv19 == 0#1 && f.rsvHigh == 0#9

/-- The OP values that R46 assigns (R48 lists the others as illegal). -/
abbrev assignedOps : List (BitVec 8) :=
  [0x01#8, 0x02#8, 0x03#8, 0x10#8, 0x11#8, 0x12#8, 0x13#8, 0x20#8, 0x21#8, 0x22#8, 0x23#8, 0x24#8]

/-- The OP value is assigned (R48). -/
abbrev CommandFields.opAssigned (f : CommandFields) : Bool :=
  assignedOps.contains f.op

/-- FN selects a sponge function for OP 0x03 and must be 0 elsewhere (R44, R47, R48). -/
abbrev CommandFields.fnLegal (f : CommandFields) : Bool :=
  if f.op == 0x03#8 then f.fn.ult 4#4 else f.fn == 0#4

/-- The shape names RD: F1, F2, F3 (R44). -/
abbrev usesRd (op : BitVec 8) : Bool := op == 0x20#8 || op == 0x21#8 || op == 0x22#8 || op == 0x23#8 || op == 0x24#8

/-- The shape names RA: F2, F3 (R44). -/
abbrev usesRa (op : BitVec 8) : Bool := op == 0x21#8 || op == 0x22#8 || op == 0x23#8 || op == 0x24#8

/-- The shape names RB: F3 (R44). -/
abbrev usesRb (op : BitVec 8) : Bool := op == 0x21#8 || op == 0x22#8 || op == 0x23#8

/-- "A field a command does not use must be 0" (R47), for the bank fields. -/
abbrev CommandFields.banksLegal (f : CommandFields) : Bool :=
  (usesRd f.op || f.rd == 0#3) && (usesRa f.op || f.ra == 0#3) && (usesRb f.op || f.rb == 0#3)

/-- The fields are those of a command (R46, R47, R48). -/
abbrev CommandFields.wf (f : CommandFields) : Bool :=
  f.reservedZero && f.opAssigned && f.fnLegal && f.banksLegal

/-- The banks a command names (R45). -/
def Instr.banks : Instr → List Nat
  | .keccakF => []
  | .stateClear => []
  | .sha3_256 => []
  | .sha3_512 => []
  | .shake128 => []
  | .shake256 => []
  | .barrett => []
  | .montgomery => []
  | .csubq => []
  | .butterfly => []
  | .ntt rd => [rd]
  | .basemul rd ra rb => [rd, ra, rb]
  | .padd rd ra rb => [rd, ra, rb]
  | .psub rd ra rb => [rd, ra, rb]
  | .preduce rd ra => [rd, ra]

/-- Every bank a command names exists (R21: "bank numbers 0 to 7 name 8 distinct banks"). The type of
`Instr` already says so (`Sys2Proof.Laws.instr_wf`). -/
abbrev Instr.wf (i : Instr) : Bool := i.banks.all (fun b => decide (b < Config.NBANKS))

end Sys2Proof
end

