-- ==== Sys2Proof/Decode.lean ====
section
/-! DEFINITION. The decoder of spec/30_encoding.md R46 to R48, total on every 32-bit word and rejecting
by name, and after it the encoder of R44, R46 and R51. -/

namespace Sys2Proof

/-- Why a word is `Illegal` (R46 to R48). The block reports all of them alike, as ERR_ILLEGAL. -/
inductive Illegal where
  /-- bit 15, bit 19 or one of bits 31:23 is not 0 (R47) -/
  | reservedBits
  /-- a field the command does not use is not 0 (R47) -/
  | unusedField
  /-- OP 0x03 with FN 4 to 15 (R48) -/
  | unassignedFn
  /-- an OP value that R46 does not list (R48) -/
  | unassignedOp
deriving DecidableEq, Repr

/-- What `Decode(w)` returns: "a command or `Illegal`" (R46). -/
inductive Decoded where
  | command (i : Instr)
  | illegal (why : Illegal)
deriving DecidableEq, Repr

/-- The fields of a word, at the bit positions of R44. -/
def wordFields (w : Word) : CommandFields where
  op := w.extractLsb' 0 8
  fn := w.extractLsb' 8 4
  rd := w.extractLsb' 12 3
  rsv15 := w.extractLsb' 15 1
  ra := w.extractLsb' 16 3
  rsv19 := w.extractLsb' 19 1
  rb := w.extractLsb' 20 3
  rsvHigh := w.extractLsb' 23 9

/-- A 3-bit bank field as a bank number, zero-extended (R45 (a)). -/
def bankOf (b : BitVec 3) : Fin 8 := ⟨b.toNat, b.isLt⟩

/-- "need X = 0" of R46: the command if the fields it does not use are 0, else `Illegal` (R47). -/
def need (unusedZero : Bool) (i : Instr) : Decoded :=
  if unusedZero then .command i else .illegal .unusedField

/-- `Decode` on the fields, the reserved bits already checked (R46). -/
def decodeFields (f : CommandFields) : Decoded :=
  let noFn := f.fn == 0#4
  let noRd := f.rd == 0#3
  let noRa := f.ra == 0#3
  let noRb := f.rb == 0#3
  let noBanks := noRd && noRa && noRb
  if f.op = 0x01#8 then need (noFn && noBanks) .keccakF
  else if f.op = 0x02#8 then need (noFn && noBanks) .stateClear
  else if f.op = 0x03#8 then
    if f.fn = 0#4 then need noBanks .sha3_256
    else if f.fn = 1#4 then need noBanks .sha3_512
    else if f.fn = 2#4 then need noBanks .shake128
    else if f.fn = 3#4 then need noBanks .shake256
    else .illegal .unassignedFn
  else if f.op = 0x10#8 then need (noFn && noBanks) .barrett
  else if f.op = 0x11#8 then need (noFn && noBanks) .montgomery
  else if f.op = 0x12#8 then need (noFn && noBanks) .csubq
  else if f.op = 0x13#8 then need (noFn && noBanks) .butterfly
  else if f.op = 0x20#8 then need (noFn && noRa && noRb) (.ntt (bankOf f.rd))
  else if f.op = 0x21#8 then need noFn (.basemul (bankOf f.rd) (bankOf f.ra) (bankOf f.rb))
  else if f.op = 0x22#8 then need noFn (.padd (bankOf f.rd) (bankOf f.ra) (bankOf f.rb))
  else if f.op = 0x23#8 then need noFn (.psub (bankOf f.rd) (bankOf f.ra) (bankOf f.rb))
  else if f.op = 0x24#8 then need (noFn && noRb) (.preduce (bankOf f.rd) (bankOf f.ra))
  else .illegal .unassignedOp

/-- `Decode(w)` (R46). -/
def decode (w : Word) : Decoded :=
  if (wordFields w).reservedZero then decodeFields (wordFields w) else .illegal .reservedBits

/-- The fields of a command, from the table of R46: a field the command does not use is 0 (R47). -/
def instrFields (i : Instr) : CommandFields :=
  let mk (op : BitVec 8) (fn : BitVec 4) (rd ra rb : Fin 8) : CommandFields :=
    { op := op, fn := fn, rd := BitVec.ofNat 3 rd, ra := BitVec.ofNat 3 ra, rb := BitVec.ofNat 3 rb,
      rsv15 := 0#1, rsv19 := 0#1, rsvHigh := 0#9 }
  match i with
  | .keccakF => mk 0x01#8 0#4 0 0 0
  | .stateClear => mk 0x02#8 0#4 0 0 0
  | .sha3_256 => mk 0x03#8 0#4 0 0 0
  | .sha3_512 => mk 0x03#8 1#4 0 0 0
  | .shake128 => mk 0x03#8 2#4 0 0 0
  | .shake256 => mk 0x03#8 3#4 0 0 0
  | .barrett => mk 0x10#8 0#4 0 0 0
  | .montgomery => mk 0x11#8 0#4 0 0 0
  | .csubq => mk 0x12#8 0#4 0 0 0
  | .butterfly => mk 0x13#8 0#4 0 0 0
  | .ntt rd => mk 0x20#8 0#4 rd 0 0
  | .basemul rd ra rb => mk 0x21#8 0#4 rd ra rb
  | .padd rd ra rb => mk 0x22#8 0#4 rd ra rb
  | .psub rd ra rb => mk 0x23#8 0#4 rd ra rb
  | .preduce rd ra => mk 0x24#8 0#4 rd ra 0

/-- The word of some fields: `OP | FN << 8 | RD << 12 | RA << 16 | RB << 20` (R44), with the reserved
bits in their places. -/
def fieldsWord (f : CommandFields) : Word :=
  f.op.setWidth 32 ||| (f.fn.setWidth 32 <<< 8) ||| (f.rd.setWidth 32 <<< 12) ||| (f.rsv15.setWidth 32 <<< 15)
    ||| (f.ra.setWidth 32 <<< 16) ||| (f.rsv19.setWidth 32 <<< 19) ||| (f.rb.setWidth 32 <<< 20)
    ||| (f.rsvHigh.setWidth 32 <<< 23)

/-- The one word of a command (R44, R51). -/
def encode (i : Instr) : Word := fieldsWord (instrFields i)

/-- The mnemonic of a command, as the table of R46 has it. -/
def mnemonic : Instr → String
  | .keccakF => "KECCAK_F"
  | .stateClear => "STATE_CLEAR"
  | .sha3_256 => "SHA3_256"
  | .sha3_512 => "SHA3_512"
  | .shake128 => "SHAKE128"
  | .shake256 => "SHAKE256"
  | .barrett => "BARRETT"
  | .montgomery => "MONTGOMERY"
  | .csubq => "CSUBQ"
  | .butterfly => "BUTTERFLY"
  | .ntt _ => "NTT"
  | .basemul _ _ _ => "BASEMUL"
  | .padd _ _ _ => "PADD"
  | .psub _ _ _ => "PSUB"
  | .preduce _ _ => "PREDUCE"

/-- The mask of a command's row in the table of R46. -/
def tableMask : Instr → Word
  | .keccakF => 0xFFFFFFFF#32
  | .stateClear => 0xFFFFFFFF#32
  | .sha3_256 => 0xFFFFFFFF#32
  | .sha3_512 => 0xFFFFFFFF#32
  | .shake128 => 0xFFFFFFFF#32
  | .shake256 => 0xFFFFFFFF#32
  | .barrett => 0xFFFFFFFF#32
  | .montgomery => 0xFFFFFFFF#32
  | .csubq => 0xFFFFFFFF#32
  | .butterfly => 0xFFFFFFFF#32
  | .ntt _ => 0xFFFF8FFF#32
  | .basemul _ _ _ => 0xFF888FFF#32
  | .padd _ _ _ => 0xFF888FFF#32
  | .psub _ _ _ => 0xFF888FFF#32
  | .preduce _ _ => 0xFFF88FFF#32

/-- The match value of a command's row in the table of R46. -/
def tableMatch : Instr → Word
  | .keccakF => 0x00000001#32
  | .stateClear => 0x00000002#32
  | .sha3_256 => 0x00000003#32
  | .sha3_512 => 0x00000103#32
  | .shake128 => 0x00000203#32
  | .shake256 => 0x00000303#32
  | .barrett => 0x00000010#32
  | .montgomery => 0x00000011#32
  | .csubq => 0x00000012#32
  | .butterfly => 0x00000013#32
  | .ntt _ => 0x00000020#32
  | .basemul _ _ _ => 0x00000021#32
  | .padd _ _ _ => 0x00000022#32
  | .psub _ _ _ => 0x00000023#32
  | .preduce _ _ => 0x00000024#32

/-- `decode` as the opcode table numbers a word's bits: a command is one 32-bit word (R50), so a value
that does not fit 32 bits is no command. -/
def decodeTableWord (nbits w : Nat) : Option Instr :=
  if w % 2 ^ nbits < 2 ^ 32 then
    match decode (BitVec.ofNat 32 (w % 2 ^ nbits)) with
    | .command i => some i
    | .illegal _ => none
  else none

end Sys2Proof
end

