-- ==== Sys2Proof/Machine/State.lean ====
section
/-! DEFINITION. The state of the block (spec/10_state.md, spec/70_reset_and_hazards.md R109), of the
host agent that drives it (spec/30_encoding.md R52) and of the model's schedule, the ways a step can
stop, and the state after reset. Plain data throughout. -/

namespace Sys2Proof.Machine

/-- The model's faults, "with these reasons and nowhere else" (R105). -/
inductive Fault where
  /-- Raised by a host read of `S`, `MSG`, `OUT` or `P`, and by KECCAK_F, the sponge commands, NTT,
  BASEMUL, PADD, PSUB and PREDUCE, when an element read was never written since reset (R24, R105). Safe:
  the spec gives no value, and the run stops. -/
  | unwrittenRead
  /-- Raised by a host write of `S`, `MSG` or `P` while BUSY = 1 (R105, R114). Safe: the run stops. -/
  | writeWhileBusy
deriving DecidableEq, Repr

/-- Accesses that have no step (R12, R106), and instructions without a meaning. -/
inductive Refusal where
  /-- Raised by the arm of a command that has no meaning yet; no arm of this model is one. Safe. -/
  | notModelled (mnemonic : String)
  /-- Raised by a host access of another width than 4 bytes (R30, R106). Safe: the spec gives it no step. -/
  | accessWidth
  /-- Raised by a host access whose address is not a multiple of 4 (R31, R106). Safe: no step. -/
  | misaligned
  /-- Raised by a host access outside the window, which "is not an access to the block" (R28). Safe: no step. -/
  | outsideWindow
  /-- Raised by a host branch to a label its program does not define: not a program of R52. Safe: no step. -/
  | unknownLabel
deriving DecidableEq, Repr

/-- STATUS (R15). Bits 31:5 "read as 0; writes ignored": they hold nothing. -/
structure Status where
  busy : Bool
  done : Bool
  errIllegal : Bool
  errLen : Bool
  errBusy : Bool
deriving DecidableEq, Repr

/-- The issue snapshot (R96). -/
structure Snapshot where
  arg0 : Word
  arg1 : Word
  arg2 : Word
  msgLen : Word
  outLen : Word
deriving DecidableEq, Repr

/-- `ENG`: "either `IDLE` or `PENDING(cmd, snap)`" (R13). -/
inductive Engine where
  | idle
  | pending (cmd : Instr) (snap : Snapshot)
deriving DecidableEq, Repr

/-- The data memory: the bytes of `S`, `MSG`, `OUT` and `P` by their offset in the window (R32 to R34).
An offset not listed has never been written since reset and has no value (R24;
notes/assumptions/1.md). -/
abbrev Memory := List Host.Cell

/-- The canonical form: offsets strictly rising. An unlisted offset reads as no value, so no entry can
equal it. -/
abbrev Memory.wf (m : Memory) : Prop := m.Pairwise (fun c d => c.1 < d.1)

/-- What a host access names: `BASE + off` (R52), or an absolute byte address (R26, R28). -/
inductive HostAddr where
  | rel (off : Nat)
  | abs (addr : Nat)
deriving DecidableEq, Repr

/-- A value a host program writes: a literal, or one of its variables (R52). -/
inductive HostValue where
  | imm (v : Word)
  | var (t : Nat)
deriving DecidableEq, Repr

/-- A condition on host variables (R52): a field `t[hi:lo]` has a value, two variables are equal, and
combinations (notes/assumptions/8.md). -/
inductive HostCond where
  | fieldIs (t hi lo : Nat) (v : Nat)
  | same (t u : Nat)
  | not (c : HostCond)
  | and (c d : HostCond)
  | or (c d : HostCond)
deriving DecidableEq, Repr

/-- A line of a host program (R52). `reset` is no line of R52: it marks where the platform's reset event
falls among the host's steps (R109; notes/assumptions/9.md). -/
inductive HostLine where
  | write (addr : HostAddr) (width : Nat) (v : HostValue)
  | read (addr : HostAddr) (width : Nat) (t : Nat)
  | label (l : Nat)
  | branch (c : HostCond) (l : Nat)
  | halt
  | reset
deriving DecidableEq, Repr

/-- The host agent: its program, the line it stands at, and its variables by number, rising. -/
structure HostAgent where
  program : List HostLine
  line : Nat
  vars : List (Nat × Word)
deriving DecidableEq, Repr

/-- The whole state. The first group is the block's (R13 to R19); `host`, `wait` and `draws` are the
model's: the other agent, the host steps still to come before the engine's step (R118), and how many
free values have been used. -/
structure State where
  cmdLast : Word
  status : Status
  msgLen : Word
  outLen : Word
  arg0 : Word
  arg1 : Word
  arg2 : Word
  res0 : Word
  res1 : Word
  eng : Engine
  mem : Memory
  host : HostAgent
  wait : Nat
  draws : Nat
deriving DecidableEq, Repr

/-- STATUS after reset (R15, R109). -/
def Status.reset : Status :=
  { busy := false, done := false, errIllegal := false, errLen := false, errBusy := false }

/-- The state of R109, with no host program (notes/assumptions/13.md). -/
def State.reset : State :=
  { cmdLast := 0#32, status := Status.reset, msgLen := 0#32, outLen := 0#32, arg0 := 0#32, arg1 := 0#32,
    arg2 := 0#32, res0 := 0#32, res1 := 0#32, eng := .idle, mem := [],
    host := { program := [], line := 0, vars := [] }, wait := 0, draws := 0 }

/-- The entries of the window's map (R27, R37, R38): a register, half lane `w` of `S`, a ROM word, word
`m` of a buffer, coefficient pair `m` of bank `b`, or a reserved offset. -/
inductive Location where
  | cmd
  | status
  | msgLen
  | outLen
  | arg0
  | arg1
  | arg2
  | res0
  | res1
  | keccak (w : Nat)
  | zeta (k : Nat)
  | rc (r h : Nat)
  | rho (i : Nat)
  | msg (m : Nat)
  | out (m : Nat)
  | bank (b m : Nat)
  | reserved
deriving DecidableEq, Repr

/-- The error flags of R98. -/
inductive ErrorFlag where
  | illegal
  | len
  | busy
deriving DecidableEq, Repr

/-- Outcomes of one step of the machine. -/
abbrev Result := Host.Outcome State Fault Refusal

end Sys2Proof.Machine
end

