-- ==== Sys2Proof/Machine/Operands.lean ====
section
/-! DEFINITION. Operand assembly (spec/30_encoding.md R45): every scalar operand comes from the issue
snapshot (spec/60_exceptions.md R96), and bits a command does not name are ignored. -/

namespace Sys2Proof.Machine

/-- The five registers as they stand: what an issue now would snapshot (R95, R96). -/
def liveSnapshot (s : State) : Snapshot :=
  { arg0 := s.arg0, arg1 := s.arg1, arg2 := s.arg2, msgLen := s.msgLen, outLen := s.outLen }

/-- The snapshot a command's pseudocode reads (R11, R96): that of the pending command. With nothing
pending, which no step reaches, what an issue now would snapshot (notes/assumptions/11.md). -/
def operands (s : State) : Snapshot :=
  match s.eng with
  | .pending _ snap => snap
  | .idle => liveSnapshot s

/-- `sext_16(ARG0[15:0])`: BARRETT, CSUBQ and BUTTERFLY (R45 (b)). -/
def operandA16 (snap : Snapshot) : Int := sext 16 (snap.arg0.extractLsb' 0 16).toNat

/-- `sext_32(ARG0)`: MONTGOMERY (R45 (b)). -/
def operandA32 (snap : Snapshot) : Int := sext 32 snap.arg0.toNat

/-- `sext_16(ARG1[15:0])`: BUTTERFLY (R45 (b)). -/
def operandB16 (snap : Snapshot) : Int := sext 16 (snap.arg1.extractLsb' 0 16).toNat

/-- `zext_7(ARG2[6:0])`, the zeta index: BUTTERFLY (R45 (b)). -/
def operandK (snap : Snapshot) : Nat := (snap.arg2.extractLsb' 0 7).toNat

/-- MSGLEN as an unsigned byte count (R45 (c)). -/
def operandMsgLen (snap : Snapshot) : Nat := snap.msgLen.toNat

/-- OUTLEN as an unsigned byte count (R45 (c)). -/
def operandOutLen (snap : Snapshot) : Nat := snap.outLen.toNat

end Sys2Proof.Machine
end

