-- ==== Sys2Proof/Machine/Flags.lean ====
section
/-! DEFINITION. STATUS (spec/10_state.md R15): the word a read returns, the W1C write, and the flag an
error sets. No arithmetic writes a flag (R22). -/

namespace Sys2Proof.Machine

/-- The word read at offset 0x004: `{0[31:5], ERR_BUSY, ERR_LEN, ERR_ILLEGAL, DONE, BUSY}` (R15, R37). -/
def statusWord (t : Status) : Word :=
  (BitVec.ofBool t.errBusy ++ BitVec.ofBool t.errLen ++ BitVec.ofBool t.errIllegal ++
    BitVec.ofBool t.done ++ BitVec.ofBool t.busy).setWidth 32

/-- A host write of `w`: each of bits 1 to 4 becomes `STATUS[f] ∧ ¬w[f]`; bit 0 and bits 31:5 ignore the
write (R15). -/
def statusW1c (t : Status) (w : Word) : Status :=
  { busy := t.busy
    done := t.done && !w.getLsbD 1
    errIllegal := t.errIllegal && !w.getLsbD 2
    errLen := t.errLen && !w.getLsbD 3
    errBusy := t.errBusy && !w.getLsbD 4 }

/-- `STATUS.f <- 1` for an error flag (R98). -/
def statusFlag (t : Status) : ErrorFlag → Status
  | .illegal => { t with errIllegal := true }
  | .len => { t with errLen := true }
  | .busy => { t with errBusy := true }

end Sys2Proof.Machine
end

