-- ==== Sys2Proof/Machine/Ops.lean ====
section
/-! DEFINITION. The operations over the data memory and the registers that every command and host access
share. The block takes no exception and returns from none (spec/60_exceptions.md R101, R102); the one
shared way an error is reported, `raiseError`, stands here in their place (spec/00_scope.md R10). -/

namespace Sys2Proof.Machine

/-! ### The data memory -/

/-- One byte; `none` where nothing was written since reset (R24). -/
def readByte : Memory → Nat → Option Byte
  | [], _ => none
  | c :: m, a => if c.1 = a then some c.2 else readByte m a

/-- `n` bytes from `a`, if every one of them is written. -/
def readBytes (m : Memory) : Nat → Nat → Option (List Byte)
  | _, 0 => some []
  | a, n + 1 =>
    match readByte m a, readBytes m (a + 1) n with
    | some b, some bs => some (b :: bs)
    | _, _ => none

/-- The little-endian value of `n` bytes from `a` (R32). -/
def readValue (m : Memory) (a n : Nat) : Option Nat := (readBytes m a n).map leValue

/-- The cells of bytes laid out from `a`. -/
def cellsAt : Nat → List Byte → Memory
  | _, [] => []
  | a, b :: bs => (a, b) :: cellsAt (a + 1) bs

/-- Bytes stored from `a`: what lay in their place goes, all else stays. -/
def writeBytes (m : Memory) (a : Nat) (bs : List Byte) : Memory :=
  m.filter (fun c => decide (c.1 < a)) ++ cellsAt a bs ++ m.filter (fun c => decide (a + bs.length ≤ c.1))

/-- The part of the memory at offsets `[a, a + n)`. -/
def region (m : Memory) (a n : Nat) : Memory :=
  m.filter (fun c => decide (a ≤ c.1) && decide (c.1 < a + n))

/-! ### Where the elements lie (R27, R32 to R34) -/

/-- The offset of byte 0 of `S` (R33). -/
abbrev keccakBase : Nat := 0x100

/-- The offset of `MSG[0]` (R32). -/
abbrev msgBase : Nat := 0x800

/-- The offset of `OUT[0]` (R32). -/
abbrev outBase : Nat := 0xC00

/-- The offset of coefficient 0 of bank `b` (R34). -/
abbrev bankBase (b : Nat) : Nat := 0x1000 + 0x200 * b

/-- The word at an offset, little-endian (R32). -/
def readWord (m : Memory) (off : Nat) : Option Word := (readValue m off 4).map (BitVec.ofNat 32)

/-- A word stored at an offset, little-endian (R32). -/
def writeWord (m : Memory) (off : Nat) (v : Word) : Memory := writeBytes m off (leBytes 4 v.toNat)

/-- `S[i]` (R17, R33); `none` where a byte of it is unwritten. -/
def laneAt (m : Memory) (i : Nat) : Option Lane :=
  (readValue m (keccakBase + 8 * i) 8).map (BitVec.ofNat 64)

/-- `MSG[k]` (R18, R32); there is none past `MSG_CAP`. -/
def msgAt (m : Memory) (k : Nat) : Option Byte :=
  if k < Config.MSG_CAP then readByte m (msgBase + k) else none

/-- `OUT[k]` (R18, R32); there is none past `OUT_CAP`. -/
def outAt (m : Memory) (k : Nat) : Option Byte :=
  if k < Config.OUT_CAP then readByte m (outBase + k) else none

/-- `P[b][j]`, 16-bit two's complement (R19, R34). -/
def coefAt (m : Memory) (b j : Nat) : Option Int :=
  (readValue m (bankBase b + 2 * j) 2).map (fun (v : Nat) => sext 16 (v : Int))

/-- `S[0..24]`, if every half lane is written (R62). -/
def readKeccak (m : Memory) : Option KState :=
  gather 25 (laneAt (region m keccakBase 200)) 0#64

/-- `MSG[0 .. n)`, if every byte is written (R70). A length past the buffer never pends (R75;
notes/assumptions/12.md). -/
def readMsg (m : Memory) (n : Nat) : Option (List Byte) :=
  if n ≤ Config.MSG_CAP then readBytes (region m msgBase n) msgBase n else none

/-- `P[b][0..255]`, if every coefficient is written (R87 to R92). -/
def readPoly (m : Memory) (b : Fin 8) : Option Poly :=
  gather 256 (coefAt (region m (bankBase b) 512) b) 0

/-- `S[0..24] <- A`, marked written (R62, R63, R70). -/
def storeKeccak (m : Memory) (A : KState) : Memory :=
  writeBytes m keccakBase (A.toList.flatMap (fun v => leBytes 8 v.toNat))

/-- `OUT[0 .. n) <- bs`, marked written (R70). `OUT` has `OUT_CAP` bytes; a longer output never pends
(R75; notes/assumptions/12.md). -/
def storeOut (m : Memory) (bs : List Byte) : Memory :=
  writeBytes m outBase (bs.take Config.OUT_CAP)

/-- `P[b] <- p`, every coefficient marked written, each stored as 16 bits (R19, R34). -/
def storePoly (m : Memory) (b : Fin 8) (p : Poly) : Memory :=
  writeBytes m (bankBase b) (p.toList.flatMap (fun c => leBytes 2 (low 16 c).toNat))

/-! ### The registers and the engine -/

/-- `raise Error(f)`: "sets the named STATUS error flag, sets `STATUS.DONE <- 1`" (R10, R95). -/
def raiseError (f : ErrorFlag) (s : State) : State :=
  { s with status := { statusFlag s.status f with done := true } }

/-- The end of an engine step: `STATUS.BUSY <- 0; STATUS.DONE <- 1; ENG <- IDLE` (R97). -/
def complete (s : State) : State :=
  { s with status := { s.status with busy := false, done := true }, eng := .idle }

/-- A draw: the value, and the state that will draw the next one afresh (R12, R37). -/
def draw (s : State) : Word × State := (Config.freeWord s.draws, { s with draws := s.draws + 1 })

/-- The platform's reset (R109, R110). The host's script and the count of free values used are no state
of the block and stay (notes/assumptions/9.md). -/
def resetBlock (s : State) : State := { State.reset with host := s.host, draws := s.draws }

end Sys2Proof.Machine
end

