-- ==== Sys2Proof/Machine/Tables.lean ====
section
/-! DEFINITION. The three read-only tables of spec/10_state.md R20: `RHO` (spec/40_keccak.md R55), `RC`
(R56) and `ZETA` (spec/43_poly.md R85). The spec takes their values from general knowledge and says so
(notes/assumptions/15.md). -/

namespace Sys2Proof.Machine

/-- `RHO`, the rows `y = 0..4` of R55. -/
def rhoTable : List Nat :=
  [0, 1, 62, 28, 27] ++
  [36, 44, 6, 55, 20] ++
  [3, 10, 43, 25, 39] ++
  [41, 45, 15, 21, 8] ++
  [18, 2, 61, 56, 14]

/-- `RC`, the three columns of R56. -/
def rcTable : List Lane :=
  [0x0000000000000001#64, 0x0000000000008082#64, 0x800000000000808A#64, 0x8000000080008000#64] ++
  [0x000000000000808B#64, 0x0000000080000001#64, 0x8000000080008081#64, 0x8000000000008009#64] ++
  [0x000000000000008A#64, 0x0000000000000088#64, 0x0000000080008009#64, 0x000000008000000A#64] ++
  [0x000000008000808B#64, 0x800000000000008B#64, 0x8000000000008089#64, 0x8000000000008003#64] ++
  [0x8000000000008002#64, 0x8000000000000080#64, 0x000000000000800A#64, 0x800000008000000A#64] ++
  [0x8000000080008081#64, 0x8000000000008080#64, 0x0000000080000001#64, 0x8000000080008008#64]

/-- `ZETA`, the rows of R85. -/
def zetaTable : List Nat :=
  [1, 1729, 2580, 3289, 2642, 630, 1897, 848] ++
  [1062, 1919, 193, 797, 2786, 3260, 569, 1746] ++
  [296, 2447, 1339, 1476, 3046, 56, 2240, 1333] ++
  [1426, 2094, 535, 2882, 2393, 2879, 1974, 821] ++
  [289, 331, 3253, 1756, 1197, 2304, 2277, 2055] ++
  [650, 1977, 2513, 632, 2865, 33, 1320, 1915] ++
  [2319, 1435, 807, 452, 1438, 2868, 1534, 2402] ++
  [2647, 2617, 1481, 648, 2474, 3110, 1227, 910] ++
  [17, 2761, 583, 2649, 1637, 723, 2288, 1100] ++
  [1409, 2662, 3281, 233, 756, 2156, 3015, 3050] ++
  [1703, 1651, 2789, 1789, 1847, 952, 1461, 2687] ++
  [939, 2308, 2437, 2388, 733, 2337, 268, 641] ++
  [1584, 2298, 2037, 3220, 375, 2549, 2090, 1645] ++
  [1063, 319, 2773, 757, 2099, 561, 2466, 2594] ++
  [2804, 1092, 403, 1026, 1143, 2150, 2775, 886] ++
  [1722, 1212, 1874, 1029, 2110, 2935, 885, 2154]

/-- `RHO[i]` (0 ≤ i < 25). -/
def RHO (i : Nat) : Nat := rhoTable.getD i 0

/-- `RC[r]` (0 ≤ r < 24). -/
def RC (r : Nat) : Lane := rcTable.getD r 0#64

/-- `ZETA[k]` (0 ≤ k < 128). -/
def ZETA (k : Nat) : Nat := zetaTable.getD k 0

end Sys2Proof.Machine
end

