-- ==== Sys2Proof/Machine/ModArith.lean ====
section
/-! DEFINITION. The reductions, the butterfly and the scalar commands BARRETT, MONTGOMERY, CSUBQ and
BUTTERFLY (spec/42_modarith.md R77 to R84). All arithmetic is on exact integers (R84 (b)). -/

namespace Sys2Proof.Machine

/-- The Barrett quotient under either value of `BARRETT_VARIANT` (R77). -/
def barrettQuotient : Config.BarrettVariant → Int → Int
  | .floor, a => asr (20159 * a) 26
  | .round, a => asr (20159 * a + 2 ^ 25) 26

/-- `barrett(a)` under either value of `BARRETT_VARIANT` (R77). -/
def barrettWith (v : Config.BarrettVariant) (a : Int) : Int := s16 (a - barrettQuotient v a * Config.Q)

/-- `barrett(a)` as this hardware takes it (R77). -/
def barrett (a : Int) : Int := barrettWith Config.barrettVariant a

/-- `montgomery(a)` (R79); the division by `2^16` is exact. -/
def montgomery (a : Int) : Int :=
  let u := sext 16 (low 16 (a * Config.QINV))
  let t := a - u * Config.Q
  s16 (t / 2 ^ 16)

/-- `csubq(a)` (R81). -/
def csubq (a : Int) : Int := if 0 ≤ a ∧ a < Config.Q then a else s16 (a - Config.Q)

/-- `butterfly(a, b, zeta) = (hi, lo)` (R82). -/
def butterfly (a b zeta : Int) : Int × Int :=
  let t := modQ (zeta * b)
  (modQ (a + t), modQ (a + Config.Q - t))

/-- `RES0 <- v`, RES1 unchanged, and the end of the step (R84 (a), R97). -/
def writeRes0 (s : State) (v : Int) : Result := .next (complete { s with res0 := regOf v })

/-- BARRETT (R78). -/
def execBarrett (s : State) : Result := writeRes0 s (barrett (operandA16 (operands s)))

/-- MONTGOMERY (R80). -/
def execMontgomery (s : State) : Result := writeRes0 s (montgomery (operandA32 (operands s)))

/-- CSUBQ (R81). -/
def execCsubq (s : State) : Result := writeRes0 s (csubq (operandA16 (operands s)))

/-- BUTTERFLY (R83). -/
def execButterfly (s : State) : Result :=
  let snap := operands s
  let r := butterfly (operandA16 snap) (operandB16 snap) (ZETA (operandK snap))
  .next (complete { s with res0 := regOf r.1, res1 := regOf r.2 })

end Sys2Proof.Machine
end

