-- ==== Sys2Proof/Machine/Poly.lean ====
section
/-! DEFINITION. The polynomial functions and the commands NTT, BASEMUL, PADD, PSUB and PREDUCE
(spec/43_poly.md R85 to R94). Each command reads all its source coefficients before it writes any (R94). -/

namespace Sys2Proof.Machine

/-- Coefficient `j` of a polynomial, `j < 256`. -/
def coef (p : Poly) (j : Nat) : Int := (p[j]?).getD 0

/-- `(c[j], c[j + l]) <- butterfly(c[j], c[j + l], zeta)` (R86). -/
def nttPair (zeta : Int) (l : Nat) (p : Poly) (j : Nat) : Poly :=
  let r := butterfly (coef p j) (coef p (j + l)) zeta
  (p.setIfInBounds j r.1).setIfInBounds (j + l) r.2

/-- One block of span `l` from `start`: `j` in `start .. start + l - 1` (R86). -/
def nttBlock (zeta : Int) (l start : Nat) (p : Poly) : Poly :=
  (List.range l).foldl (fun p i => nttPair zeta l p (start + i)) p

/-- One level: the blocks of span `l` in order, each with the next zeta (R86). The polynomial and the
zeta index `k` after it. -/
def nttLevel (ck : Poly × Nat) (l : Nat) : Poly × Nat :=
  (List.range (Config.N / (2 * l))).foldl
    (fun ck b => (nttBlock (ZETA ck.2) l (2 * l * b) ck.1, ck.2 + 1)) ck

/-- The spans `l = 128, 64, …, 2` (R86). -/
def nttSpans : List Nat := [128, 64, 32, 16, 8, 4, 2]

/-- `ntt(p)` (R86), with `k` starting at 1 and the final Barrett pass. -/
def ntt (p : Poly) : Poly := (nttSpans.foldl nttLevel (p, 1)).1.map barrett

/-- The twiddle of CRT slot `i` (coefficients `2i`, `2i + 1`): group `g = i / 2` uses `ZETA[64 + g]` for
its first slot and `(Q - ZETA[64 + g]) mod Q` for its second (R88, R93). -/
def slotZeta (i : Nat) : Int :=
  if i % 2 = 0 then ZETA (64 + i / 2) else modQ (Config.Q - ZETA (64 + i / 2))

/-- `basemul(a, b)` (R88): coefficient `2i` is `(a0*b0 + zz*a1*b1) mod Q` and coefficient `2i + 1` is
`(a1*b0 + a0*b1) mod Q`. -/
def basemul (a b : Poly) : Poly :=
  Vector.ofFn fun j =>
    let o := 2 * (j.val / 2)
    if j.val % 2 = 0 then
      modQ (coef a o * coef b o + slotZeta (j.val / 2) * coef a (o + 1) * coef b (o + 1))
    else modQ (coef a (o + 1) * coef b o + coef a o * coef b (o + 1))

/-- PADD's lane: `s16(P[A][j] + P[B][j])` (R90). -/
def paddLane (a b : Int) : Int := s16 (a + b)

/-- PSUB's lane: `s16(P[A][j] − P[B][j] + Q)` (R91). -/
def psubLane (a b : Int) : Int := s16 (a - b + Config.Q)

/-- A lanewise operation on two polynomials (R93). -/
def polyZip (f : Int → Int → Int) (a b : Poly) : Poly := Vector.ofFn fun j => f a[j.val] b[j.val]

/-- `P[D] <- f(P[A])`, a fault where a source coefficient is unwritten (R87, R92). -/
def polyUnary (f : Poly → Poly) (rd ra : Fin 8) (s : State) : Result :=
  match readPoly s.mem ra with
  | none => .fault .unwrittenRead
  | some a => .next (complete { s with mem := storePoly s.mem rd (f a) })

/-- `P[D] <- f(P[A], P[B])`, a fault where a source coefficient is unwritten (R89 to R91). -/
def polyBinary (f : Poly → Poly → Poly) (rd ra rb : Fin 8) (s : State) : Result :=
  match readPoly s.mem ra, readPoly s.mem rb with
  | some a, some b => .next (complete { s with mem := storePoly s.mem rd (f a b) })
  | _, _ => .fault .unwrittenRead

/-- NTT pD (R87). -/
def execNtt (rd : Fin 8) (s : State) : Result := polyUnary ntt rd rd s

/-- BASEMUL pD, pA, pB (R89). -/
def execBasemul (rd ra rb : Fin 8) (s : State) : Result := polyBinary basemul rd ra rb s

/-- PADD pD, pA, pB (R90). -/
def execPadd (rd ra rb : Fin 8) (s : State) : Result := polyBinary (polyZip paddLane) rd ra rb s

/-- PSUB pD, pA, pB (R91): RA is the minuend. -/
def execPsub (rd ra rb : Fin 8) (s : State) : Result := polyBinary (polyZip psubLane) rd ra rb s

/-- PREDUCE pD, pA (R92). -/
def execPreduce (rd ra : Fin 8) (s : State) : Result := polyUnary (fun p => p.map barrett) rd ra s

end Sys2Proof.Machine
end

