-- ==== Sys2Proof/Machine/Keccak.lean ====
section
/-! DEFINITION. The Keccak-f[1600] permutation and the commands KECCAK_F and STATE_CLEAR
(spec/40_keccak.md R55 to R63). -/

namespace Sys2Proof.Machine

/-- The column parities `C[x]` of theta (R57). -/
def thetaC (A : KState) : Vector Lane 5 :=
  Vector.ofFn fun x => A[x.val] ^^^ A[x.val + 5] ^^^ A[x.val + 10] ^^^ A[x.val + 15] ^^^ A[x.val + 20]

/-- `D[x]` of theta; `(x−1) mod 5` is `(x+4) mod 5` (R57). -/
def thetaD (C : Vector Lane 5) : Vector Lane 5 :=
  Vector.ofFn fun x => C[(x.val + 4) % 5] ^^^ rotl64 C[(x.val + 1) % 5] 1

/-- Theta (R57). -/
def theta (A : KState) : KState :=
  let D := thetaD (thetaC A)
  Vector.ofFn fun i => A[i.val] ^^^ D[i.val % 5]

/-- The new position of lane `i = x + 5y`: `pi_index = y + 5*((2x+3y) mod 5)` (R58). -/
def piIndex (i : Fin 25) : Fin 25 :=
  ⟨i.val / 5 + 5 * ((2 * (i.val % 5) + 3 * (i.val / 5)) % 5), by omega⟩

/-- Rho and Pi, fused: each lane rotated into its new place of a scratch array (R58). -/
def rhoPi (A : KState) : KState :=
  (List.finRange 25).foldl
    (fun B i => B.set (piIndex i).val (rotl64 A[i.val] (RHO i.val)) (piIndex i).isLt)
    (Vector.replicate 25 0#64)

/-- Chi, read from the scratch array only (R59). -/
def chi (B : KState) : KState :=
  Vector.ofFn fun i =>
    B[i.val] ^^^ (~~~(B[5 * (i.val / 5) + (i.val % 5 + 1) % 5]'(by omega)) &&&
      (B[5 * (i.val / 5) + (i.val % 5 + 2) % 5]'(by omega)))

/-- Iota of round `r` (R60). -/
def iota (A : KState) (r : Nat) : KState := A.set 0 (A[0] ^^^ RC r)

/-- `Round(A, r) = Iota(Chi(RhoPi(Theta(A))), r)` (R61). -/
def keccakRound (A : KState) (r : Nat) : KState := iota (chi (rhoPi (theta A))) r

/-- `KeccakF(A)`: rounds 0 to 23 in order (R61). -/
def keccakF (A : KState) : KState := (List.range Config.ROUNDS).foldl keccakRound A

/-- The all-zero state (R63, R70). -/
def zeroState : KState := Vector.replicate 25 0#64

/-- KECCAK_F (R62). -/
def execKeccakF (s : State) : Result :=
  match readKeccak s.mem with
  | none => .fault .unwrittenRead
  | some A => .next (complete { s with mem := storeKeccak s.mem (keccakF A) })

/-- STATE_CLEAR (R63). -/
def execStateClear (s : State) : Result :=
  .next (complete { s with mem := storeKeccak s.mem zeroState })

end Sys2Proof.Machine
end

