-- ==== Sys2Proof/Machine/Sponge.lean ====
section
/-! DEFINITION. The sponge and the four sponge commands (spec/41_sponge.md R64 to R76). -/

namespace Sys2Proof.Machine

/-- `StateByte(k)` (R65), `k < 200`. -/
def stateByte (A : KState) (k : Nat) : Byte :=
  ((A[k / 8]?).getD 0#64).extractLsb' (8 * (k % 8)) 8

/-- `XorByte(k, v)` (R65), `k < 200`. -/
def xorByte (A : KState) (k : Nat) (v : Byte) : KState :=
  A.setIfInBounds (k / 8) ((A[k / 8]?).getD 0#64 ^^^ (v.setWidth 64 <<< (8 * (k % 8))))

/-- `for k in 0 .. r-1: XorByte(k, F[k])` for a block `F` of `r` bytes (R66, R67). -/
def xorBlock (A : KState) (F : List Byte) : KState :=
  F.zipIdx.foldl (fun B c => xorByte B c.2 c.1) A

/-- Absorb: every full block XORed in and followed by one permutation (R66). A message of `L` bytes has
`L / r` full blocks. -/
def absorb (r : Nat) (M : List Byte) (A : KState) : KState :=
  (List.range (M.length / r)).foldl
    (fun B b => keccakF (xorBlock B ((M.drop (b * r)).take r))) A

/-- The `t < r` bytes that no full block takes (R67). -/
def absorbTail (r : Nat) (M : List Byte) : List Byte := M.drop (M.length / r * r)

/-- The final block `F[0 .. r)` (R67): pad byte after the tail and 0x80 at the end, both XORed in. -/
def padBlock (r : Nat) (pad : Byte) (T : List Byte) : List Byte :=
  let F := (List.range r).map (fun k => if k < T.length then T.getD k 0#8 else 0#8)
  let F := F.set T.length (F.getD T.length 0#8 ^^^ pad)
  F.set (r - 1) (F.getD (r - 1) 0#8 ^^^ 0x80#8)

/-- The state after absorbing `M` from the all-zero state, padding and the final permutation (R66, R67, R70). -/
def absorbAll (r : Nat) (pad : Byte) (M : List Byte) : KState :=
  keccakF (xorBlock (absorb r M zeroState) (padBlock r pad (absorbTail r M)))

/-- The first `c` bytes of the state (R68, R69). -/
def stateBytes (A : KState) (c : Nat) : List Byte := (List.range c).map (stateByte A)

/-- Squeeze, SHAKE (R69): `n - j` bytes are still wanted; a permutation comes before each chunk but the
first. `fuel` bounds the number of chunks. The bytes, and the state the last chunk was read from. -/
def squeezeFrom (r n : Nat) : Nat → Nat → Bool → KState → List Byte × KState
  | 0, _, _, A => ([], A)
  | fuel + 1, j, first, A =>
    if j < n then
      let B := if first then A else keccakF A
      let c := min r (n - j)
      let rest := squeezeFrom r n fuel (j + c) false B
      (stateBytes B c ++ rest.1, rest.2)
    else ([], A)

/-- The SHAKE squeeze of `n` bytes (R69). -/
def squeezeShake (r n : Nat) (A : KState) : List Byte × KState := squeezeFrom r n n 0 true A

/-- The SHA3 squeeze of `n ≤ r` bytes: no further permutation (R68). -/
def squeezeSha3 (n : Nat) (A : KState) : List Byte × KState := (stateBytes A n, A)

/-- What is left of a sponge command (R70): the output to `OUT`, the last state to `S` (R76 (a)). -/
def finishSponge (s : State) (r : List Byte × KState) : Result :=
  .next (complete { s with mem := storeOut (storeKeccak s.mem r.2) r.1 })

/-- `Sponge(r, pad, n)` (R70) with the squeeze given; `MSG[0 .. MSGLEN)` must be written. -/
def runSponge (r : Nat) (pad : Byte) (squeeze : KState → List Byte × KState) (s : State) : Result :=
  match readMsg s.mem (operandMsgLen (operands s)) with
  | none => .fault .unwrittenRead
  | some M => finishSponge s (squeeze (absorbAll r pad M))

/-- SHA3_256 (R71): `Sponge(136, 0x06, 32)`. -/
def execSha3_256 (s : State) : Result := runSponge 136 0x06#8 (squeezeSha3 32) s

/-- SHA3_512 (R72): `Sponge(72, 0x06, 64)`. -/
def execSha3_512 (s : State) : Result := runSponge 72 0x06#8 (squeezeSha3 64) s

/-- SHAKE128 (R73): `Sponge(168, 0x1F, OUTLEN)`. -/
def execShake128 (s : State) : Result :=
  runSponge 168 0x1F#8 (squeezeShake 168 (operandOutLen (operands s))) s

/-- SHAKE256 (R74): `Sponge(136, 0x1F, OUTLEN)`. -/
def execShake256 (s : State) : Result :=
  runSponge 136 0x1F#8 (squeezeShake 136 (operandOutLen (operands s))) s

end Sys2Proof.Machine
end

