-- ==== Sys2Proof/Machine/Dispatch.lean ====
section
/-! DEFINITION. One arm per command: the engine's step of that command (spec/60_exceptions.md R97). -/

namespace Sys2Proof.Machine

def exec (i : Instr) (s : State) : Host.Outcome State Fault Refusal :=
  match i with
  | .keccakF => Sys2Proof.Machine.execKeccakF s
  | .stateClear => Sys2Proof.Machine.execStateClear s
  | .sha3_256 => Sys2Proof.Machine.execSha3_256 s
  | .sha3_512 => Sys2Proof.Machine.execSha3_512 s
  | .shake128 => Sys2Proof.Machine.execShake128 s
  | .shake256 => Sys2Proof.Machine.execShake256 s
  | .barrett => Sys2Proof.Machine.execBarrett s
  | .montgomery => Sys2Proof.Machine.execMontgomery s
  | .csubq => Sys2Proof.Machine.execCsubq s
  | .butterfly => Sys2Proof.Machine.execButterfly s
  | .ntt rd => Sys2Proof.Machine.execNtt rd s
  | .basemul rd ra rb => Sys2Proof.Machine.execBasemul rd ra rb s
  | .padd rd ra rb => Sys2Proof.Machine.execPadd rd ra rb s
  | .psub rd ra rb => Sys2Proof.Machine.execPsub rd ra rb s
  | .preduce rd ra => Sys2Proof.Machine.execPreduce rd ra s

end Sys2Proof.Machine
end

