-- ==== Sys2Proof/Machine/Issue.lean ====
section
/-! DEFINITION. Command issue (spec/60_exceptions.md R95, R96, R99): what a host write to CMD does. -/

namespace Sys2Proof.Machine

/-- The four sponge commands (R95). -/
def isSponge : Instr → Bool
  | .keccakF => false
  | .stateClear => false
  | .sha3_256 => true
  | .sha3_512 => true
  | .shake128 => true
  | .shake256 => true
  | .barrett => false
  | .montgomery => false
  | .csubq => false
  | .butterfly => false
  | .ntt _ => false
  | .basemul _ _ _ => false
  | .padd _ _ _ => false
  | .psub _ _ _ => false
  | .preduce _ _ => false

/-- SHAKE128 and SHAKE256, whose output length is OUTLEN (R64, R95). -/
def isShake : Instr → Bool
  | .keccakF => false
  | .stateClear => false
  | .sha3_256 => false
  | .sha3_512 => false
  | .shake128 => true
  | .shake256 => true
  | .barrett => false
  | .montgomery => false
  | .csubq => false
  | .butterfly => false
  | .ntt _ => false
  | .basemul _ _ _ => false
  | .padd _ _ _ => false
  | .psub _ _ _ => false
  | .preduce _ _ => false

/-- The lengths are within the buffers, compared as unsigned 32-bit values; OUTLEN is not checked for
SHA3 commands (R75, R95). -/
def lengthsOk (i : Instr) (snap : Snapshot) : Bool :=
  (!isSponge i || decide (operandMsgLen snap ≤ Config.MSG_CAP)) &&
    (!isShake i || decide (operandOutLen snap ≤ Config.OUT_CAP))

/-- Acceptance: `STATUS.DONE <- 0; STATUS.BUSY <- 1; ENG <- PENDING(c, snap)` (R95). How many host steps
come before the engine's is a free value (R118; notes/assumptions/6.md). -/
def acceptCommand (i : Instr) (snap : Snapshot) (s : State) : State :=
  { s with
    status := { s.status with done := false, busy := true }
    eng := .pending i snap
    wait := Config.engineDelay s.draws
    draws := s.draws + 1 }

/-- A word the block decodes while it is not busy: rejected, or accepted with the snapshot of now (R95). -/
def issueDecoded (d : Decoded) (s : State) : State :=
  match d with
  | .illegal _ => raiseError .illegal s
  | .command i =>
    if lengthsOk i (liveSnapshot s) then acceptCommand i (liveSnapshot s) s else raiseError .len s

/-- `IssueCommand(w)` (R95): dropped with ERR_BUSY while busy, else `CMD_LAST <- w` and decoded. -/
def issueCommand (w : Word) (s : State) : State :=
  if s.status.busy then { s with status := statusFlag s.status .busy }
  else issueDecoded (decode w) { s with cmdLast := w }

end Sys2Proof.Machine
end

