-- ==== Sys2Proof/Machine/Window.lean ====
section
/-! DEFINITION. The host's word accesses of the window (spec/20_memory.md R26 to R38): which accesses
have a step, the map, `MemRead` and `MemWrite`. -/

namespace Sys2Proof.Machine

/-- The map of R27 for a word-aligned offset inside the window, as R37 and R38 spell it out. -/
def locate (off : Nat) : Location :=
  if off = 0x000 then .cmd
  else if off = 0x004 then .status
  else if off = 0x008 then .msgLen
  else if off = 0x00C then .outLen
  else if off = 0x010 then .arg0
  else if off = 0x014 then .arg1
  else if off = 0x018 then .arg2
  else if off = 0x020 then .res0
  else if off = 0x024 then .res1
  else if 0x100 ≤ off ∧ off < 0x1C8 then .keccak ((off - 0x100) / 4)
  else if 0x200 ≤ off ∧ off < 0x400 then .zeta ((off - 0x200) / 4)
  else if 0x400 ≤ off ∧ off < 0x4C0 then .rc ((off - 0x400) / 8) ((off - 0x400) / 4 % 2)
  else if 0x500 ≤ off ∧ off < 0x564 then .rho ((off - 0x500) / 4)
  else if 0x800 ≤ off ∧ off < 0xC00 then .msg ((off - 0x800) / 4)
  else if 0xC00 ≤ off ∧ off < 0x1000 then .out ((off - 0xC00) / 4)
  else if 0x1000 ≤ off ∧ off < 0x2000 then .bank ((off - 0x1000) / 0x200) ((off - 0x1000) % 0x200 / 4)
  else .reserved

/-- The offset of a host access that has a step (R30, R31, R28): 4 bytes, a multiple of 4, inside the
window. `BASE` is a multiple of 4, so an offset is aligned exactly when its address is (R31). -/
def accessOffset (a : HostAddr) (width : Nat) : Except Refusal Nat :=
  if width ≠ 4 then .error .accessWidth
  else match a with
    | .rel off =>
      if off % 4 ≠ 0 then .error .misaligned
      else if off < Config.WINDOW_BYTES then .ok off
      else .error .outsideWindow
    | .abs addr =>
      if addr % 4 ≠ 0 then .error .misaligned
      else if Config.base ≤ addr ∧ addr < Config.base + Config.WINDOW_BYTES then .ok (addr - Config.base)
      else .error .outsideWindow

/-- The access has no step (R106, R28). -/
def accessRefused (a : HostAddr) (width : Nat) : Bool :=
  match accessOffset a width with
  | .ok _ => false
  | .error _ => true

/-- What a read gives: a value and the state after it (a draw counts itself), or a stop. -/
abbrev ReadResult := Host.Outcome (Word × State) Fault Refusal

/-- A read of data the host may see: a fault where a byte of the word is unwritten (R24, R37). -/
def readData (s : State) (off : Nat) : ReadResult :=
  match readWord s.mem off with
  | none => .fault .unwrittenRead
  | some v => .next (v, s)

/-- A read that is a draw while BUSY = 1 (R37, R115), and `quiet` otherwise. -/
def readUnlessBusy (s : State) (quiet : ReadResult) : ReadResult :=
  if s.status.busy then .next (draw s) else quiet

/-- The read of one location (R37). -/
def readLocation (s : State) : Location → ReadResult
  | .cmd => .next (s.cmdLast, s)
  | .status => .next (statusWord s.status, s)
  | .msgLen => .next (s.msgLen, s)
  | .outLen => .next (s.outLen, s)
  | .arg0 => .next (s.arg0, s)
  | .arg1 => .next (s.arg1, s)
  | .arg2 => .next (s.arg2, s)
  | .res0 => readUnlessBusy s (.next (s.res0, s))
  | .res1 => readUnlessBusy s (.next (s.res1, s))
  | .keccak w => readUnlessBusy s (readData s (keccakBase + 4 * w))
  | .zeta k => .next (BitVec.ofNat 32 (ZETA k), s)
  | .rc r h => .next ((RC r).extractLsb' (32 * h) 32, s)
  | .rho i => .next (BitVec.ofNat 32 (RHO i), s)
  | .msg m => readData s (msgBase + 4 * m)
  | .out m => readUnlessBusy s (readData s (outBase + 4 * m))
  | .bank b m => readUnlessBusy s (readData s (bankBase b + 4 * m))
  | .reserved => .next (0#32, s)

/-- `MemRead(addr, 4)` (R37). -/
def memRead (s : State) (a : HostAddr) (width : Nat) : ReadResult :=
  match accessOffset a width with
  | .error r => .refused r
  | .ok off => readLocation s (locate off)

/-- A write of `S`, `MSG` or `P`: a fault while BUSY = 1 (R114), else the word is stored and its elements
are written (R24, R38). -/
def writeData (s : State) (off : Nat) (v : Word) : Result :=
  if s.status.busy then .fault .writeWhileBusy
  else .next { s with mem := writeWord s.mem off v }

/-- The write of one location (R38); a write to RES0, RES1, a ROM, `OUT` or a reserved offset has no
effect (R29). -/
def writeLocation (s : State) (v : Word) : Location → Result
  | .cmd => .next (issueCommand v s)
  | .status => .next { s with status := statusW1c s.status v }
  | .msgLen => .next { s with msgLen := v }
  | .outLen => .next { s with outLen := v }
  | .arg0 => .next { s with arg0 := v }
  | .arg1 => .next { s with arg1 := v }
  | .arg2 => .next { s with arg2 := v }
  | .res0 => .next s
  | .res1 => .next s
  | .keccak w => writeData s (keccakBase + 4 * w) v
  | .zeta _ => .next s
  | .rc _ _ => .next s
  | .rho _ => .next s
  | .msg m => writeData s (msgBase + 4 * m) v
  | .out _ => .next s
  | .bank b m => writeData s (bankBase b + 4 * m) v
  | .reserved => .next s

/-- `MemWrite(addr, 4, v)` (R38). -/
def memWrite (s : State) (a : HostAddr) (width : Nat) (v : Word) : Result :=
  match accessOffset a width with
  | .error r => .refused r
  | .ok off => writeLocation s v (locate off)

end Sys2Proof.Machine
end

