-- ==== Sys2Proof/Machine/HostProgram.lean ====
section
/-! DEFINITION. The host agent (spec/30_encoding.md R51 to R53, spec/20_memory.md R39): the text of a
command, host programs with their checks, the pseudo-instructions, one host step, and whose turn it is
(spec/70_reset_and_hazards.md R118). -/

namespace Sys2Proof.Machine

/-! ### Variables and conditions -/

/-- The value of a variable set so far. -/
def lookupVar : List (Nat × Word) → Nat → Option Word
  | [], _ => none
  | c :: vs, t => if c.1 = t then some c.2 else lookupVar vs t

/-- A variable's value; one never set is a free value (notes/assumptions/8.md). -/
def varValue (h : HostAgent) (t : Nat) : Word := (lookupVar h.vars t).getD (Config.hostVariable t)

/-- `t <- v`, the variables kept in rising order. -/
def setVar (h : HostAgent) (t : Nat) (v : Word) : HostAgent :=
  { h with vars := h.vars.filter (fun c => decide (c.1 < t)) ++ (t, v) :: h.vars.filter (fun c => decide (t < c.1)) }

/-- The value a line writes (R52). -/
def hostValue (h : HostAgent) : HostValue → Word
  | .imm v => v
  | .var t => varValue h t

/-- A condition of `IF … GOTO` (R52). -/
def hostCond (h : HostAgent) : HostCond → Bool
  | .fieldIs t hi lo v => (varValue h t).toNat / 2 ^ lo % 2 ^ (hi + 1 - lo) == v
  | .same t u => varValue h t == varValue h u
  | .not c => !hostCond h c
  | .and c d => hostCond h c && hostCond h d
  | .or c d => hostCond h c || hostCond h d

/-! ### One host step -/

/-- The line the host stands at. -/
def hostLine (s : State) : Option HostLine := s.host.program[s.host.line]?

/-- The host goes on to the next line. -/
def nextLine (s : State) : State := { s with host := { s.host with line := s.host.line + 1 } }

/-- `t <- MemRead(…)` (R52). -/
def hostRead (s : State) (a : HostAddr) (width t : Nat) : Result :=
  match memRead s a width with
  | .next r => .next (nextLine { r.2 with host := setVar r.2.host t r.1 })
  | .fault f => .fault f
  | .refused r => .refused r

/-- `MemWrite(…)` (R52). -/
def hostWrite (s : State) (a : HostAddr) (width : Nat) (v : Word) : Result :=
  match memWrite s a width v with
  | .next t => .next (nextLine t)
  | .fault f => .fault f
  | .refused r => .refused r

/-- The line number of a label (R52). -/
def labelLine (p : List HostLine) (l : Nat) : Option Nat := p.findIdx? (fun x => x == .label l)

/-- `GOTO L` (R52). -/
def hostGoto (s : State) (l : Nat) : Result :=
  match labelLine s.host.program l with
  | some n => .next { s with host := { s.host with line := n } }
  | none => .refused .unknownLabel

/-- Nothing comes from the host: it stands at HALT or past its last line (R52, R119), or at a line that has
no step, an access that is refused (R106, R28) or a jump to a label that its program does not define. -/
def hostStopped (s : State) : Bool :=
  match hostLine s with
  | none => true
  | some .halt => true
  | some (.write a width _) => accessRefused a width
  | some (.read a width _) => accessRefused a width
  | some (.label _) => false
  | some (.branch c l) => hostCond s.host c && (labelLine s.host.program l).isNone
  | some .reset => false

/-- One line of the host's program (R52), or the platform's reset (R109). -/
def hostLineStep (s : State) : HostLine → Result
  | .write a width v => hostWrite s a width (hostValue s.host v)
  | .read a width t => hostRead s a width t
  | .label _ => .next (nextLine s)
  | .branch c l => if hostCond s.host c then hostGoto s l else .next (nextLine s)
  | .halt => .next s
  | .reset => .next (nextLine (resetBlock s))

/-- One step of the host; a host that has come to its end leaves everything as it is (R119;
notes/assumptions/10.md). -/
def hostStep (s : State) : Result :=
  match hostLine s with
  | none => .next s
  | some l => hostLineStep s l

/-! ### The schedule -/

/-- A pending command's step comes when its free number of host steps is over, or when nothing comes from
the host: "the engine step is eventually taken while a command is pending" (R118), so a host whose next line
has no step never keeps it waiting (notes/assumptions/6.md). -/
def engineTurn (s : State) : Bool := s.wait == 0 || hostStopped s

/-- One of the host steps before the engine's. -/
def waitOne (s : State) : State := { s with wait := s.wait - 1 }

/-! ### The text of a command (R51) -/

/-- A bank's name, `p0`..`p7` (R51). -/
def bankText (b : Fin 8) : String := "p" ++ toString b.val

/-- A command as R51 writes it: the destination comes first. -/
def instrText (i : Instr) : String :=
  match i with
  | .keccakF => mnemonic i
  | .stateClear => mnemonic i
  | .sha3_256 => mnemonic i
  | .sha3_512 => mnemonic i
  | .shake128 => mnemonic i
  | .shake256 => mnemonic i
  | .barrett => mnemonic i
  | .montgomery => mnemonic i
  | .csubq => mnemonic i
  | .butterfly => mnemonic i
  | .ntt rd => mnemonic i ++ " " ++ bankText rd
  | .basemul rd ra rb => mnemonic i ++ " " ++ bankText rd ++ ", " ++ bankText ra ++ ", " ++ bankText rb
  | .padd rd ra rb => mnemonic i ++ " " ++ bankText rd ++ ", " ++ bankText ra ++ ", " ++ bankText rb
  | .psub rd ra rb => mnemonic i ++ " " ++ bankText rd ++ ", " ++ bankText ra ++ ", " ++ bankText rb
  | .preduce rd ra => mnemonic i ++ " " ++ bankText rd ++ ", " ++ bankText ra

/-! ### Lines and pseudo-instructions (R52, R53) -/

/-- `WR off, v` (R52). -/
def lineWr (off : Nat) (v : Word) : HostLine := .write (.rel off) 4 (.imm v)

/-- `RD off -> t` (R52). -/
def lineRd (off t : Nat) : HostLine := .read (.rel off) 4 t

/-- `WAIT`: `Lw: RD 0x004 -> t ; IF t[0] = 1 GOTO Lw` (R53), with a label and a variable of its own. -/
def pseudoWait (l t : Nat) : List HostLine :=
  [.label l, lineRd 0x004 t, .branch (.fieldIs t 0 0 1) l]

/-- `EXEC <command>` (R53). -/
def pseudoExec (i : Instr) (l t : Nat) : List HostLine := lineWr 0x000 (encode i) :: pseudoWait l t

/-- `CLEARSTATUS` (R53). -/
def pseudoClearStatus : List HostLine := [lineWr 0x004 0x0000001E#32]

/-- `PUTMSG bytes`: whole words, missing bytes 0 (R53). -/
def pseudoPutMsg (bs : List Byte) : List HostLine :=
  (List.range ((bs.length + 3) / 4)).map fun m =>
    lineWr (0x800 + 4 * m) (BitVec.ofNat 32 (leValue ((bs.drop (4 * m)).take 4)))

/-- `H(x)`: SHA3-256, the result in `OUT[0..32)` (R53). -/
def pseudoH (x : List Byte) (l t : Nat) : List HostLine :=
  pseudoPutMsg x ++ [lineWr 0x008 (BitVec.ofNat 32 x.length)] ++ pseudoExec .sha3_256 l t

/-- `G(x)`: SHA3-512, the result in `OUT[0..64)` (R53). -/
def pseudoG (x : List Byte) (l t : Nat) : List HostLine :=
  pseudoPutMsg x ++ [lineWr 0x008 (BitVec.ofNat 32 x.length)] ++ pseudoExec .sha3_512 l t

/-- `XOF(x, n)`: SHAKE128, the result in `OUT[0..n)` (R53). -/
def pseudoXof (x : List Byte) (n l t : Nat) : List HostLine :=
  pseudoPutMsg x ++ [lineWr 0x008 (BitVec.ofNat 32 x.length), lineWr 0x00C (BitVec.ofNat 32 n)] ++
    pseudoExec .shake128 l t

/-- `PRF(eta, s, b)`: SHAKE256 of `s ‖ b`, the result in `OUT[0..64·eta)` (R53). -/
def pseudoPrf (eta : Nat) (x : List Byte) (b : Byte) (l t : Nat) : List HostLine :=
  pseudoPutMsg (x ++ [b]) ++ [lineWr 0x008 33#32, lineWr 0x00C (BitVec.ofNat 32 (64 * eta))] ++
    pseudoExec .shake256 l t

/-- `PUTPOLY pB, p` (R53): word `m` is `{low_16(p[2m+1]), low_16(p[2m])}`. -/
def pseudoPutPoly (b : Fin 8) (p : Poly) : List HostLine :=
  (List.range 128).map fun m =>
    lineWr (0x1000 + 0x200 * b.val + 4 * m)
      (BitVec.ofInt 16 ((p[2 * m + 1]?).getD 0) ++ BitVec.ofInt 16 ((p[2 * m]?).getD 0))

/-- `SCALAR <cmd> a, b, k` (R53). -/
def pseudoScalar (i : Instr) (a b k : Word) (l t : Nat) : List HostLine :=
  [lineWr 0x010 a, lineWr 0x014 b, lineWr 0x018 k] ++ pseudoExec i l t

/-! ### Well-formed programs (R30, R31, R52) -/

/-- The labels a program defines. -/
def programLabels : List HostLine → List Nat
  | [] => []
  | .label l :: p => l :: programLabels p
  | _ :: p => programLabels p

/-- A line's access has a step wherever the window lies, and its branch target is defined. -/
def lineWf (labels : List Nat) : HostLine → Bool
  | .write (.rel off) width _ => width == 4 && off % 4 == 0 && decide (off < Config.WINDOW_BYTES)
  | .write (.abs _) _ _ => false
  | .read (.rel off) width _ => width == 4 && off % 4 == 0 && decide (off < Config.WINDOW_BYTES)
  | .read (.abs _) _ _ => false
  | .label _ => true
  | .branch _ l => labels.contains l
  | .halt => true
  | .reset => true

/-- A host program no step of which is refused: legal accesses, defined branch targets, and no label
defined twice. -/
def programWf (p : List HostLine) : Bool :=
  p.all (lineWf (programLabels p)) && decide (programLabels p).Nodup

end Sys2Proof.Machine
end

