-- ==== Sys2Proof/Machine/Step.lean ====
section
/-! DEFINITION. One step of the machine: the engine's or the host's (spec/00_scope.md R5,
spec/20_memory.md R39), and the placing of one command where the next step runs it. -/

namespace Sys2Proof.Machine

/-- One step. While a command is pending, the engine's step when its turn has come, else one of the host's
(R13, R97, R118); while none is, the host's. -/
def step (s : State) : Host.Outcome State Fault Refusal :=
  match s.eng with
  | .pending i _ => if engineTurn s then exec i s else hostStep (waitOne s)
  | .idle => hostStep s

/-- The block as an accepting CMD write of the word leaves it, the engine's step coming next
(R95; notes/assumptions/7.md). A word that is no command, or whose lengths R75 rejects, is placed as the
host's next write to CMD, and the next step rejects it as R95 says. -/
def State.withFetchWord (s : State) (nbits w : Nat) : State :=
  let v : Word := BitVec.ofNat 32 (w % 2 ^ nbits)
  let atHost : State :=
    { s with
      status := { s.status with busy := false }
      eng := .idle
      host := { s.host with program := [lineWr 0x000 v], line := 0 } }
  match decodeTableWord nbits w with
  | none => atHost
  | some i =>
    if lengthsOk i (liveSnapshot s) then
      { s with
        cmdLast := v
        status := { s.status with done := false, busy := true }
        eng := .pending i (liveSnapshot s)
        wait := 0 }
    else atHost

end Sys2Proof.Machine
end

