-- ==== Sys2Proof/Safety.lean ====
section
/-! DEFINITION. The terms the statements use: the machine's invariant, what an engine step leaves alone,
and what a safe run is (a faulted run "satisfies no claim", spec/60_exceptions.md R105). -/

namespace Sys2Proof.Machine

/-- An offset at which the data memory may hold a byte: `S`, `MSG`, `OUT` or `P` (R27). -/
def dataOffset (a : Nat) : Prop := (0x100 ≤ a ∧ a < 0x1C8) ∨ (0x800 ≤ a ∧ a < 0x2000)

/-- The *written* mark of a byte (R24). -/
def written (m : Memory) (a : Nat) : Bool := (readByte m a).isSome

/-- What holds of the state after reset and is kept by every step. -/
structure State.Inv (s : State) : Prop where
  /-- the data memory is in canonical form -/
  memWf : s.mem.wf
  /-- nothing is written outside `S`, `MSG`, `OUT` and `P` -/
  memData : ∀ a, written s.mem a = true → dataOffset a
  /-- a half lane of `S` is written whole or not at all (R24) -/
  halfLanes : ∀ w k, w < 50 → k < 4 →
    written s.mem (keccakBase + 4 * w + k) = written s.mem (keccakBase + 4 * w)
  /-- a coefficient is written whole or not at all (R24) -/
  coefs : ∀ b j, b < 8 → j < 256 →
    written s.mem (bankBase b + 2 * j + 1) = written s.mem (bankBase b + 2 * j)
  /-- "`ENG = PENDING(…)` exactly when `STATUS.BUSY = 1`" (R13) -/
  busyPending : s.status.busy = true ↔ s.eng ≠ .idle
  /-- "`STATUS.BUSY = 1` implies `STATUS.DONE = 0`" (R95) -/
  busyNotDone : s.status.busy = true → s.status.done = false
  /-- a pending command's lengths passed the check of R75 -/
  lengths : ∀ i snap, s.eng = .pending i snap → lengthsOk i snap = true
  /-- the host's variables are listed in rising order -/
  varsWf : s.host.vars.Pairwise (fun c d => c.1 < d.1)

/-- What no engine step changes: every register but RES0 and RES1, the error flags, the host and the
model's own counters (R76 (d), R84, R97). -/
structure SameControl (s t : State) : Prop where
  cmdLast : t.cmdLast = s.cmdLast
  msgLen : t.msgLen = s.msgLen
  outLen : t.outLen = s.outLen
  arg0 : t.arg0 = s.arg0
  arg1 : t.arg1 = s.arg1
  arg2 : t.arg2 = s.arg2
  errIllegal : t.status.errIllegal = s.status.errIllegal
  errLen : t.status.errLen = s.status.errLen
  errBusy : t.status.errBusy = s.status.errBusy
  host : t.host = s.host
  wait : t.wait = s.wait
  draws : t.draws = s.draws

/-- RES0 and RES1 are as before. -/
structure SameResults (s t : State) : Prop where
  res0 : t.res0 = s.res0
  res1 : t.res1 = s.res1

/-- The end of an engine step: BUSY = 0, DONE = 1, ENG = IDLE (R97). -/
structure Finished (t : State) : Prop where
  busy : t.status.busy = false
  done : t.status.done = true
  eng : t.eng = .idle

/-- Every byte of the data memory outside `[lo, lo + n)` reads as before. -/
def SameBytesOutside (s t : State) (lo n : Nat) : Prop :=
  ∀ a, a < lo ∨ lo + n ≤ a → readByte t.mem a = readByte s.mem a

/-- Every byte of the data memory reads as before. -/
def SameBytes (s t : State) : Prop := ∀ a, readByte t.mem a = readByte s.mem a

/-- The block's own state is the same: all but the host and the model's counters (R13 to R19). -/
def SameBlock (s t : State) : Prop := { t with host := s.host, wait := s.wait, draws := s.draws } = s

/-- Lane `i` of a Keccak state, `i < 25` (R17). -/
def laneOf (A : KState) (i : Nat) : Lane := (A[i]?).getD 0#64

/-- `s16` as 16 stored bits say it: low 16 bits, read as two's complement (R7). -/
def wrap16 (v : Int) : Int := (BitVec.ofInt 16 v).toInt

/-- The command reads an element that nothing has written (R105, second row). -/
def operandUnwritten (i : Instr) (snap : Snapshot) (m : Memory) : Prop :=
  match i with
  | .keccakF => ∃ k, k < 25 ∧ laneAt m k = none
  | .stateClear => False
  | .sha3_256 => ∃ k, k < snap.msgLen.toNat ∧ msgAt m k = none
  | .sha3_512 => ∃ k, k < snap.msgLen.toNat ∧ msgAt m k = none
  | .shake128 => ∃ k, k < snap.msgLen.toNat ∧ msgAt m k = none
  | .shake256 => ∃ k, k < snap.msgLen.toNat ∧ msgAt m k = none
  | .barrett => False
  | .montgomery => False
  | .csubq => False
  | .butterfly => False
  | .ntt rd => ∃ j, j < 256 ∧ coefAt m rd j = none
  | .basemul _ ra rb => ∃ j, j < 256 ∧ (coefAt m ra j = none ∨ coefAt m rb j = none)
  | .padd _ ra rb => ∃ j, j < 256 ∧ (coefAt m ra j = none ∨ coefAt m rb j = none)
  | .psub _ ra rb => ∃ j, j < 256 ∧ (coefAt m ra j = none ∨ coefAt m rb j = none)
  | .preduce _ ra => ∃ j, j < 256 ∧ coefAt m ra j = none

/-- `n` steps from `s` lead to `t` without a fault or a refusal. -/
def Reaches (n : Nat) (s t : State) : Prop := Host.Core.run Sys2Proof.core n s = .next t

/-- A run of `n` steps that no fault and no refusal ends. -/
def SafeRun (n : Nat) (s : State) : Prop := ∃ t, Reaches n s t

end Sys2Proof.Machine
end

