-- ==== Sys2Proof/Certificates/Slice0/Obligations.lean ====
section
/-! DEFINITION. The statements for the provers, from the numbered rules of spec/. An address written
`.rel off` is `BASE + off` (spec/30_encoding.md R52). `SameControl`, `SameResults`, `SameBytes`,
`SameBytesOutside` and `Finished` (Sys2Proof/Safety.lean) are the frames. -/

open Sys2Proof Sys2Proof.Machine

/-! ### Encoding -/

/-- Words of the table of R46, one a family, decode to what they stand for. -/
def Obligations.SpecWordsDecode : Prop :=
  decode 0x00000001#32 = .command .keccakF ∧ decode 0x00000103#32 = .command .sha3_512 ∧
  decode 0x00000013#32 = .command .butterfly ∧ decode 0x00003020#32 = .command (.ntt 3) ∧
  decode 0x00102021#32 = .command (.basemul 2 0 1) ∧ decode 0x00073024#32 = .command (.preduce 3 7)

/-- No bit of an encoding is dropped (R44, R46). -/
def Obligations.DecodeOfEncodeIsIdentity : Prop :=
  ∀ i : Instr, i.wf = true → decode (encode i) = .command i

/-- An accepted word is the one encoding of its command (R47). -/
def Obligations.EncodeOfDecodeIsIdentity : Prop :=
  ∀ (w : Word) (i : Instr), decode w = .command i → encode i = w

/-- R47: a word is accepted exactly when its reserved bits and unused fields are 0 and OP and FN are
assigned, and two accepted words of one command are equal. -/
def Obligations.DecodeAcceptsExactlyLegalFields : Prop :=
  (∀ w : Word, (∃ i, decode w = .command i) ↔ (wordFields w).wf = true) ∧
  (∀ (v w : Word) (i : Instr), decode v = .command i → decode w = .command i → v = w)

/-- R46: "A word `w` is the listed command iff `w & mask = match`", and the bank fields are bits 14:12,
18:16 and 22:20. -/
def Obligations.TableMaskAndMatchDecide : Prop :=
  (∀ (w : Word) (i : Instr),
    w &&& tableMask i = tableMatch i ↔ ∃ j, decode w = .command j ∧ mnemonic j = mnemonic i) ∧
  (∀ (w : Word) (d : Fin 8), decode w = .command (.ntt d) → d.val = (w.extractLsb' 12 3).toNat) ∧
  (∀ (w : Word) (d a : Fin 8), decode w = .command (.preduce d a) →
    d.val = (w.extractLsb' 12 3).toNat ∧ a.val = (w.extractLsb' 16 3).toNat) ∧
  (∀ (w : Word) (d a b : Fin 8),
    decode w = .command (.basemul d a b) ∨ decode w = .command (.padd d a b) ∨ decode w = .command (.psub d a b) →
    d.val = (w.extractLsb' 12 3).toNat ∧ a.val = (w.extractLsb' 16 3).toNat ∧ b.val = (w.extractLsb' 20 3).toNat)

/-! ### Steps, issue and STATUS -/

/-- A step runs the pending command when its turn has come, else the host's next line; and a word placed
by `withFetchWord` is what the next step runs. Both are the model's: whose turn it is, is its schedule
(notes/assumptions/3.md, 6.md), and `withFetchWord` stands for the accepting CMD write
(notes/assumptions/7.md). -/
def Obligations.StepRunsTheDecodedCommand : Prop :=
  (∀ (s : State) (i : Instr) (snap : Snapshot), s.eng = .pending i snap →
    (s.wait = 0 ∨ hostStopped s = true → step s = exec i s) ∧
    (s.wait ≠ 0 ∧ hostStopped s = false → step s = hostStep { s with wait := s.wait - 1 })) ∧
  (∀ s : State, s.eng = .idle → step s = hostStep s) ∧
  (∀ (s : State) (w : Word) (i : Instr), decode w = .command i → lengthsOk i (liveSnapshot s) = true →
    step (s.withFetchWord 32 w.toNat) = exec i (s.withFetchWord 32 w.toNat) ∧
    (s.withFetchWord 32 w.toNat).eng = .pending i (liveSnapshot s) ∧
    (s.withFetchWord 32 w.toNat).cmdLast = w ∧ (s.withFetchWord 32 w.toNat).mem = s.mem)

/-- R95, R75: a write to CMD is dropped while busy; else an illegal word sets ERR_ILLEGAL and
DONE, a length above its buffer sets ERR_LEN and DONE, and any other command is accepted with the snapshot
of now. Nothing else of the block changes. -/
def Obligations.CommandWriteIssues : Prop :=
  ∀ (s : State) (w : Word),
    (s.status.busy = true →
      memWrite s (.rel 0x000) 4 w = .next { s with status := { s.status with errBusy := true } }) ∧
    (∀ y, s.status.busy = false → decode w = .illegal y →
      memWrite s (.rel 0x000) 4 w =
        .next { s with cmdLast := w, status := { s.status with errIllegal := true, done := true } }) ∧
    (∀ i, s.status.busy = false → decode w = .command i →
      ((i = .sha3_256 ∨ i = .sha3_512 ∨ i = .shake128 ∨ i = .shake256) ∧ 1024 < s.msgLen.toNat) ∨
        ((i = .shake128 ∨ i = .shake256) ∧ 1024 < s.outLen.toNat) →
      memWrite s (.rel 0x000) 4 w =
        .next { s with cmdLast := w, status := { s.status with errLen := true, done := true } }) ∧
    (∀ i, s.status.busy = false → decode w = .command i →
      ((i = .sha3_256 ∨ i = .sha3_512 ∨ i = .shake128 ∨ i = .shake256) → s.msgLen.toNat ≤ 1024) →
      ((i = .shake128 ∨ i = .shake256) → s.outLen.toNat ≤ 1024) →
      ∃ t, memWrite s (.rel 0x000) 4 w = .next t ∧ t.host = s.host ∧
        SameBlock
          { s with
            cmdLast := w
            status := { s.status with done := false, busy := true }
            eng := .pending i ⟨s.arg0, s.arg1, s.arg2, s.msgLen, s.outLen⟩ } t)

/-- R48: an OP that the table does not list, and FN 4 to 15 of OP 0x03, are rejected with ERR_ILLEGAL and
change no other state but CMD_LAST and DONE. -/
def Obligations.UnassignedCodesAreRejected : Prop :=
  ∀ (s : State) (w : Word), s.status.busy = false →
    w.extractLsb' 0 8 ∉ [0x01#8, 0x02#8, 0x03#8, 0x10#8, 0x11#8, 0x12#8, 0x13#8, 0x20#8, 0x21#8, 0x22#8, 0x23#8, 0x24#8] ∨
      (w.extractLsb' 0 8 = 0x03#8 ∧ 4 ≤ (w.extractLsb' 8 4).toNat) →
    memWrite s (.rel 0x000) 4 w =
      .next { s with cmdLast := w, status := { s.status with errIllegal := true, done := true } }

/-- STATUS reads its five flags and 0 in bits 31:5, and a write clears exactly the flags of bits 4:1 it
writes 1 to; BUSY and everything else stay (R15). -/
def Obligations.StatusReadsAndClears : Prop :=
  ∀ (s : State) (v : Word),
    (∃ r, memRead s (.rel 0x004) 4 = .next (r, s) ∧ r.getLsbD 0 = s.status.busy ∧ r.getLsbD 1 = s.status.done ∧
      r.getLsbD 2 = s.status.errIllegal ∧ r.getLsbD 3 = s.status.errLen ∧ r.getLsbD 4 = s.status.errBusy ∧
      ∀ k, 5 ≤ k → r.getLsbD k = false) ∧
    (∃ t, memWrite s (.rel 0x004) 4 v = .next t ∧ t = { s with status := t.status } ∧
      t.status.busy = s.status.busy ∧
      statusWord t.status = statusWord s.status &&& ~~~(v &&& 0x0000001E#32))

/-- CMD reads CMD_LAST; MSGLEN, OUTLEN and ARG0 to ARG2 read and write all 32 bits, busy or not; RES0 and
RES1 read their value while idle and ignore writes (R14, R16, R117). -/
def Obligations.ControlRegistersReadAndWrite : Prop :=
  ∀ (s : State) (v : Word),
    memRead s (.rel 0x000) 4 = .next (s.cmdLast, s) ∧
    memRead s (.rel 0x008) 4 = .next (s.msgLen, s) ∧ memWrite s (.rel 0x008) 4 v = .next { s with msgLen := v } ∧
    memRead s (.rel 0x00C) 4 = .next (s.outLen, s) ∧ memWrite s (.rel 0x00C) 4 v = .next { s with outLen := v } ∧
    memRead s (.rel 0x010) 4 = .next (s.arg0, s) ∧ memWrite s (.rel 0x010) 4 v = .next { s with arg0 := v } ∧
    memRead s (.rel 0x014) 4 = .next (s.arg1, s) ∧ memWrite s (.rel 0x014) 4 v = .next { s with arg1 := v } ∧
    memRead s (.rel 0x018) 4 = .next (s.arg2, s) ∧ memWrite s (.rel 0x018) 4 v = .next { s with arg2 := v } ∧
    memWrite s (.rel 0x020) 4 v = .next s ∧ memWrite s (.rel 0x024) 4 v = .next s ∧
    (s.status.busy = false →
      memRead s (.rel 0x020) 4 = .next (s.res0, s) ∧ memRead s (.rel 0x024) 4 = .next (s.res1, s))

/-! ### The window -/

/-- R29: reserved offsets read 0, and a write to a reserved offset, a ROM, `OUT`, RES0 or RES1 changes
nothing. -/
def Obligations.ReservedAndReadOnlyOffsets : Prop :=
  ∀ (s : State) (off : Nat) (v : Word), off % 4 = 0 →
    (off = 0x01C ∨ (0x028 ≤ off ∧ off < 0x100) ∨ (0x1C8 ≤ off ∧ off < 0x200) ∨ (0x4C0 ≤ off ∧ off < 0x500) ∨
        (0x564 ≤ off ∧ off < 0x800) →
      memRead s (.rel off) 4 = .next (0#32, s) ∧ memWrite s (.rel off) 4 v = .next s) ∧
    ((0x200 ≤ off ∧ off < 0x4C0) ∨ (0x500 ≤ off ∧ off < 0x564) ∨ (0xC00 ≤ off ∧ off < 0x1000) ∨
        off = 0x020 ∨ off = 0x024 →
      memWrite s (.rel off) 4 v = .next s)

/-- R35: the ROM words, in every state. The tables are those of `ZetaTableIsPowersOf17` and
`RhoAndRoundConstantTables`. -/
def Obligations.RomWordsRead : Prop :=
  ∀ s : State,
    (∀ k, k < 128 → memRead s (.rel (0x200 + 4 * k)) 4 = .next (BitVec.ofNat 32 (ZETA k), s)) ∧
    (∀ r, r < 24 →
      memRead s (.rel (0x400 + 8 * r)) 4 = .next ((RC r).extractLsb' 0 32, s) ∧
      memRead s (.rel (0x400 + 8 * r + 4)) 4 = .next ((RC r).extractLsb' 32 32, s)) ∧
    (∀ i, i < 25 → memRead s (.rel (0x500 + 4 * i)) 4 = .next (BitVec.ofNat 32 (RHO i), s))

/-- The tables of the permutation by their generators (R55, R56; general knowledge, notes/assumptions/15.md):
`RHO[0] = 0` and the walk `(x, y) <- (y, (2x + 3y) mod 5)` from (1, 0) gives `RHO[x + 5y] = (t+1)(t+2)/2 mod 64`
at its step `t`; bit `i` of `RC[r]` is 1 exactly when `i = 2^j − 1` for a `j` in 0..6 with `rc(j + 7r) = 1`, where
`rc(t)` is bit 0 of the LFSR of R56 after `t mod 255` steps from 1. -/
def Obligations.RhoAndRoundConstantTables : Prop :=
  RHO 0 = 0 ∧
  (∀ t : Nat, t < 24 → ∀ x y : Nat, (fun c : Nat × Nat => (c.2, (2 * c.1 + 3 * c.2) % 5))^[t] (1, 0) = (x, y) →
    RHO (x + 5 * y) = (t + 1) * (t + 2) / 2 % 64) ∧
  (∀ r i : Nat, r < 24 → i < 64 →
    ((RC r).getLsbD i = true ↔ ∃ j, j < 7 ∧ i = 2 ^ j - 1 ∧
      (fun R : Nat => if 256 ≤ 2 * R then 2 * R ^^^ 0x171 else 2 * R)^[(j + 7 * r) % 255] 1 % 2 = 1))

/-- The zeta table: `ZETA[k] = 17^bitrev7(k) mod 3329` (R85; general knowledge, notes/assumptions/15.md). -/
def Obligations.ZetaTableIsPowersOf17 : Prop :=
  ∀ k, k < 128 →
    ZETA k = 17 ^ (k % 2 * 64 + k / 2 % 2 * 32 + k / 4 % 2 * 16 + k / 8 % 2 * 8 + k / 16 % 2 * 4 +
      k / 32 % 2 * 2 + k / 64 % 2) % 3329

/-- R32: word `m` of `MSG` and of `OUT` holds bytes `4m..4m+3`, byte `4m` lowest, and a write of `MSG` sets
exactly those. -/
def Obligations.BufferWordsAreLittleEndian : Prop :=
  ∀ (s : State) (m : Nat) (v : Word), m < 256 →
    (s.status.busy = false →
      ∃ t, memWrite s (.rel (0x800 + 4 * m)) 4 v = .next t ∧ t = { s with mem := t.mem } ∧
        (∀ k, k < 4 → msgAt t.mem (4 * m + k) = some (v.extractLsb' (8 * k) 8)) ∧
        SameBytesOutside s t (0x800 + 4 * m) 4) ∧
    (∀ b0 b1 b2 b3 : Byte, msgAt s.mem (4 * m) = some b0 → msgAt s.mem (4 * m + 1) = some b1 →
      msgAt s.mem (4 * m + 2) = some b2 → msgAt s.mem (4 * m + 3) = some b3 →
      memRead s (.rel (0x800 + 4 * m)) 4 = .next (b3 ++ b2 ++ b1 ++ b0, s)) ∧
    (∀ b0 b1 b2 b3 : Byte, s.status.busy = false → outAt s.mem (4 * m) = some b0 →
      outAt s.mem (4 * m + 1) = some b1 → outAt s.mem (4 * m + 2) = some b2 → outAt s.mem (4 * m + 3) = some b3 →
      memRead s (.rel (0xC00 + 4 * m)) 4 = .next (b3 ++ b2 ++ b1 ++ b0, s))

/-- R33: word `w` of `S` is half `w mod 2` of lane `w div 2`, whether or not the other half is written; a write
sets the word's four bytes and leaves the other half; a lane is its two words; and byte `k` of the state is at
offset `0x100 + k`. -/
def Obligations.KeccakWordsAreHalfLanes : Prop :=
  ∀ (s : State),
    (∀ (w : Nat) (v : Word), w < 50 → s.status.busy = false →
      ∃ t, memWrite s (.rel (0x100 + 4 * w)) 4 v = .next t ∧ t = { s with mem := t.mem } ∧
        (∀ k, k < 4 → readByte t.mem (0x100 + 4 * w + k) = some (v.extractLsb' (8 * k) 8)) ∧
        SameBytesOutside s t (0x100 + 4 * w) 4 ∧
        memRead t (.rel (0x100 + 4 * w)) 4 = .next (v, t) ∧
        ∀ L : Lane, laneAt s.mem (w / 2) = some L →
          laneAt t.mem (w / 2) =
            some (if w % 2 = 0 then L.extractLsb' 32 32 ++ v else v ++ L.extractLsb' 0 32)) ∧
    (∀ (w : Nat) (b0 b1 b2 b3 : Byte), w < 50 → s.status.busy = false →
      readByte s.mem (0x100 + 4 * w) = some b0 → readByte s.mem (0x100 + 4 * w + 1) = some b1 →
      readByte s.mem (0x100 + 4 * w + 2) = some b2 → readByte s.mem (0x100 + 4 * w + 3) = some b3 →
      memRead s (.rel (0x100 + 4 * w)) 4 = .next (b3 ++ b2 ++ b1 ++ b0, s)) ∧
    (∀ (w : Nat) (L : Lane), w < 50 → s.status.busy = false → laneAt s.mem (w / 2) = some L →
      memRead s (.rel (0x100 + 4 * w)) 4 = .next (L.extractLsb' (32 * (w % 2)) 32, s)) ∧
    (∀ (i : Nat) (lo hi : Word), i < 25 → readWord s.mem (0x100 + 8 * i) = some lo →
      readWord s.mem (0x100 + 8 * i + 4) = some hi → laneAt s.mem i = some (hi ++ lo)) ∧
    (∀ (k : Nat) (L : Lane), k < 200 → laneAt s.mem (k / 8) = some L →
      readByte s.mem (0x100 + k) = some (L.extractLsb' (8 * (k % 8)) 8))

/-- R34: word `m` of bank `b` holds coefficient `2m` in bits 15:0 and `2m+1` in bits 31:16, each 16-bit
two's complement. -/
def Obligations.BankWordsAreCoefficientPairs : Prop :=
  ∀ (s : State) (b : Fin 8) (m : Nat), m < 128 → s.status.busy = false →
    (∀ v : Word, ∃ t, memWrite s (.rel (0x1000 + 0x200 * b.val + 4 * m)) 4 v = .next t ∧
      t = { s with mem := t.mem } ∧ SameBytesOutside s t (0x1000 + 0x200 * b.val + 4 * m) 4 ∧
      coefAt t.mem b (2 * m) = some (v.extractLsb' 0 16).toInt ∧
      coefAt t.mem b (2 * m + 1) = some (v.extractLsb' 16 16).toInt) ∧
    (∀ c0 c1 : Int, coefAt s.mem b (2 * m) = some c0 → coefAt s.mem b (2 * m + 1) = some c1 →
      memRead s (.rel (0x1000 + 0x200 * b.val + 4 * m)) 4 = .next (BitVec.ofInt 16 c1 ++ BitVec.ofInt 16 c0, s))

/-- While BUSY = 1 a read of `S`, `OUT`, `P`, RES0 or RES1 is a draw, fresh at every read, and reads of
STATUS, CMD, MSGLEN, OUTLEN, ARG0 to ARG2, `MSG`, the ROMs and reserved offsets are exact (R115). That a draw is
the free value numbered by a counter, which it advances, is the model's (notes/assumptions/5.md). -/
def Obligations.ReadsWhileBusy : Prop :=
  ∀ (s : State) (off : Nat), s.status.busy = true → off % 4 = 0 →
    ((0x100 ≤ off ∧ off < 0x1C8) ∨ (0xC00 ≤ off ∧ off < 0x2000) ∨ off = 0x020 ∨ off = 0x024 →
      memRead s (.rel off) 4 = .next (Config.freeWord s.draws, { s with draws := s.draws + 1 })) ∧
    (off = 0x000 → memRead s (.rel off) 4 = .next (s.cmdLast, s)) ∧
    (off = 0x004 → memRead s (.rel off) 4 = .next (statusWord s.status, s)) ∧
    (off = 0x008 → memRead s (.rel off) 4 = .next (s.msgLen, s)) ∧
    (off = 0x00C → memRead s (.rel off) 4 = .next (s.outLen, s)) ∧
    (off = 0x010 → memRead s (.rel off) 4 = .next (s.arg0, s)) ∧
    (off = 0x014 → memRead s (.rel off) 4 = .next (s.arg1, s)) ∧
    (off = 0x018 → memRead s (.rel off) 4 = .next (s.arg2, s)) ∧
    (∀ v, 0x800 ≤ off ∧ off < 0xC00 → readWord s.mem off = some v → memRead s (.rel off) 4 = .next (v, s)) ∧
    (0x200 ≤ off ∧ off < 0x400 → memRead s (.rel off) 4 = .next (BitVec.ofNat 32 (ZETA ((off - 0x200) / 4)), s)) ∧
    (0x400 ≤ off ∧ off < 0x4C0 →
      memRead s (.rel off) 4 = .next ((RC ((off - 0x400) / 8)).extractLsb' (32 * ((off - 0x400) / 4 % 2)) 32, s)) ∧
    (0x500 ≤ off ∧ off < 0x564 → memRead s (.rel off) 4 = .next (BitVec.ofNat 32 (RHO ((off - 0x500) / 4)), s)) ∧
    (off = 0x01C ∨ (0x028 ≤ off ∧ off < 0x100) ∨ (0x1C8 ≤ off ∧ off < 0x200) ∨ (0x4C0 ≤ off ∧ off < 0x500) ∨
        (0x564 ≤ off ∧ off < 0x800) →
      memRead s (.rel off) 4 = .next (0#32, s))

/-- R114: while BUSY = 1 a write of `S`, `MSG` or `P` faults; writes of MSGLEN, OUTLEN and ARG0 to ARG2 are
allowed and leave the pending command; a STATUS write clears as usual. Writes of ROMs, `OUT`, RES0, RES1 and
reserved offsets are ignored at any time. -/
def Obligations.WritesWhileBusy : Prop :=
  ∀ (s : State) (off : Nat) (v : Word), off % 4 = 0 →
    (s.status.busy = true →
      ((0x100 ≤ off ∧ off < 0x1C8) ∨ (0x800 ≤ off ∧ off < 0xC00) ∨ (0x1000 ≤ off ∧ off < 0x2000) →
        memWrite s (.rel off) 4 v = .fault .writeWhileBusy) ∧
      (off = 0x008 → memWrite s (.rel off) 4 v = .next { s with msgLen := v }) ∧
      (off = 0x00C → memWrite s (.rel off) 4 v = .next { s with outLen := v }) ∧
      (off = 0x010 → memWrite s (.rel off) 4 v = .next { s with arg0 := v }) ∧
      (off = 0x014 → memWrite s (.rel off) 4 v = .next { s with arg1 := v }) ∧
      (off = 0x018 → memWrite s (.rel off) 4 v = .next { s with arg2 := v }) ∧
      (off = 0x004 → ∃ t, memWrite s (.rel off) 4 v = .next t ∧ t = { s with status := t.status } ∧
        t.status.busy = true ∧ statusWord t.status = statusWord s.status &&& ~~~(v &&& 0x0000001E#32))) ∧
    ((0x200 ≤ off ∧ off < 0x4C0) ∨ (0x500 ≤ off ∧ off < 0x564) ∨ (0xC00 ≤ off ∧ off < 0x1000) ∨ off = 0x020 ∨
        off = 0x024 ∨ off = 0x01C ∨ (0x028 ≤ off ∧ off < 0x100) ∨ (0x1C8 ≤ off ∧ off < 0x200) ∨
        (0x4C0 ≤ off ∧ off < 0x500) ∨ (0x564 ≤ off ∧ off < 0x800) →
      memWrite s (.rel off) 4 v = .next s)

/-- An access of another width, or of an address that is no multiple of 4, has no step (R106, R30, R31); nor
has one outside the window, which is no access to the block (R28). Refusing the last is the model's reading
(notes/assumptions/16.md), and so is the name an access that breaks several rules is refused under
(notes/assumptions/20.md). An absolute address `BASE + off` is the access of `off` (R26, R37). -/
def Obligations.RefusedAccesses : Prop :=
  ∀ (s : State) (x : HostValue) (t : Nat),
    (∀ (a : HostAddr) (width : Nat), width ≠ 4 →
      hostLineStep s (.read a width t) = .refused .accessWidth ∧
      hostLineStep s (.write a width x) = .refused .accessWidth) ∧
    (∀ off, off % 4 ≠ 0 →
      hostLineStep s (.read (.rel off) 4 t) = .refused .misaligned ∧
      hostLineStep s (.write (.rel off) 4 x) = .refused .misaligned ∧
      hostLineStep s (.read (.abs (Config.base + off)) 4 t) = .refused .misaligned ∧
      hostLineStep s (.write (.abs (Config.base + off)) 4 x) = .refused .misaligned) ∧
    (∀ addr, addr % 4 ≠ 0 →
      hostLineStep s (.read (.abs addr) 4 t) = .refused .misaligned ∧
      hostLineStep s (.write (.abs addr) 4 x) = .refused .misaligned) ∧
    (∀ off, off % 4 = 0 → 0x2000 ≤ off →
      hostLineStep s (.read (.rel off) 4 t) = .refused .outsideWindow ∧
      hostLineStep s (.write (.rel off) 4 x) = .refused .outsideWindow) ∧
    (∀ addr, addr % 4 = 0 → addr < Config.base ∨ Config.base + 0x2000 ≤ addr →
      hostLineStep s (.read (.abs addr) 4 t) = .refused .outsideWindow ∧
      hostLineStep s (.write (.abs addr) 4 x) = .refused .outsideWindow) ∧
    (∀ (off width : Nat) (v : Word),
      memRead s (.abs (Config.base + off)) width = memRead s (.rel off) width ∧
      memWrite s (.abs (Config.base + off)) width v = memWrite s (.rel off) width v)

/-- "Reads have no side effects anywhere in the window" (R36): the block's state after a read is the state
before it. -/
def Obligations.ReadsHaveNoSideEffects : Prop :=
  ∀ (s t : State) (a : HostAddr) (width : Nat) (v : Word), memRead s a width = .next (v, t) →
    SameBlock s t ∧ t.host = s.host

/-- A read of `S`, `OUT` or `P` while idle, and of `MSG` at any time, faults exactly when a byte of the word
was never written (R24, R37). -/
def Obligations.UnwrittenReadsFault : Prop :=
  ∀ (s : State) (off : Nat), off % 4 = 0 →
    (0x800 ≤ off ∧ off < 0xC00) ∨
      (s.status.busy = false ∧ ((0x100 ≤ off ∧ off < 0x1C8) ∨ (0xC00 ≤ off ∧ off < 0x2000))) →
    (memRead s (.rel off) 4 = .fault .unwrittenRead ↔ ∃ k, k < 4 ∧ readByte s.mem (off + k) = none) ∧
    ((∀ k, k < 4 → written s.mem (off + k) = true) → ∃ v, memRead s (.rel off) 4 = .next (v, s))

/-! ### Keccak and the sponge -/

/-- KECCAK_F on a written state: `S <- KeccakF(S)`, and nothing else but BUSY, DONE and ENG (R62). -/
def Obligations.KeccakFCommandPermutes : Prop :=
  ∀ (s : State) (A : KState), (∀ i (h : i < 25), laneAt s.mem i = some A[i]) →
    ∃ t, exec .keccakF s = .next t ∧
      (∀ i (h : i < 25), laneAt t.mem i = some (keccakF A)[i]) ∧
      SameBytesOutside s t keccakBase 200 ∧ SameControl s t ∧ SameResults s t ∧ Finished t

/-- STATE_CLEAR in every state: all lanes are 0 and written, and nothing else changes but BUSY, DONE and
ENG (R63). -/
def Obligations.StateClearCommandZeroes : Prop :=
  ∀ s : State, ∃ t, exec .stateClear s = .next t ∧
    (∀ i, i < 25 → laneAt t.mem i = some 0#64) ∧
    SameBytesOutside s t keccakBase 200 ∧ SameControl s t ∧ SameResults s t ∧ Finished t

/-- R9: bit `j` of `rotl64(v, n)` is bit `(j − n) mod 64` of `v`. R57 to R61: the four step mappings, lane by lane; the map of R58 reaches every position; a round is the four
in their order, and the permutation is rounds 0 to 23, each applied to the previous round's output. -/
def Obligations.KeccakStepMappings : Prop :=
  (∀ (v : Lane) (n j : Nat), n < 64 → j < 64 → (rotl64 v n).getLsbD j = v.getLsbD ((j + 64 - n) % 64)) ∧
  (∀ (A : KState) (x y : Nat), x < 5 → y < 5 →
    laneOf (theta A) (5 * y + x) = laneOf A (5 * y + x) ^^^
      ((laneOf A ((x + 4) % 5) ^^^ laneOf A ((x + 4) % 5 + 5) ^^^ laneOf A ((x + 4) % 5 + 10) ^^^
          laneOf A ((x + 4) % 5 + 15) ^^^ laneOf A ((x + 4) % 5 + 20)) ^^^
        rotl64 (laneOf A ((x + 1) % 5) ^^^ laneOf A ((x + 1) % 5 + 5) ^^^ laneOf A ((x + 1) % 5 + 10) ^^^
          laneOf A ((x + 1) % 5 + 15) ^^^ laneOf A ((x + 1) % 5 + 20)) 1)) ∧
  (∀ (A : KState) (x y : Nat), x < 5 → y < 5 →
    laneOf (rhoPi A) (y + 5 * ((2 * x + 3 * y) % 5)) = rotl64 (laneOf A (x + 5 * y)) (RHO (x + 5 * y))) ∧
  (∀ j, j < 25 → ∃ x y, x < 5 ∧ y < 5 ∧ j = y + 5 * ((2 * x + 3 * y) % 5)) ∧
  (∀ (B : KState) (x y : Nat), x < 5 → y < 5 →
    laneOf (chi B) (5 * y + x) =
      laneOf B (5 * y + x) ^^^ (~~~(laneOf B (5 * y + (x + 1) % 5)) &&& laneOf B (5 * y + (x + 2) % 5))) ∧
  (∀ (A : KState) (r i : Nat), i < 25 →
    laneOf (iota A r) i = if i = 0 then laneOf A 0 ^^^ RC r else laneOf A i) ∧
  (∀ (A : KState) (r : Nat), keccakRound A r = iota (chi (rhoPi (theta A))) r) ∧
  (∀ A : KState, ∃ f : Nat → KState, f 0 = A ∧ (∀ r, r < 24 → f (r + 1) = iota (chi (rhoPi (theta (f r)))) r) ∧
    keccakF A = f 24)

/-- R65: byte `k` of the state is byte `k mod 8` of lane `k div 8`, and `XorByte` changes that byte only; XORing
a block in, as R66 and R67 do, XORs byte `k` of the block into byte `k` of the state and leaves all others. -/
def Obligations.StateBytesAndXorByte : Prop :=
  (∀ (A : KState) (k j : Nat) (v : Byte), k < 200 → j < 200 →
    stateByte A k = (laneOf A (k / 8)).extractLsb' (8 * (k % 8)) 8 ∧
    stateByte (xorByte A k v) j = if j = k then stateByte A k ^^^ v else stateByte A j) ∧
  (∀ (A : KState) (F : List Byte) (k : Nat), F.length ≤ 200 → k < 200 →
    stateByte (xorBlock A F) k = if k < F.length then stateByte A k ^^^ F.getD k 0#8 else stateByte A k)

/-- R66: absorbing takes one block and one permutation at a time while a whole block is left, and what is
left is the tail. -/
def Obligations.AbsorbTakesWholeBlocks : Prop :=
  ∀ (r : Nat) (M : List Byte) (A : KState), 0 < r →
    (M.length < r → absorb r M A = A ∧ absorbTail r M = M) ∧
    (r ≤ M.length →
      absorb r M A = absorb r (M.drop r) (keccakF (xorBlock A (M.take r))) ∧
      absorbTail r M = absorbTail r (M.drop r))

/-- The final block (R67): the tail, zero-filled, the pad byte XORed in after it and 0x80 XORed into the last
byte; the two meet in one byte when the tail has `r − 1` bytes. -/
def Obligations.PadBlockLayout : Prop :=
  ∀ (r : Nat) (pad : Byte) (T : List Byte), T.length < r →
    (padBlock r pad T).length = r ∧
    ∀ k, k < r → (padBlock r pad T)[k]? =
      some (T.getD k 0#8 ^^^ (if k = T.length then pad else 0#8) ^^^ (if k = r - 1 then 0x80#8 else 0#8))

/-- Every sponge starts from the zero state, absorbs, XORs the padded tail in and permutes once more (R67, R70).
SHA3_256 and SHA3_512 on a written message of a legal length: the first 32 or 64 bytes of that state go to `OUT`,
the state stays in `S`, and nothing else changes (R68, R70, R71, R72, R76). -/
def Obligations.Sha3CommandsHash : Prop :=
  (∀ (r : Nat) (pad : Byte) (M : List Byte),
    absorbAll r pad M =
      keccakF (xorBlock (absorb r M (Vector.replicate 25 0#64)) (padBlock r pad (absorbTail r M)))) ∧
  ∀ (i : Instr) (r n : Nat), (i = .sha3_256 ∧ r = 136 ∧ n = 32) ∨ (i = .sha3_512 ∧ r = 72 ∧ n = 64) →
  ∀ (s : State) (snap : Snapshot) (M : List Byte), s.eng = .pending i snap →
    M.length = snap.msgLen.toNat → snap.msgLen.toNat ≤ 1024 →
    (∀ k, k < M.length → msgAt s.mem k = M[k]?) →
    ∃ t, exec i s = .next t ∧
      (∀ j, j < n → outAt t.mem j = some (stateByte (absorbAll r 0x06#8 M) j)) ∧
      (∀ j (h : j < 25), laneAt t.mem j = some (absorbAll r 0x06#8 M)[j]) ∧
      (∀ a, ¬(keccakBase ≤ a ∧ a < keccakBase + 200) → ¬(outBase ≤ a ∧ a < outBase + n) →
        readByte t.mem a = readByte s.mem a) ∧
      SameControl s t ∧ SameResults s t ∧ Finished t

/-- SHAKE128 and SHAKE256 on a written message and a legal OUTLEN, from the state that `Sha3CommandsHash` says
`absorbAll` gives: byte `j` of the output is byte `j mod r` of
the state after `j div r` further permutations, the state the last chunk was read from stays in `S`, and
nothing else changes (R69, R70, R73, R74, R76). -/
def Obligations.ShakeCommandsHash : Prop :=
  ∀ (i : Instr) (r : Nat), (i = .shake128 ∧ r = 168) ∨ (i = .shake256 ∧ r = 136) →
  ∀ (s : State) (snap : Snapshot) (M : List Byte), s.eng = .pending i snap →
    M.length = snap.msgLen.toNat → snap.msgLen.toNat ≤ 1024 → snap.outLen.toNat ≤ 1024 →
    (∀ k, k < M.length → msgAt s.mem k = M[k]?) →
    ∃ t, exec i s = .next t ∧
      (∀ j, j < snap.outLen.toNat →
        outAt t.mem j = some (stateByte (keccakF^[j / r] (absorbAll r 0x1F#8 M)) (j % r))) ∧
      (∀ j (h : j < 25),
        laneAt t.mem j = some (keccakF^[(snap.outLen.toNat - 1) / r] (absorbAll r 0x1F#8 M))[j]) ∧
      (∀ a, ¬(keccakBase ≤ a ∧ a < keccakBase + 200) → ¬(outBase ≤ a ∧ a < outBase + snap.outLen.toNat) →
        readByte t.mem a = readByte s.mem a) ∧
      SameControl s t ∧ SameResults s t ∧ Finished t

/-- A longer SHAKE output extends a shorter one (R69). -/
def Obligations.LongerShakeOutputExtends : Prop :=
  ∀ (r n m : Nat) (A : KState), 0 < r → n ≤ m →
    (squeezeShake r n A).1 = (squeezeShake r m A).1.take n

/-! ### Scalar commands -/

/-- BARRETT in every state: `RES0 <- a − floor(20159·a / 2^26)·3329` sign-extended, `a` the low half of the
snapshot's ARG0; RES1, every other register and flag, and the data memory stay (R78, R84). -/
def Obligations.BarrettCommandResult : Prop :=
  ∀ (s : State) (snap : Snapshot) (a : Int), s.eng = .pending .barrett snap →
    a = (snap.arg0.extractLsb' 0 16).toInt →
    ∃ t, exec .barrett s = .next t ∧ t.res0 = BitVec.ofInt 32 (a - 20159 * a / 2 ^ 26 * 3329) ∧
      t.res1 = s.res1 ∧ SameBytes s t ∧ SameControl s t ∧ Finished t

/-- MONTGOMERY in every state: `u` is `a·62209 mod 2^16` as a signed 16-bit value and RES0 is
`s16((a − u·3329) / 2^16)`, `a` the snapshot's ARG0; all else stays (R79, R80, R84). -/
def Obligations.MontgomeryCommandResult : Prop :=
  ∀ (s : State) (snap : Snapshot) (a u : Int), s.eng = .pending .montgomery snap →
    a = snap.arg0.toInt → u = wrap16 (a * 62209) →
    ∃ t, exec .montgomery s = .next t ∧ t.res0 = BitVec.ofInt 32 (wrap16 ((a - u * 3329) / 65536)) ∧
      t.res1 = s.res1 ∧ SameBytes s t ∧ SameControl s t ∧ Finished t

/-- CSUBQ in every state: RES0 is `a` if `0 ≤ a < 3329`, else `s16(a − 3329)`; all else stays (R81, R84). -/
def Obligations.CsubqCommandResult : Prop :=
  ∀ (s : State) (snap : Snapshot) (a : Int), s.eng = .pending .csubq snap →
    a = (snap.arg0.extractLsb' 0 16).toInt →
    ∃ t, exec .csubq s = .next t ∧
      t.res0 = BitVec.ofInt 32 (if 0 ≤ a ∧ a < 3329 then a else wrap16 (a - 3329)) ∧
      t.res1 = s.res1 ∧ SameBytes s t ∧ SameControl s t ∧ Finished t

/-- BUTTERFLY in every state: with `t = ZETA[k]·b mod Q`, RES0 is `(a + t) mod Q` and RES1 is
`(a + Q − t) mod Q`; all else stays (R82, R83, R84). -/
def Obligations.ButterflyCommandResult : Prop :=
  ∀ (s : State) (snap : Snapshot) (a b z : Int), s.eng = .pending .butterfly snap →
    a = (snap.arg0.extractLsb' 0 16).toInt → b = (snap.arg1.extractLsb' 0 16).toInt →
    z = ZETA (snap.arg2.extractLsb' 0 7).toNat →
    ∃ t, exec .butterfly s = .next t ∧ t.res0 = BitVec.ofInt 32 ((a + z * b % 3329) % 3329) ∧
      t.res1 = BitVec.ofInt 32 ((a + 3329 - z * b % 3329) % 3329) ∧
      SameBytes s t ∧ SameControl s t ∧ Finished t

/-- R77, over all 16-bit inputs: the floor variant is the hardware's; its result is congruent to `a`, is
`a mod Q` for `a ≥ 0`, lies in [0, Q] for `a < 0` and is Q exactly at the nine negative multiples; it is the
identity on [0, Q); and the round variant lies in [−1664, 1664]. -/
def Obligations.BarrettReduces : Prop :=
  ∀ a : Int, -32768 ≤ a → a ≤ 32767 →
    barrett a = barrettWith .floor a ∧
    barrettWith .floor a = wrap16 (a - 20159 * a / 2 ^ 26 * 3329) ∧
    barrettWith .round a = wrap16 (a - (20159 * a + 2 ^ 25) / 2 ^ 26 * 3329) ∧
    (barrett a - a) % 3329 = 0 ∧ (0 ≤ a → barrett a = a % 3329) ∧
    (a < 0 → 0 ≤ barrett a ∧ barrett a ≤ 3329) ∧
    (barrett a = 3329 ↔ ∃ m, 1 ≤ m ∧ m ≤ 9 ∧ a = -3329 * m) ∧
    (0 ≤ a ∧ a < 3329 → barrett a = a) ∧
    -1664 ≤ barrettWith .round a ∧ barrettWith .round a ≤ 1664

/-- The laws of R79: the division is exact; for `−Q·2^15 ≤ a < Q·2^15` the result lies in (−Q, Q) and is
congruent to `a·2^−16`, with `2^−16 ≡ 169`; outside it the congruence can fail. R79's example `2^31 − 1` gives
32599, which happens to be congruent (notes/assumptions/21.md); `2^31 − 10` is one that is not. -/
def Obligations.MontgomeryReduces : Prop :=
  (∀ a : Int, (a - wrap16 (a * 62209) * 3329) % 65536 = 0) ∧
  (∀ a : Int, -3329 * 2 ^ 15 ≤ a → a < 3329 * 2 ^ 15 →
    -3329 < montgomery a ∧ montgomery a < 3329 ∧ (montgomery a * 2 ^ 16 - a) % 3329 = 0 ∧
    (montgomery a - a * 169) % 3329 = 0) ∧
  montgomery (2 ^ 31 - 1) = 32599 ∧ (montgomery (2 ^ 31 - 10) - (2 ^ 31 - 10) * 169) % 3329 ≠ 0

/-- The butterfly's two results are in [0, Q) for every input and are `a ± zeta·b` mod Q (R82). -/
def Obligations.ButterflyAddsAndSubtracts : Prop :=
  ∀ a b zeta : Int,
    0 ≤ (butterfly a b zeta).1 ∧ (butterfly a b zeta).1 < 3329 ∧
    0 ≤ (butterfly a b zeta).2 ∧ (butterfly a b zeta).2 < 3329 ∧
    ((butterfly a b zeta).1 - (a + zeta * b)) % 3329 = 0 ∧
    ((butterfly a b zeta).2 - (a - zeta * b)) % 3329 = 0

/-! ### Polynomial commands -/

/-- NTT on a written bank: `P[D] <- ntt(P[D])`, and nothing else but BUSY, DONE and ENG (R87). What `ntt` computes
is `NttLevelsTransform`. -/
def Obligations.NttCommandTransforms : Prop :=
  ∀ (s : State) (d : Fin 8) (p : Poly), (∀ j (h : j < 256), coefAt s.mem d j = some p[j]) →
    ∃ t, exec (.ntt d) s = .next t ∧ (∀ j (h : j < 256), coefAt t.mem d j = some (ntt p)[j]) ∧
      SameBytesOutside s t (bankBase d) 512 ∧ SameControl s t ∧ SameResults s t ∧ Finished t

/-- The transform, coefficient by coefficient (R86): seven levels `m = 0 .. 6` of spans `l = 2^(7−m)`, each level
reading the level before it. Block `b` of level `m` starts at `2lb` and takes zeta `ZETA[2^m + b]`; with
`t = zeta · c[j+l] mod Q` it puts `(c[j] + t) mod Q` at `j` and `(c[j] + Q − t) mod Q` at `j + l`. Then every
coefficient is Barrett-reduced. -/
def Obligations.NttLevelsTransform : Prop :=
  ∀ p : Poly, ∃ f : Nat → Poly, f 0 = p ∧
    (∀ m l b j : Nat, m < 7 → l = 2 ^ (7 - m) → b < 2 ^ m → j < l →
      coef (f (m + 1)) (2 * l * b + j) =
        (coef (f m) (2 * l * b + j) + (ZETA (2 ^ m + b) : Int) * coef (f m) (2 * l * b + j + l) % 3329) % 3329 ∧
      coef (f (m + 1)) (2 * l * b + j + l) =
        (coef (f m) (2 * l * b + j) + 3329 - (ZETA (2 ^ m + b) : Int) * coef (f m) (2 * l * b + j + l) % 3329) % 3329) ∧
    ∀ j, j < 256 → coef (ntt p) j = barrett (coef (f 7) j)

/-- Every output of the transform is in [0, Q), whatever the inputs (R86). -/
def Obligations.NttOutputsAreReduced : Prop :=
  ∀ (p : Poly) (j : Nat) (h : j < 256), 0 ≤ (ntt p)[j] ∧ (ntt p)[j] < 3329

/-- "adding a multiple of Q to any input coefficient does not change the output" (R87). -/
def Obligations.NttSeesOnlyResidues : Prop :=
  ∀ p p' : Poly, (∀ j (h : j < 256), (p[j] - p'[j]) % 3329 = 0) → ntt p = ntt p'

/-- BASEMUL on written banks, aliased or not: group `g` of four coefficients is two products modulo
`X² − z` and `X² − (Q − z)`, `z = ZETA[64 + g]`; nothing else changes but BUSY, DONE and ENG (R88, R89, R94). -/
def Obligations.BasemulCommandMultiplies : Prop :=
  ∀ (s : State) (d ra rb : Fin 8) (a b : Nat → Int),
    (∀ j, j < 256 → coefAt s.mem ra j = some (a j)) → (∀ j, j < 256 → coefAt s.mem rb j = some (b j)) →
    ∃ t, exec (.basemul d ra rb) s = .next t ∧
      (∀ g, g < 64 → ∀ o zz, (o = 4 * g ∧ zz = (ZETA (64 + g) : Int)) ∨
          (o = 4 * g + 2 ∧ zz = (3329 - (ZETA (64 + g) : Int)) % 3329) →
        coefAt t.mem d o = some ((a o * b o + zz * a (o + 1) * b (o + 1)) % 3329) ∧
        coefAt t.mem d (o + 1) = some ((a (o + 1) * b o + a o * b (o + 1)) % 3329)) ∧
      SameBytesOutside s t (bankBase d) 512 ∧ SameControl s t ∧ SameResults s t ∧ Finished t

/-- PADD, PSUB and PREDUCE on written banks, aliased or not: lane `j` is `s16(a + b)`, `s16(a − b + Q)` and
`a − floor(20159·a / 2^26)·Q`; nothing else changes but BUSY, DONE and ENG (R90, R91, R92, R94). -/
def Obligations.ElementwiseCommandsCompute : Prop :=
  ∀ (s : State) (d ra rb : Fin 8) (a b : Nat → Int),
    (∀ j, j < 256 → coefAt s.mem ra j = some (a j)) →
    ((∀ j, j < 256 → coefAt s.mem rb j = some (b j)) →
      (∃ t, exec (.padd d ra rb) s = .next t ∧ (∀ j, j < 256 → coefAt t.mem d j = some (wrap16 (a j + b j))) ∧
        SameBytesOutside s t (bankBase d) 512 ∧ SameControl s t ∧ SameResults s t ∧ Finished t) ∧
      (∃ t, exec (.psub d ra rb) s = .next t ∧
        (∀ j, j < 256 → coefAt t.mem d j = some (wrap16 (a j - b j + 3329))) ∧
        SameBytesOutside s t (bankBase d) 512 ∧ SameControl s t ∧ SameResults s t ∧ Finished t)) ∧
    (∃ t, exec (.preduce d ra) s = .next t ∧
      (∀ j, j < 256 → coefAt t.mem d j = some (a j - 20159 * a j / 2 ^ 26 * 3329)) ∧
      SameBytesOutside s t (bankBase d) 512 ∧ SameControl s t ∧ SameResults s t ∧ Finished t)

/-- R94's own cases: `PADD p, p, p` doubles the bank, and `PSUB p, p, p` sets every coefficient to Q. -/
def Obligations.AliasedBanksAreExact : Prop :=
  ∀ (s : State) (p : Fin 8) (a : Nat → Int), (∀ j, j < 256 → coefAt s.mem p j = some (a j)) →
    (∃ t, exec (.padd p p p) s = .next t ∧ ∀ j, j < 256 → coefAt t.mem p j = some (wrap16 (2 * a j))) ∧
    (∃ t, exec (.psub p p p) s = .next t ∧ ∀ j, j < 256 → coefAt t.mem p j = some 3329)

/-- Lane `j` of PADD, PSUB and PREDUCE depends only on lane `j` of the sources, and slot `i` of BASEMUL only on
slot `i` of the sources (R93): two runs that agree there agree there. -/
def Obligations.LanesAreIndependent : Prop :=
  ∀ (s1 s2 t1 t2 : State) (d ra rb : Fin 8),
    (∀ j, j < 256 → coefAt s1.mem ra j = coefAt s2.mem ra j → coefAt s1.mem rb j = coefAt s2.mem rb j →
      ((exec (.padd d ra rb) s1 = .next t1 ∧ exec (.padd d ra rb) s2 = .next t2) ∨
        (exec (.psub d ra rb) s1 = .next t1 ∧ exec (.psub d ra rb) s2 = .next t2)) →
      coefAt t1.mem d j = coefAt t2.mem d j) ∧
    (∀ j, j < 256 → coefAt s1.mem ra j = coefAt s2.mem ra j →
      exec (.preduce d ra) s1 = .next t1 → exec (.preduce d ra) s2 = .next t2 →
      coefAt t1.mem d j = coefAt t2.mem d j) ∧
    (∀ i, i < 128 →
      coefAt s1.mem ra (2 * i) = coefAt s2.mem ra (2 * i) → coefAt s1.mem ra (2 * i + 1) = coefAt s2.mem ra (2 * i + 1) →
      coefAt s1.mem rb (2 * i) = coefAt s2.mem rb (2 * i) → coefAt s1.mem rb (2 * i + 1) = coefAt s2.mem rb (2 * i + 1) →
      exec (.basemul d ra rb) s1 = .next t1 → exec (.basemul d ra rb) s2 = .next t2 →
      coefAt t1.mem d (2 * i) = coefAt t2.mem d (2 * i) ∧ coefAt t1.mem d (2 * i + 1) = coefAt t2.mem d (2 * i + 1))

/-- The ranges in which PADD and PSUB are exact (R121). -/
def Obligations.SumsInRangeAreExact : Prop :=
  ∀ a b : Int,
    (0 ≤ a → a ≤ 4 * 3329 → 0 ≤ b → b ≤ 4 * 3329 → paddLane a b = a + b ∧ paddLane a b ≤ 26632) ∧
    (0 ≤ a → a < 8 * 3329 → 0 ≤ b → b < 8 * 3329 →
      psubLane a b = a - b + 3329 ∧ -23302 ≤ psubLane a b ∧ psubLane a b ≤ 29960)

/-! ### The whole machine -/

/-- A pending command faults exactly when an element it reads was never written, with `UnwrittenRead`, and is
never refused; otherwise it completes (R105). -/
def Obligations.CommandsFaultExactlyOnUnwrittenOperands : Prop :=
  ∀ (s : State) (i : Instr) (snap : Snapshot), s.eng = .pending i snap → lengthsOk i snap = true →
    (operandUnwritten i snap s.mem → exec i s = .fault .unwrittenRead) ∧
    (¬ operandUnwritten i snap s.mem → ∃ t, exec i s = .next t)

/-- No command writes `MSG`, sets or clears an error flag, or changes a register but RES0 and RES1; every
command ends with BUSY = 0, DONE = 1, ENG = IDLE (R76 (c), R97, R98). -/
def Obligations.CommandsTouchOnlyResults : Prop :=
  ∀ (i : Instr) (s t : State), exec i s = .next t →
    (∀ k, msgAt t.mem k = msgAt s.mem k) ∧ SameControl s t ∧ Finished t

/-- R96: a pending command reads its scalar operands and lengths from its snapshot only: writing ARG0 to ARG2,
MSGLEN and OUTLEN while it is pending changes those registers and nothing the command does. -/
def Obligations.SnapshotShieldsPendingCommand : Prop :=
  ∀ (s : State) (i : Instr) (snap : Snapshot) (a0 a1 a2 m o : Word), s.eng = .pending i snap →
    (∀ t, exec i s = .next t →
      exec i { s with arg0 := a0, arg1 := a1, arg2 := a2, msgLen := m, outLen := o } =
        .next { t with arg0 := a0, arg1 := a1, arg2 := a2, msgLen := m, outLen := o }) ∧
    (∀ f, exec i s = .fault f →
      exec i { s with arg0 := a0, arg1 := a1, arg2 := a2, msgLen := m, outLen := o } = .fault f)

/-- The invariant holds after reset. -/
def Obligations.ResetMeetsInvariant : Prop := State.reset.Inv

/-- Every step keeps the invariant: canonical memory inside the data regions with whole elements, ENG pending
exactly while BUSY = 1, DONE = 0 while BUSY = 1, and a pending command's lengths checked (R13, R24, R27, R75, R95). -/
def Obligations.StepKeepsInvariant : Prop :=
  ∀ s t : State, s.Inv → step s = .next t → t.Inv

/-- R109: the state after reset; no byte of `S`, `MSG`, `OUT` or `P` is written, and the ROMs hold their
constants. -/
def Obligations.ResetState : Prop :=
  State.reset.eng = .idle ∧ statusWord State.reset.status = 0#32 ∧ State.reset.cmdLast = 0#32 ∧
  State.reset.msgLen = 0#32 ∧ State.reset.outLen = 0#32 ∧ State.reset.arg0 = 0#32 ∧ State.reset.arg1 = 0#32 ∧
  State.reset.arg2 = 0#32 ∧ State.reset.res0 = 0#32 ∧ State.reset.res1 = 0#32 ∧
  (∀ a, readByte State.reset.mem a = none) ∧
  (∀ k, k < 128 → memRead State.reset (.rel (0x200 + 4 * k)) 4 = .next (BitVec.ofNat 32 (ZETA k), State.reset)) ∧
  (∀ r, r < 24 →
    memRead State.reset (.rel (0x400 + 8 * r)) 4 = .next ((RC r).extractLsb' 0 32, State.reset) ∧
    memRead State.reset (.rel (0x400 + 8 * r + 4)) 4 = .next ((RC r).extractLsb' 32 32, State.reset)) ∧
  (∀ i, i < 25 → memRead State.reset (.rel (0x500 + 4 * i)) 4 = .next (BitVec.ofNat 32 (RHO i), State.reset))

/-- R110: a reset event discards a pending command and leaves the block in the state of R109; where it falls
among the host's lines is the model's (notes/assumptions/9.md). -/
def Obligations.ResetEventDiscardsPendingCommand : Prop :=
  ∀ s : State, hostLine s = some .reset → s.eng = .idle ∨ s.wait ≠ 0 →
    ∃ t, step s = .next t ∧ SameBlock State.reset t ∧ t.host.program = s.host.program ∧
      t.host.line = s.host.line + 1

/-- Error flags are sticky (R102, R15): a step clears one only by a STATUS write with that bit set, or by the
reset event. -/
def Obligations.ErrorFlagsAreSticky : Prop :=
  ∀ s t : State, step s = .next t →
    ∀ bit, (bit = 2 ∧ s.status.errIllegal = true ∧ t.status.errIllegal = false) ∨
        (bit = 3 ∧ s.status.errLen = true ∧ t.status.errLen = false) ∨
        (bit = 4 ∧ s.status.errBusy = true ∧ t.status.errBusy = false) →
      hostLine s = some .reset ∨
      ∃ a width v, hostLine s = some (.write a width v) ∧ accessOffset a width = .ok 0x004 ∧
        (hostValue s.host v).getLsbD bit = true

/-- `ENG` moves from IDLE to PENDING only by an accepted CMD write, and from PENDING only by the command's own
step or the reset event (R13). -/
def Obligations.EngineStateMoves : Prop :=
  ∀ s t : State, s.Inv → step s = .next t →
    (s.eng = .idle → t.eng ≠ .idle →
      ∃ a width v i, hostLine s = some (.write a width v) ∧ accessOffset a width = .ok 0x000 ∧
        decode (hostValue s.host v) = .command i ∧ t.eng = .pending i (liveSnapshot s)) ∧
    (∀ i snap, s.eng = .pending i snap → t.eng ≠ s.eng → exec i s = .next t ∨ hostLine s = some .reset)

/-- While a command is pending the machine is never refused a step: a host at its end, or at a line that has no
step, gives the engine its turn. In a state of the invariant the command's own step, whatever its outcome, is
taken after at most `wait` host steps, unless the reset event comes first or a host step faults first and so ends
the run (R118's fairness in the model's schedule, notes/assumptions/6.md). -/
def Obligations.PendingCommandIsStepped : Prop :=
  (∀ s : State, hostStopped s = true ↔
    hostLine s = none ∨ hostLine s = some .halt ∨ ∃ r, hostStep s = .refused r) ∧
  (∀ (s : State) (i : Instr) (snap : Snapshot) (r : Refusal), s.eng = .pending i snap → step s ≠ .refused r) ∧
  (∀ (s : State) (i : Instr) (snap : Snapshot), s.Inv → s.eng = .pending i snap →
    (∃ k u, k ≤ s.wait ∧ Reaches k s u ∧ u.eng = .pending i snap ∧
      (step u = exec i u ∨ hostLine u = some .reset)) ∨
    (∃ k u f, k < s.wait ∧ Reaches k s u ∧ u.eng = .pending i snap ∧ hostStopped u = false ∧
      step u = hostStep { u with wait := u.wait - 1 } ∧ step u = .fault f))

/-- Host programs (R52): a read goes to its variable, a write takes its value, a branch goes to its label or
on. The lines' form, and that a label is a line that goes on, are the model's (notes/assumptions/8.md), and so is
that HALT stays (notes/assumptions/10.md). -/
def Obligations.HostLinesRun : Prop :=
  ∀ s : State,
    (∀ a width x v t, memRead s a width = .next (v, t) →
      ∃ u, hostLineStep s (.read a width x) = .next u ∧ SameBlock s u ∧ u.host.line = s.host.line + 1 ∧
        varValue u.host x = v ∧ ∀ y, y ≠ x → varValue u.host y = varValue s.host y) ∧
    (∀ a width v t, memWrite s a width (hostValue s.host v) = .next t →
      hostLineStep s (.write a width v) = .next { t with host := { t.host with line := t.host.line + 1 } }) ∧
    (∀ c l, hostCond s.host c = false →
      hostLineStep s (.branch c l) = .next { s with host := { s.host with line := s.host.line + 1 } }) ∧
    (∀ c l, hostCond s.host c = true → HostLine.label l ∈ s.host.program →
      ∃ n, hostLineStep s (.branch c l) = .next { s with host := { s.host with line := n } } ∧
        s.host.program[n]? = some (.label l)) ∧
    (∀ l, hostLineStep s (.label l) = .next { s with host := { s.host with line := s.host.line + 1 } }) ∧
    hostLineStep s .halt = .next s

/-- A well-formed host program is never refused a step (R106, R30, R31, R52). -/
def Obligations.WellFormedProgramsAreNeverRefused : Prop :=
  ∀ s : State, programWf s.host.program = true → ∀ r, step s ≠ .refused r
end

