-- ==== Sys2Proof/Laws/Bits.lean ====
section
/-! SUPPORT. Laws of the widths, the byte order and `gather`. -/

namespace Sys2Proof.Machine

@[simp] theorem leBytes_length (n v : Nat) : (leBytes n v).length = n := by
  induction n generalizing v with
  | zero => rfl
  | succ n ih => simp [leBytes, ih]

/-- Byte `k` of a value is `v[8k+7:8k]`. -/
theorem leBytes_getElem? (n v k : Nat) :
    (leBytes n v)[k]? = if k < n then some (BitVec.ofNat 8 (v / 256 ^ k)) else none := by
  induction n generalizing v k with
  | zero => simp [leBytes]
  | succ n ih =>
    cases k with
    | zero => simp [leBytes]
    | succ k => simp [leBytes, ih, Nat.pow_succ', Nat.div_div_eq_div_mul]

theorem leValue_leBytes (n v : Nat) : leValue (leBytes n v) = v % 256 ^ n := by
  induction n generalizing v with
  | zero => simp [leBytes, leValue, Nat.mod_one]
  | succ n ih =>
    simp only [leBytes, leValue, ih, BitVec.toNat_ofNat, Nat.pow_succ' (m := 256)]
    exact (Nat.mod_mul (x := v) (a := 256) (b := 256 ^ n)).symm

theorem leValue_lt (bs : List Byte) : leValue bs < 256 ^ bs.length := by
  induction bs with
  | nil => simp [leValue]
  | cons b bs ih =>
    have hb := b.isLt
    simp only [leValue, List.length_cons, Nat.pow_succ']
    omega

theorem leBytes_leValue (bs : List Byte) : leBytes bs.length (leValue bs) = bs := by
  induction bs with
  | nil => rfl
  | cons b bs ih =>
    have hb : b.toNat < 256 := b.isLt
    have h1 : (b.toNat + 256 * leValue bs) / 256 = leValue bs := by omega
    simp only [List.length_cons, leBytes, leValue, h1, ih]
    congr 1
    apply BitVec.eq_of_toNat_eq
    simp only [BitVec.toNat_ofNat]
    omega

/-- `gather` answers exactly when every element is given, and then with those elements. -/
theorem gather_eq_some_iff {α : Type} {n : Nat} {f : Nat → Option α} {d : α} {v : Vector α n} :
    gather n f d = some v ↔ ∀ i (h : i < n), f i = some v[i] := by
  unfold gather
  constructor
  · intro h i hi
    split at h
    case isTrue hall =>
      simp only [List.all_eq_true, List.mem_range] at hall
      obtain ⟨x, hx⟩ := Option.isSome_iff_exists.mp (hall i hi)
      cases h
      simp [hx]
    case isFalse => cases h
  · intro h
    have hall : (List.range n).all (fun i => (f i).isSome) = true := by
      simp only [List.all_eq_true, List.mem_range]
      intro i hi
      simp [h i hi]
    rw [if_pos hall]
    congr 1
    ext i hi
    simp [h i hi]

theorem gather_eq_none_iff {α : Type} {n : Nat} {f : Nat → Option α} {d : α} :
    gather n f d = none ↔ ∃ i, i < n ∧ f i = none := by
  unfold gather
  split
  case isTrue hall =>
    simp only [List.all_eq_true, List.mem_range] at hall
    simp only [reduceCtorEq, false_iff, not_exists, not_and]
    intro i hi hn
    simpa [hn] using hall i hi
  case isFalse hall =>
    simp only [List.all_eq_true, List.mem_range, not_forall] at hall
    obtain ⟨i, hi, hn⟩ := hall
    simp only [true_iff]
    exact ⟨i, hi, by simpa using hn⟩

theorem gather_congr {α : Type} {n : Nat} {f g : Nat → Option α} {d : α} (h : ∀ i, i < n → f i = g i) :
    gather n f d = gather n g d := by
  cases hg : gather n g d with
  | none =>
    obtain ⟨i, hi, hn⟩ := gather_eq_none_iff.mp hg
    exact gather_eq_none_iff.mpr ⟨i, hi, by rw [h i hi, hn]⟩
  | some v => exact gather_eq_some_iff.mpr fun i hi => by rw [h i hi, gather_eq_some_iff.mp hg i hi]

theorem low_range (n : Nat) (v : Int) : 0 ≤ low n v ∧ low n v < 2 ^ n := by
  have : (0 : Int) < 2 ^ n := by positivity
  exact ⟨Int.emod_nonneg _ (by omega), Int.emod_lt_of_pos _ this⟩

theorem sext16_range (v : Int) : -32768 ≤ sext 16 v ∧ sext 16 v < 32768 := by
  unfold sext low
  split <;> omega

theorem s16_range (v : Int) : -32768 ≤ s16 v ∧ s16 v < 32768 := sext16_range _

/-- A value of the 16-bit range is its own `s16`. -/
theorem s16_of_range {v : Int} (h : -32768 ≤ v ∧ v < 32768) : s16 v = v := by
  unfold s16 sext low
  split <;> omega

theorem sext16_low16 (v : Int) : sext 16 (low 16 v) = s16 v := rfl

theorem modQ_range (a : Int) : 0 ≤ modQ a ∧ modQ a < 3329 := by
  show 0 ≤ a % 3329 ∧ a % 3329 < 3329
  omega

theorem modQ_eq (a : Int) : modQ a = a % 3329 := rfl

end Sys2Proof.Machine
end

