-- ==== Sys2Proof/Laws/Memory.lean ====
section
/-! SUPPORT. Laws of the data memory: what a byte reads as after a store, and that every store keeps the
canonical form. -/

namespace Sys2Proof.Machine

theorem readByte_append (m n : Memory) (a : Nat) : readByte (m ++ n) a = (readByte m a).or (readByte n a) := by
  induction m with
  | nil => rfl
  | cons c m ih =>
    simp only [List.cons_append, readByte, ih]
    split <;> simp

/-- Filtering by the offset keeps the bytes at the offsets that stay and drops the others. -/
theorem readByte_filter (m : Memory) (p : Nat → Bool) (a : Nat) :
    readByte (m.filter (fun c => p c.1)) a = if p a then readByte m a else none := by
  induction m with
  | nil => simp [readByte]
  | cons c m ih =>
    by_cases hc : p c.1
    · rw [List.filter_cons, if_pos hc]
      by_cases hca : c.1 = a
      · subst hca; simp [readByte, hc]
      · simp [readByte, hca, ih]
    · rw [List.filter_cons, if_neg hc, ih]
      by_cases hca : c.1 = a
      · subst hca; simp [hc]
      · simp [readByte, hca]

theorem readByte_cellsAt (bs : List Byte) (a k : Nat) :
    readByte (cellsAt a bs) k = if a ≤ k then bs[k - a]? else none := by
  induction bs generalizing a with
  | nil => simp [cellsAt, readByte]
  | cons b bs ih =>
    simp only [cellsAt, readByte, ih]
    by_cases h : a = k
    · subst h; simp
    · by_cases hk : a + 1 ≤ k
      · have e : k - a = k - (a + 1) + 1 := by omega
        rw [if_neg h, if_pos hk, if_pos (by omega), e]
        simp
      · rw [if_neg h, if_neg hk, if_neg (by omega)]

/-- A store: the stored bytes in their place, every other offset as before. -/
theorem readByte_writeBytes (m : Memory) (a : Nat) (bs : List Byte) (k : Nat) :
    readByte (writeBytes m a bs) k = if a ≤ k ∧ k < a + bs.length then bs[k - a]? else readByte m k := by
  unfold writeBytes
  rw [readByte_append, readByte_append, readByte_filter m (fun x => decide (x < a)),
    readByte_filter m (fun x => decide (a + bs.length ≤ x)), readByte_cellsAt]
  by_cases h1 : k < a
  · simp [h1, show ¬ (a ≤ k) by omega, show ¬ (a + bs.length ≤ k) by omega]
  · by_cases h2 : k < a + bs.length
    · have hs : bs[k - a]? = some bs[k - a] := List.getElem?_eq_getElem (by omega)
      simp [h1, h2, show a ≤ k by omega, hs, show ¬ (a + bs.length ≤ k) by omega]
    · have hn : bs[k - a]? = none := List.getElem?_eq_none (by omega)
      simp [h1, h2, show a ≤ k by omega, hn, show a + bs.length ≤ k by omega]

theorem readByte_writeBytes_outside {m : Memory} {a : Nat} {bs : List Byte} {k : Nat}
    (h : k < a ∨ a + bs.length ≤ k) : readByte (writeBytes m a bs) k = readByte m k := by
  rw [readByte_writeBytes, if_neg (by omega)]

theorem mem_cellsAt {a : Nat} {bs : List Byte} {c : Host.Cell} (h : c ∈ cellsAt a bs) :
    a ≤ c.1 ∧ c.1 < a + bs.length := by
  induction bs generalizing a with
  | nil => simp [cellsAt] at h
  | cons b bs ih =>
    simp only [cellsAt, List.mem_cons, List.length_cons] at h ⊢
    rcases h with rfl | h
    · simp
    · have := ih h
      omega

theorem cellsAt_wf (a : Nat) (bs : List Byte) : (cellsAt a bs).wf := by
  induction bs generalizing a with
  | nil => exact List.Pairwise.nil
  | cons b bs ih =>
    refine List.Pairwise.cons (fun c hc => ?_) (ih (a + 1))
    have := mem_cellsAt hc
    show a < c.1
    omega

theorem filter_wf {m : Memory} (h : m.wf) (p : Host.Cell → Bool) : Memory.wf (m.filter p) :=
  List.Pairwise.sublist List.filter_sublist h

/-- Every store keeps the canonical form: `writeBytes` is the one operation that changes the memory. -/
theorem writeBytes_wf {m : Memory} (h : m.wf) (a : Nat) (bs : List Byte) : (writeBytes m a bs).wf := by
  unfold writeBytes
  refine List.pairwise_append.mpr ⟨List.pairwise_append.mpr ⟨filter_wf h _, cellsAt_wf a bs, ?_⟩, filter_wf h _, ?_⟩
  · intro c hc d hd
    simp only [List.mem_filter, decide_eq_true_eq] at hc
    have := mem_cellsAt hd
    omega
  · intro c hc d hd
    simp only [List.mem_filter, decide_eq_true_eq] at hd
    rcases List.mem_append.mp hc with hc | hc
    · simp only [List.mem_filter, decide_eq_true_eq] at hc
      omega
    · have := mem_cellsAt hc
      omega

/-- What a store lists: a cell listed before, or one of the stored offsets. -/
theorem mem_writeBytes {m : Memory} {a : Nat} {bs : List Byte} {c : Host.Cell} (h : c ∈ writeBytes m a bs) :
    c ∈ m ∨ (a ≤ c.1 ∧ c.1 < a + bs.length) := by
  unfold writeBytes at h
  rcases List.mem_append.mp h with h | h
  · rcases List.mem_append.mp h with h | h
    · exact .inl (List.mem_of_mem_filter h)
    · exact .inr (mem_cellsAt h)
  · exact .inl (List.mem_of_mem_filter h)

theorem reset_mem_wf : State.reset.mem.wf := List.Pairwise.nil

/-- In canonical form a byte is read exactly where it is listed. -/
theorem readByte_eq_some_iff {m : Memory} (h : m.wf) {a : Nat} {b : Byte} : readByte m a = some b ↔ (a, b) ∈ m := by
  induction m with
  | nil => simp [readByte]
  | cons c m ih =>
    obtain ⟨hc, hm⟩ := List.pairwise_cons.mp h
    simp only [readByte, List.mem_cons]
    by_cases hca : c.1 = a
    · subst hca
      rw [if_pos rfl]
      constructor
      · rintro hb
        left
        cases hb
        rfl
      · rintro (hb | hb)
        · rw [← hb]
        · exact absurd (hc _ hb) (by simp)
    · rw [if_neg hca, ih hm]
      constructor
      · exact .inr
      · rintro (hb | hb)
        · exact absurd (by rw [← hb]) hca
        · exact hb

/-- Two memories in canonical form that read alike are equal. -/
theorem memory_ext {m n : Memory} (hm : m.wf) (hn : n.wf) (h : ∀ a, readByte m a = readByte n a) : m = n := by
  have hmem : ∀ c : Host.Cell, c ∈ m ↔ c ∈ n := fun c => by
    rw [← readByte_eq_some_iff hm (a := c.1) (b := c.2), ← readByte_eq_some_iff hn (a := c.1) (b := c.2), h c.1]
  have nodup : ∀ {l : Memory}, l.wf → l.Nodup := fun hl =>
    List.Pairwise.imp (fun hab => by rintro rfl; omega) hl
  exact ((List.perm_ext_iff_of_nodup (nodup hm) (nodup hn)).mpr hmem).eq_of_pairwise
    (fun a b _ _ hab hba => by omega) hm hn

/-! ### Runs of bytes -/

theorem readBytes_eq_some_iff {m : Memory} {a n : Nat} {bs : List Byte} :
    readBytes m a n = some bs ↔ bs.length = n ∧ ∀ i, i < n → readByte m (a + i) = bs[i]? := by
  induction n generalizing a bs with
  | zero =>
    simp only [readBytes, Option.some.injEq, List.length_eq_zero_iff]
    constructor
    · rintro rfl; simp
    · rintro ⟨rfl, -⟩; rfl
  | succ n ih =>
    simp only [readBytes]
    constructor
    · intro h
      split at h
      case h_1 b cs hb hcs =>
        cases h
        obtain ⟨hl, hi⟩ := ih.mp hcs
        refine ⟨by simp [hl], fun i hi' => ?_⟩
        cases i with
        | zero => simpa using hb
        | succ i => simpa [Nat.add_assoc, Nat.add_comm 1 i] using hi i (by omega)
      case h_2 => cases h
    · rintro ⟨hl, hi⟩
      cases bs with
      | nil => simp at hl
      | cons b bs =>
        have h0 : readByte m a = some b := by simpa using hi 0 (by omega)
        have h1 : readBytes m (a + 1) n = some bs := ih.mpr
          ⟨by simpa using hl, fun i hi' => by simpa [Nat.add_assoc, Nat.add_comm 1 i] using hi (i + 1) (by omega)⟩
        simp [h0, h1]

theorem readBytes_eq_none_iff {m : Memory} {a n : Nat} :
    readBytes m a n = none ↔ ∃ i, i < n ∧ readByte m (a + i) = none := by
  induction n generalizing a with
  | zero => simp [readBytes]
  | succ n ih =>
    simp only [readBytes]
    constructor
    · intro h
      split at h
      case h_1 => cases h
      case h_2 hno =>
        cases hb : readByte m a with
        | none => exact ⟨0, by omega, by simpa using hb⟩
        | some b =>
          cases hbs : readBytes m (a + 1) n with
          | none =>
            obtain ⟨i, hi, hn⟩ := ih.mp hbs
            exact ⟨i + 1, by omega, by rw [← hn]; congr 1; omega⟩
          | some bs => exact (hno b bs hb hbs).elim
    · rintro ⟨i, hi, hn⟩
      cases i with
      | zero =>
        simp only [Nat.add_zero] at hn
        simp [hn]
      | succ i =>
        have : readBytes m (a + 1) n = none := ih.mpr ⟨i, by omega, by rw [← hn]; congr 1; omega⟩
        simp [this]

/-- Runs of bytes read alike where the bytes do. -/
theorem readBytes_congr {m m' : Memory} {a n : Nat} (h : ∀ k, a ≤ k → k < a + n → readByte m k = readByte m' k) :
    readBytes m a n = readBytes m' a n := by
  induction n generalizing a with
  | zero => rfl
  | succ n ih =>
    simp only [readBytes]
    rw [h a (by omega) (by omega), ih fun k h1 h2 => h k (by omega) (by omega)]

theorem readValue_congr {m m' : Memory} {a n : Nat} (h : ∀ k, a ≤ k → k < a + n → readByte m k = readByte m' k) :
    readValue m a n = readValue m' a n := by
  unfold readValue
  rw [readBytes_congr h]

theorem readByte_region {m : Memory} {a n k : Nat} (h1 : a ≤ k) (h2 : k < a + n) :
    readByte (region m a n) k = readByte m k := by
  unfold region
  rw [readByte_filter m (fun x => decide (a ≤ x) && decide (x < a + n))]
  simp [h1, h2]

theorem readBytes_region {m : Memory} {a n b k : Nat} (h1 : a ≤ b) (h2 : b + k ≤ a + n) :
    readBytes (region m a n) b k = readBytes m b k :=
  readBytes_congr fun _ _ _ => readByte_region (by omega) (by omega)

theorem readValue_region {m : Memory} {a n b k : Nat} (h1 : a ≤ b) (h2 : b + k ≤ a + n) :
    readValue (region m a n) b k = readValue m b k := by
  unfold readValue
  rw [readBytes_region h1 h2]

/-- A stored run reads back. -/
theorem readBytes_writeBytes_same (m : Memory) (a : Nat) (bs : List Byte) :
    readBytes (writeBytes m a bs) a bs.length = some bs :=
  readBytes_eq_some_iff.mpr ⟨rfl, fun i hi => by rw [readByte_writeBytes, if_pos (by omega)]; simp⟩

/-- A run inside a stored one reads that part of it. -/
theorem readBytes_writeBytes_inside {m : Memory} {a : Nat} {bs : List Byte} {o n : Nat} (h : o + n ≤ bs.length) :
    readBytes (writeBytes m a bs) (a + o) n = some ((bs.drop o).take n) :=
  readBytes_eq_some_iff.mpr
    ⟨by simp; omega, fun i hi => by
      rw [readByte_writeBytes, if_pos (by omega)]
      simp only [List.getElem?_take, List.getElem?_drop, hi, if_true]
      congr 1
      omega⟩

theorem readBytes_writeBytes_outside {m : Memory} {a : Nat} {bs : List Byte} {b n : Nat}
    (h : b + n ≤ a ∨ a + bs.length ≤ b) : readBytes (writeBytes m a bs) b n = readBytes m b n :=
  readBytes_congr fun _ _ _ => readByte_writeBytes_outside (by omega)

theorem readValue_writeBytes_outside {m : Memory} {a : Nat} {bs : List Byte} {b n : Nat}
    (h : b + n ≤ a ∨ a + bs.length ≤ b) : readValue (writeBytes m a bs) b n = readValue m b n := by
  unfold readValue
  rw [readBytes_writeBytes_outside h]

/-- A stored word reads back. -/
theorem readWord_writeWord_same (m : Memory) (off : Nat) (v : Word) : readWord (writeWord m off v) off = some v := by
  have h := readBytes_writeBytes_same m off (leBytes 4 v.toNat)
  rw [leBytes_length] at h
  unfold readWord readValue writeWord
  rw [h]
  simp only [Option.map_some, leValue_leBytes, Option.some.injEq]
  apply BitVec.eq_of_toNat_eq
  have := v.isLt
  simp only [BitVec.toNat_ofNat]
  omega

theorem readByte_writeWord (m : Memory) (off : Nat) (v : Word) (k : Nat) :
    readByte (writeWord m off v) k =
      if off ≤ k ∧ k < off + 4 then some (BitVec.ofNat 8 (v.toNat / 256 ^ (k - off))) else readByte m k := by
  unfold writeWord
  rw [readByte_writeBytes, leBytes_length]
  split
  · rw [leBytes_getElem?, if_pos (by omega)]
  · rfl

end Sys2Proof.Machine
end

