-- ==== Sys2Proof/Laws/Elements.lean ====
section
/-! SUPPORT. Laws of the elements that lie in the data memory: the lanes of `S`, the bytes of `MSG` and
`OUT`, the coefficients of the banks, and what each store leaves of the others. -/

namespace Sys2Proof.Machine

/-! ### Elements laid out one after another -/

theorem flatMap_length_const {α β : Type} (f : α → List β) (c : Nat) (hf : ∀ x, (f x).length = c) (l : List α) :
    (l.flatMap f).length = c * l.length := by
  induction l with
  | nil => simp
  | cons x l ih => simp [hf, ih, Nat.mul_succ, Nat.add_comm]

theorem flatMap_chunk {α β : Type} (f : α → List β) (c : Nat) (hf : ∀ x, (f x).length = c) (l : List α) (i : Nat)
    (h : i < l.length) : ((l.flatMap f).drop (c * i)).take c = f l[i] := by
  induction l generalizing i with
  | nil => simp at h
  | cons x l ih =>
    cases i with
    | zero => simp [hf]
    | succ i =>
      have hd : c * (i + 1) = (f x).length + c * i := by rw [hf, Nat.mul_succ, Nat.add_comm]
      rw [List.flatMap_cons, hd, List.drop_length_add_append]
      simpa using ih i (by simpa using h)

/-! ### `S` -/

theorem storeKeccak_length (A : KState) : (A.toList.flatMap (fun v => leBytes 8 v.toNat)).length = 200 := by
  rw [flatMap_length_const _ 8 (fun _ => leBytes_length _ _)]
  simp

theorem readKeccak_eq_some_iff {m : Memory} {A : KState} :
    readKeccak m = some A ↔ ∀ i (h : i < 25), laneAt m i = some A[i] := by
  unfold readKeccak
  rw [gather_eq_some_iff]
  refine forall_congr' fun i => forall_congr' fun hi => ?_
  unfold laneAt
  rw [readValue_region (by omega) (by omega)]

theorem readKeccak_eq_none_iff {m : Memory} : readKeccak m = none ↔ ∃ i, i < 25 ∧ laneAt m i = none := by
  unfold readKeccak
  rw [gather_eq_none_iff]
  refine exists_congr fun i => and_congr_right fun hi => ?_
  unfold laneAt
  rw [readValue_region (by omega) (by omega)]

theorem readByte_storeKeccak_outside {m : Memory} {A : KState} {a : Nat} (h : a < 0x100 ∨ 0x1C8 ≤ a) :
    readByte (storeKeccak m A) a = readByte m a :=
  readByte_writeBytes_outside (by rw [storeKeccak_length]; simp only [keccakBase]; omega)

/-- A stored state reads back lane by lane. -/
theorem laneAt_storeKeccak (m : Memory) (A : KState) (i : Nat) (h : i < 25) :
    laneAt (storeKeccak m A) i = some A[i] := by
  unfold laneAt storeKeccak readValue
  rw [readBytes_writeBytes_inside (by rw [storeKeccak_length]; omega),
    flatMap_chunk _ 8 (fun _ => leBytes_length _ _) _ i (by simpa using h)]
  simp only [Option.map_some, leValue_leBytes, Option.some.injEq, Vector.getElem_toList]
  apply BitVec.eq_of_toNat_eq
  have := A[i].isLt
  simp only [BitVec.toNat_ofNat]
  omega

theorem laneAt_congr {m m' : Memory} {i : Nat} (hi : i < 25)
    (h : ∀ a, 0x100 ≤ a → a < 0x1C8 → readByte m a = readByte m' a) : laneAt m i = laneAt m' i := by
  unfold laneAt
  rw [readValue_congr fun k h1 h2 => h k (by simp only [keccakBase] at h1; omega) (by simp only [keccakBase] at h2; omega)]

/-! ### `MSG` and `OUT` -/

theorem readMsg_eq_some_iff {m : Memory} {n : Nat} {M : List Byte} (hn : n ≤ 1024) :
    readMsg m n = some M ↔ M.length = n ∧ ∀ k, k < n → msgAt m k = M[k]? := by
  unfold readMsg
  rw [if_pos hn, readBytes_region (by omega) (by omega), readBytes_eq_some_iff]
  refine and_congr_right fun _ => forall_congr' fun k => forall_congr' fun hk => ?_
  unfold msgAt
  rw [if_pos (show k < Config.MSG_CAP by simp only [Config.MSG_CAP]; omega)]

theorem readMsg_eq_none_iff {m : Memory} {n : Nat} (hn : n ≤ 1024) :
    readMsg m n = none ↔ ∃ k, k < n ∧ msgAt m k = none := by
  unfold readMsg
  rw [if_pos hn, readBytes_region (by omega) (by omega), readBytes_eq_none_iff]
  refine exists_congr fun k => and_congr_right fun hk => ?_
  unfold msgAt
  rw [if_pos (show k < Config.MSG_CAP by simp only [Config.MSG_CAP]; omega)]

/-- A message that can be read has the length asked for. -/
theorem readMsg_length {m : Memory} {n : Nat} {M : List Byte} (h : readMsg m n = some M) : M.length = n := by
  unfold readMsg at h
  split at h
  · exact (readBytes_eq_some_iff.mp h).1
  · cases h

theorem readByte_storeOut_outside {m : Memory} {bs : List Byte} {a : Nat} (h : a < 0xC00 ∨ 0xC00 + bs.length ≤ a) :
    readByte (storeOut m bs) a = readByte m a :=
  readByte_writeBytes_outside (by simp only [outBase, List.length_take]; omega)

/-- An output within the buffer reads back; the rest of the memory is as before. -/
theorem readByte_storeOut {m : Memory} {bs : List Byte} (hb : bs.length ≤ 1024) (a : Nat) :
    readByte (storeOut m bs) a = if 0xC00 ≤ a ∧ a < 0xC00 + bs.length then bs[a - 0xC00]? else readByte m a := by
  unfold storeOut
  rw [List.take_of_length_le (show bs.length ≤ Config.OUT_CAP from hb), readByte_writeBytes]

theorem outAt_storeOut {m : Memory} {bs : List Byte} (hb : bs.length ≤ 1024) (k : Nat) :
    outAt (storeOut m bs) k = if k < bs.length then bs[k]? else outAt m k := by
  unfold outAt
  by_cases h1 : k < Config.OUT_CAP
  · rw [if_pos h1, if_pos h1, readByte_storeOut hb]
    simp only [outBase, Nat.add_sub_cancel_left]
    by_cases h2 : k < bs.length
    · rw [if_pos h2, if_pos (by omega)]
    · rw [if_neg h2, if_neg (by omega)]
  · have : ¬ k < bs.length := by simp only [Config.OUT_CAP] at h1; omega
    rw [if_neg h1, if_neg h1, if_neg this]

/-! ### The banks -/

theorem storePoly_length (p : Poly) : (p.toList.flatMap (fun c => leBytes 2 (low 16 c).toNat)).length = 512 := by
  rw [flatMap_length_const _ 2 (fun _ => leBytes_length _ _)]
  simp

theorem readPoly_eq_some_iff {m : Memory} {b : Fin 8} {p : Poly} :
    readPoly m b = some p ↔ ∀ j (h : j < 256), coefAt m b j = some p[j] := by
  unfold readPoly
  rw [gather_eq_some_iff]
  refine forall_congr' fun j => forall_congr' fun hj => ?_
  unfold coefAt
  rw [readValue_region (by omega) (by omega)]

theorem readPoly_eq_none_iff {m : Memory} {b : Fin 8} :
    readPoly m b = none ↔ ∃ j, j < 256 ∧ coefAt m b j = none := by
  unfold readPoly
  rw [gather_eq_none_iff]
  refine exists_congr fun j => and_congr_right fun hj => ?_
  unfold coefAt
  rw [readValue_region (by omega) (by omega)]

theorem readByte_storePoly_outside {m : Memory} {b : Fin 8} {p : Poly} {a : Nat}
    (h : a < bankBase b ∨ bankBase b + 512 ≤ a) : readByte (storePoly m b p) a = readByte m a :=
  readByte_writeBytes_outside (by rw [storePoly_length]; exact h)

/-- A stored polynomial reads back coefficient by coefficient, each as 16 bits hold it. -/
theorem coefAt_storePoly (m : Memory) (b : Fin 8) (p : Poly) (j : Nat) (h : j < 256) :
    coefAt (storePoly m b p) b j = some (s16 p[j]) := by
  unfold coefAt storePoly readValue
  rw [readBytes_writeBytes_inside (by rw [storePoly_length]; omega),
    flatMap_chunk _ 2 (fun _ => leBytes_length _ _) _ j (by simpa using h)]
  obtain ⟨h0, h1⟩ := low_range 16 p[j]
  simp only [Option.map_some, leValue_leBytes, Vector.getElem_toList, s16]
  refine congrArg some (congrArg (sext 16) ?_)
  have e : (low 16 p[j]).toNat % 256 ^ 2 = (low 16 p[j]).toNat := Nat.mod_eq_of_lt (by omega)
  rw [e, Int.toNat_of_nonneg h0]

theorem coefAt_congr {m m' : Memory} {b j : Nat}
    (h : ∀ a, bankBase b + 2 * j ≤ a → a < bankBase b + 2 * j + 2 → readByte m a = readByte m' a) :
    coefAt m b j = coefAt m' b j := by
  unfold coefAt
  rw [readValue_congr h]

/-- A store of one bank leaves the coefficients of every other bank. -/
theorem coefAt_storePoly_other (m : Memory) {b b' : Fin 8} (p : Poly) (hb : b' ≠ b) (j : Nat) (h : j < 256) :
    coefAt (storePoly m b p) b' j = coefAt m b' j := by
  have hv : b'.val ≠ b.val := fun e => hb (Fin.ext e)
  exact coefAt_congr fun a h1 h2 => readByte_storePoly_outside (by
    simp only [bankBase] at h1 h2 ⊢
    omega)

/-- A coefficient that is read is a 16-bit value. -/
theorem coefAt_range {m : Memory} {b j : Nat} {v : Int} (h : coefAt m b j = some v) : -32768 ≤ v ∧ v < 32768 := by
  unfold coefAt at h
  cases hr : readValue m (bankBase b + 2 * j) 2 with
  | none => rw [hr] at h; cases h
  | some n =>
    rw [hr, Option.map_some] at h
    rw [← Option.some.inj h]
    exact sext16_range _

/-! ### Every store keeps the canonical form -/

theorem storeKeccak_wf {m : Memory} (h : m.wf) (A : KState) : (storeKeccak m A).wf := writeBytes_wf h _ _
theorem storeOut_wf {m : Memory} (h : m.wf) (bs : List Byte) : (storeOut m bs).wf := writeBytes_wf h _ _
theorem storePoly_wf {m : Memory} (h : m.wf) (b : Fin 8) (p : Poly) : (storePoly m b p).wf := writeBytes_wf h _ _
theorem writeWord_wf {m : Memory} (h : m.wf) (off : Nat) (v : Word) : (writeWord m off v).wf := writeBytes_wf h _ _

theorem stateBytes_length (A : KState) (c : Nat) : (stateBytes A c).length = c := by simp [stateBytes]

end Sys2Proof.Machine
end

