-- ==== Sys2Proof/Laws/Encoding.lean ====
section
/-! SUPPORT. Laws of a command word and its fields. -/

namespace Sys2Proof.Laws

/-- A word is its fields: no bit is dropped (R44). -/
theorem fieldsWord_wordFields (w : Word) : fieldsWord (wordFields w) = w := by
  apply BitVec.eq_of_getLsbD_eq
  intro i hi
  interval_cases i <;> simp [fieldsWord, wordFields]

/-- The fields of a word made of fields are those fields (R44). -/
theorem wordFields_fieldsWord (f : CommandFields) : wordFields (fieldsWord f) = f := by
  obtain ⟨op, fn, rd, ra, rb, r15, r19, rh⟩ := f
  simp only [wordFields, fieldsWord, CommandFields.mk.injEq]
  refine ⟨?_, ?_, ?_, ?_, ?_, ?_, ?_, ?_⟩ <;>
  · apply BitVec.eq_of_getLsbD_eq
    intro i hi
    interval_cases i <;> simp

/-- A bank number survives its 3-bit field. -/
theorem bankOf_ofNat (b : Fin 8) : bankOf (BitVec.ofNat 3 b) = b := by
  revert b
  decide

/-- A 3-bit field survives its bank number. -/
theorem ofNat_bankOf (b : BitVec 3) : BitVec.ofNat 3 (bankOf b) = b := by
  revert b
  decide

/-- Every command is well formed: the type of its banks says so (R21). -/
theorem instr_wf (i : Instr) : i.wf = true := by
  cases i <;> simp [Instr.banks, Config.NBANKS]

/-- Encoding, seen through the fields. -/
theorem wordFields_encode (i : Instr) : wordFields (encode i) = instrFields i := wordFields_fieldsWord _

end Sys2Proof.Laws
end

