-- ==== Sys2Proof/Laws/State.lean ====
section
/-! SUPPORT. One lemma per field for each operation that updates the state, true by `rfl`, so that no later
proof unfolds a record update. -/

namespace Sys2Proof.Machine

@[simp] theorem complete_cmdLast (s : State) : (complete s).cmdLast = s.cmdLast := rfl
@[simp] theorem complete_status (s : State) : (complete s).status = { s.status with busy := false, done := true } := rfl
@[simp] theorem complete_msgLen (s : State) : (complete s).msgLen = s.msgLen := rfl
@[simp] theorem complete_outLen (s : State) : (complete s).outLen = s.outLen := rfl
@[simp] theorem complete_arg0 (s : State) : (complete s).arg0 = s.arg0 := rfl
@[simp] theorem complete_arg1 (s : State) : (complete s).arg1 = s.arg1 := rfl
@[simp] theorem complete_arg2 (s : State) : (complete s).arg2 = s.arg2 := rfl
@[simp] theorem complete_res0 (s : State) : (complete s).res0 = s.res0 := rfl
@[simp] theorem complete_res1 (s : State) : (complete s).res1 = s.res1 := rfl
@[simp] theorem complete_eng (s : State) : (complete s).eng = .idle := rfl
@[simp] theorem complete_mem (s : State) : (complete s).mem = s.mem := rfl
@[simp] theorem complete_host (s : State) : (complete s).host = s.host := rfl
@[simp] theorem complete_wait (s : State) : (complete s).wait = s.wait := rfl
@[simp] theorem complete_draws (s : State) : (complete s).draws = s.draws := rfl

@[simp] theorem raiseError_cmdLast (f : ErrorFlag) (s : State) : (raiseError f s).cmdLast = s.cmdLast := rfl
@[simp] theorem raiseError_status (f : ErrorFlag) (s : State) : (raiseError f s).status = { statusFlag s.status f with done := true } := rfl
@[simp] theorem raiseError_msgLen (f : ErrorFlag) (s : State) : (raiseError f s).msgLen = s.msgLen := rfl
@[simp] theorem raiseError_outLen (f : ErrorFlag) (s : State) : (raiseError f s).outLen = s.outLen := rfl
@[simp] theorem raiseError_arg0 (f : ErrorFlag) (s : State) : (raiseError f s).arg0 = s.arg0 := rfl
@[simp] theorem raiseError_arg1 (f : ErrorFlag) (s : State) : (raiseError f s).arg1 = s.arg1 := rfl
@[simp] theorem raiseError_arg2 (f : ErrorFlag) (s : State) : (raiseError f s).arg2 = s.arg2 := rfl
@[simp] theorem raiseError_res0 (f : ErrorFlag) (s : State) : (raiseError f s).res0 = s.res0 := rfl
@[simp] theorem raiseError_res1 (f : ErrorFlag) (s : State) : (raiseError f s).res1 = s.res1 := rfl
@[simp] theorem raiseError_eng (f : ErrorFlag) (s : State) : (raiseError f s).eng = s.eng := rfl
@[simp] theorem raiseError_mem (f : ErrorFlag) (s : State) : (raiseError f s).mem = s.mem := rfl
@[simp] theorem raiseError_host (f : ErrorFlag) (s : State) : (raiseError f s).host = s.host := rfl
@[simp] theorem raiseError_wait (f : ErrorFlag) (s : State) : (raiseError f s).wait = s.wait := rfl
@[simp] theorem raiseError_draws (f : ErrorFlag) (s : State) : (raiseError f s).draws = s.draws := rfl

@[simp] theorem acceptCommand_cmdLast (i : Instr) (snap : Snapshot) (s : State) : (acceptCommand i snap s).cmdLast = s.cmdLast := rfl
@[simp] theorem acceptCommand_status (i : Instr) (snap : Snapshot) (s : State) : (acceptCommand i snap s).status = { s.status with done := false, busy := true } := rfl
@[simp] theorem acceptCommand_msgLen (i : Instr) (snap : Snapshot) (s : State) : (acceptCommand i snap s).msgLen = s.msgLen := rfl
@[simp] theorem acceptCommand_outLen (i : Instr) (snap : Snapshot) (s : State) : (acceptCommand i snap s).outLen = s.outLen := rfl
@[simp] theorem acceptCommand_arg0 (i : Instr) (snap : Snapshot) (s : State) : (acceptCommand i snap s).arg0 = s.arg0 := rfl
@[simp] theorem acceptCommand_arg1 (i : Instr) (snap : Snapshot) (s : State) : (acceptCommand i snap s).arg1 = s.arg1 := rfl
@[simp] theorem acceptCommand_arg2 (i : Instr) (snap : Snapshot) (s : State) : (acceptCommand i snap s).arg2 = s.arg2 := rfl
@[simp] theorem acceptCommand_res0 (i : Instr) (snap : Snapshot) (s : State) : (acceptCommand i snap s).res0 = s.res0 := rfl
@[simp] theorem acceptCommand_res1 (i : Instr) (snap : Snapshot) (s : State) : (acceptCommand i snap s).res1 = s.res1 := rfl
@[simp] theorem acceptCommand_eng (i : Instr) (snap : Snapshot) (s : State) : (acceptCommand i snap s).eng = .pending i snap := rfl
@[simp] theorem acceptCommand_mem (i : Instr) (snap : Snapshot) (s : State) : (acceptCommand i snap s).mem = s.mem := rfl
@[simp] theorem acceptCommand_host (i : Instr) (snap : Snapshot) (s : State) : (acceptCommand i snap s).host = s.host := rfl
@[simp] theorem acceptCommand_wait (i : Instr) (snap : Snapshot) (s : State) : (acceptCommand i snap s).wait = Config.engineDelay s.draws := rfl
@[simp] theorem acceptCommand_draws (i : Instr) (snap : Snapshot) (s : State) : (acceptCommand i snap s).draws = s.draws + 1 := rfl

@[simp] theorem nextLine_cmdLast (s : State) : (nextLine s).cmdLast = s.cmdLast := rfl
@[simp] theorem nextLine_status (s : State) : (nextLine s).status = s.status := rfl
@[simp] theorem nextLine_msgLen (s : State) : (nextLine s).msgLen = s.msgLen := rfl
@[simp] theorem nextLine_outLen (s : State) : (nextLine s).outLen = s.outLen := rfl
@[simp] theorem nextLine_arg0 (s : State) : (nextLine s).arg0 = s.arg0 := rfl
@[simp] theorem nextLine_arg1 (s : State) : (nextLine s).arg1 = s.arg1 := rfl
@[simp] theorem nextLine_arg2 (s : State) : (nextLine s).arg2 = s.arg2 := rfl
@[simp] theorem nextLine_res0 (s : State) : (nextLine s).res0 = s.res0 := rfl
@[simp] theorem nextLine_res1 (s : State) : (nextLine s).res1 = s.res1 := rfl
@[simp] theorem nextLine_eng (s : State) : (nextLine s).eng = s.eng := rfl
@[simp] theorem nextLine_mem (s : State) : (nextLine s).mem = s.mem := rfl
@[simp] theorem nextLine_host (s : State) : (nextLine s).host = { s.host with line := s.host.line + 1 } := rfl
@[simp] theorem nextLine_wait (s : State) : (nextLine s).wait = s.wait := rfl
@[simp] theorem nextLine_draws (s : State) : (nextLine s).draws = s.draws := rfl

@[simp] theorem waitOne_cmdLast (s : State) : (waitOne s).cmdLast = s.cmdLast := rfl
@[simp] theorem waitOne_status (s : State) : (waitOne s).status = s.status := rfl
@[simp] theorem waitOne_msgLen (s : State) : (waitOne s).msgLen = s.msgLen := rfl
@[simp] theorem waitOne_outLen (s : State) : (waitOne s).outLen = s.outLen := rfl
@[simp] theorem waitOne_arg0 (s : State) : (waitOne s).arg0 = s.arg0 := rfl
@[simp] theorem waitOne_arg1 (s : State) : (waitOne s).arg1 = s.arg1 := rfl
@[simp] theorem waitOne_arg2 (s : State) : (waitOne s).arg2 = s.arg2 := rfl
@[simp] theorem waitOne_res0 (s : State) : (waitOne s).res0 = s.res0 := rfl
@[simp] theorem waitOne_res1 (s : State) : (waitOne s).res1 = s.res1 := rfl
@[simp] theorem waitOne_eng (s : State) : (waitOne s).eng = s.eng := rfl
@[simp] theorem waitOne_mem (s : State) : (waitOne s).mem = s.mem := rfl
@[simp] theorem waitOne_host (s : State) : (waitOne s).host = s.host := rfl
@[simp] theorem waitOne_wait (s : State) : (waitOne s).wait = s.wait - 1 := rfl
@[simp] theorem waitOne_draws (s : State) : (waitOne s).draws = s.draws := rfl

@[simp] theorem resetBlock_cmdLast (s : State) : (resetBlock s).cmdLast = State.reset.cmdLast := rfl
@[simp] theorem resetBlock_status (s : State) : (resetBlock s).status = State.reset.status := rfl
@[simp] theorem resetBlock_msgLen (s : State) : (resetBlock s).msgLen = State.reset.msgLen := rfl
@[simp] theorem resetBlock_outLen (s : State) : (resetBlock s).outLen = State.reset.outLen := rfl
@[simp] theorem resetBlock_arg0 (s : State) : (resetBlock s).arg0 = State.reset.arg0 := rfl
@[simp] theorem resetBlock_arg1 (s : State) : (resetBlock s).arg1 = State.reset.arg1 := rfl
@[simp] theorem resetBlock_arg2 (s : State) : (resetBlock s).arg2 = State.reset.arg2 := rfl
@[simp] theorem resetBlock_res0 (s : State) : (resetBlock s).res0 = State.reset.res0 := rfl
@[simp] theorem resetBlock_res1 (s : State) : (resetBlock s).res1 = State.reset.res1 := rfl
@[simp] theorem resetBlock_eng (s : State) : (resetBlock s).eng = State.reset.eng := rfl
@[simp] theorem resetBlock_mem (s : State) : (resetBlock s).mem = State.reset.mem := rfl
@[simp] theorem resetBlock_host (s : State) : (resetBlock s).host = s.host := rfl
@[simp] theorem resetBlock_wait (s : State) : (resetBlock s).wait = State.reset.wait := rfl
@[simp] theorem resetBlock_draws (s : State) : (resetBlock s).draws = s.draws := rfl

@[simp] theorem drawn_cmdLast (s : State) : ((draw s).2).cmdLast = s.cmdLast := rfl
@[simp] theorem drawn_status (s : State) : ((draw s).2).status = s.status := rfl
@[simp] theorem drawn_msgLen (s : State) : ((draw s).2).msgLen = s.msgLen := rfl
@[simp] theorem drawn_outLen (s : State) : ((draw s).2).outLen = s.outLen := rfl
@[simp] theorem drawn_arg0 (s : State) : ((draw s).2).arg0 = s.arg0 := rfl
@[simp] theorem drawn_arg1 (s : State) : ((draw s).2).arg1 = s.arg1 := rfl
@[simp] theorem drawn_arg2 (s : State) : ((draw s).2).arg2 = s.arg2 := rfl
@[simp] theorem drawn_res0 (s : State) : ((draw s).2).res0 = s.res0 := rfl
@[simp] theorem drawn_res1 (s : State) : ((draw s).2).res1 = s.res1 := rfl
@[simp] theorem drawn_eng (s : State) : ((draw s).2).eng = s.eng := rfl
@[simp] theorem drawn_mem (s : State) : ((draw s).2).mem = s.mem := rfl
@[simp] theorem drawn_host (s : State) : ((draw s).2).host = s.host := rfl
@[simp] theorem drawn_wait (s : State) : ((draw s).2).wait = s.wait := rfl
@[simp] theorem drawn_draws (s : State) : ((draw s).2).draws = s.draws + 1 := rfl

@[simp] theorem draw_value (s : State) : (draw s).1 = Config.freeWord s.draws := rfl

@[simp] theorem setVar_program (h : HostAgent) (t : Nat) (v : Word) : (setVar h t v).program = h.program := rfl
@[simp] theorem setVar_line (h : HostAgent) (t : Nat) (v : Word) : (setVar h t v).line = h.line := rfl

@[simp] theorem statusFlag_busy (t : Status) (f : ErrorFlag) : (statusFlag t f).busy = t.busy := by cases f <;> rfl
@[simp] theorem statusFlag_done (t : Status) (f : ErrorFlag) : (statusFlag t f).done = t.done := by cases f <;> rfl

/-- The snapshot a pending command reads. -/
theorem operands_pending {s : State} {i : Instr} {snap : Snapshot} (h : s.eng = .pending i snap) :
    operands s = snap := by
  unfold operands
  rw [h]

theorem complete_finished (s : State) : Finished (complete s) := ⟨rfl, rfl, rfl⟩

theorem complete_sameControl (s : State) : SameControl s (complete s) :=
  ⟨rfl, rfl, rfl, rfl, rfl, rfl, rfl, rfl, rfl, rfl, rfl, rfl⟩

theorem complete_sameResults (s : State) : SameResults s (complete s) := ⟨rfl, rfl⟩

end Sys2Proof.Machine
end

