-- ==== Sys2Proof/Laws/Exec.lean ====
section
/-! SUPPORT. What the shared operations of the commands can do, said once: each answers the named next
state when its operands are written, and the unwritten fault otherwise. Then what any command can do. -/

namespace Sys2Proof.Machine

theorem execKeccakF_eq (s : State) {A : KState} (h : readKeccak s.mem = some A) :
    execKeccakF s = .next (complete { s with mem := storeKeccak s.mem (keccakF A) }) := by
  unfold execKeccakF
  rw [h]

theorem execKeccakF_fault (s : State) (h : readKeccak s.mem = none) : execKeccakF s = .fault .unwrittenRead := by
  unfold execKeccakF
  rw [h]

theorem runSponge_eq {r : Nat} {pad : Byte} {f : KState → List Byte × KState} {s : State} {M : List Byte}
    (h : readMsg s.mem (operandMsgLen (operands s)) = some M) :
    runSponge r pad f s =
      .next (complete { s with
        mem := storeOut (storeKeccak s.mem (f (absorbAll r pad M)).2) (f (absorbAll r pad M)).1 }) := by
  unfold runSponge finishSponge
  rw [h]

theorem runSponge_fault {r : Nat} {pad : Byte} {f : KState → List Byte × KState} {s : State}
    (h : readMsg s.mem (operandMsgLen (operands s)) = none) : runSponge r pad f s = .fault .unwrittenRead := by
  unfold runSponge
  rw [h]

theorem polyUnary_eq {f : Poly → Poly} {rd ra : Fin 8} {s : State} {a : Poly} (h : readPoly s.mem ra = some a) :
    polyUnary f rd ra s = .next (complete { s with mem := storePoly s.mem rd (f a) }) := by
  unfold polyUnary
  rw [h]

theorem polyUnary_fault {f : Poly → Poly} {rd ra : Fin 8} {s : State} (h : readPoly s.mem ra = none) :
    polyUnary f rd ra s = .fault .unwrittenRead := by
  unfold polyUnary
  rw [h]

theorem polyBinary_eq {f : Poly → Poly → Poly} {rd ra rb : Fin 8} {s : State} {a b : Poly}
    (ha : readPoly s.mem ra = some a) (hb : readPoly s.mem rb = some b) :
    polyBinary f rd ra rb s = .next (complete { s with mem := storePoly s.mem rd (f a b) }) := by
  unfold polyBinary
  rw [ha, hb]

theorem polyBinary_fault {f : Poly → Poly → Poly} {rd ra rb : Fin 8} {s : State}
    (h : readPoly s.mem ra = none ∨ readPoly s.mem rb = none) :
    polyBinary f rd ra rb s = .fault .unwrittenRead := by
  unfold polyBinary
  split
  case h_1 a b ha hb => rcases h with h | h <;> simp_all
  case h_2 => rfl

/-! ### Each arm over its shared operation -/

theorem exec_keccakF (s : State) : exec .keccakF s = execKeccakF s := rfl
theorem exec_stateClear (s : State) : exec .stateClear s = .next (complete { s with mem := storeKeccak s.mem zeroState }) := rfl
theorem exec_sha3_256 (s : State) : exec .sha3_256 s = runSponge 136 0x06#8 (squeezeSha3 32) s := rfl
theorem exec_sha3_512 (s : State) : exec .sha3_512 s = runSponge 72 0x06#8 (squeezeSha3 64) s := rfl
theorem exec_shake128 (s : State) :
    exec .shake128 s = runSponge 168 0x1F#8 (squeezeShake 168 (operandOutLen (operands s))) s := rfl
theorem exec_shake256 (s : State) :
    exec .shake256 s = runSponge 136 0x1F#8 (squeezeShake 136 (operandOutLen (operands s))) s := rfl
theorem exec_barrett (s : State) : exec .barrett s = writeRes0 s (barrett (operandA16 (operands s))) := rfl
theorem exec_montgomery (s : State) : exec .montgomery s = writeRes0 s (montgomery (operandA32 (operands s))) := rfl
theorem exec_csubq (s : State) : exec .csubq s = writeRes0 s (csubq (operandA16 (operands s))) := rfl
theorem exec_butterfly (s : State) : exec .butterfly s = execButterfly s := rfl
theorem exec_ntt (d : Fin 8) (s : State) : exec (.ntt d) s = polyUnary ntt d d s := rfl
theorem exec_basemul (d a b : Fin 8) (s : State) : exec (.basemul d a b) s = polyBinary basemul d a b s := rfl
theorem exec_padd (d a b : Fin 8) (s : State) : exec (.padd d a b) s = polyBinary (polyZip paddLane) d a b s := rfl
theorem exec_psub (d a b : Fin 8) (s : State) : exec (.psub d a b) s = polyBinary (polyZip psubLane) d a b s := rfl
theorem exec_preduce (d a : Fin 8) (s : State) : exec (.preduce d a) s = polyUnary (fun p => p.map barrett) d a s := rfl

/-- How a command may change the block: its end, over results and a data memory it names. -/
inductive EngineEffect (s : State) : State → Prop where
  | results (v w : Word) : EngineEffect s (complete { s with res0 := v, res1 := w })
  | keccak (A : KState) : EngineEffect s (complete { s with mem := storeKeccak s.mem A })
  | sponge (A : KState) (bs : List Byte) :
      EngineEffect s (complete { s with mem := storeOut (storeKeccak s.mem A) bs })
  | poly (b : Fin 8) (p : Poly) : EngineEffect s (complete { s with mem := storePoly s.mem b p })

/-- `o` is a step with an engine effect, or the unwritten fault. -/
def EngineOutcome (s : State) (o : Result) : Prop :=
  (∃ t, o = .next t ∧ EngineEffect s t) ∨ o = .fault .unwrittenRead

theorem runSponge_outcome (r : Nat) (pad : Byte) (f : KState → List Byte × KState) (s : State) :
    EngineOutcome s (runSponge r pad f s) := by
  cases h : readMsg s.mem (operandMsgLen (operands s)) with
  | none => exact .inr (runSponge_fault h)
  | some M => exact .inl ⟨_, runSponge_eq h, .sponge _ _⟩

theorem polyUnary_outcome (f : Poly → Poly) (rd ra : Fin 8) (s : State) : EngineOutcome s (polyUnary f rd ra s) := by
  cases h : readPoly s.mem ra with
  | none => exact .inr (polyUnary_fault h)
  | some a => exact .inl ⟨_, polyUnary_eq h, .poly _ _⟩

theorem polyBinary_outcome (f : Poly → Poly → Poly) (rd ra rb : Fin 8) (s : State) :
    EngineOutcome s (polyBinary f rd ra rb s) := by
  cases ha : readPoly s.mem ra with
  | none => exact .inr (polyBinary_fault (.inl ha))
  | some a =>
    cases hb : readPoly s.mem rb with
    | none => exact .inr (polyBinary_fault (.inr hb))
    | some b => exact .inl ⟨_, polyBinary_eq ha hb, .poly _ _⟩

/-- Everything a command can do. -/
theorem exec_outcome (i : Instr) (s : State) : EngineOutcome s (exec i s) := by
  cases i with
  | keccakF =>
    cases h : readKeccak s.mem with
    | none => exact .inr (execKeccakF_fault s h)
    | some A => exact .inl ⟨_, execKeccakF_eq s h, .keccak _⟩
  | stateClear => exact .inl ⟨_, rfl, .keccak _⟩
  | sha3_256 => exact runSponge_outcome _ _ _ s
  | sha3_512 => exact runSponge_outcome _ _ _ s
  | shake128 => exact runSponge_outcome _ _ _ s
  | shake256 => exact runSponge_outcome _ _ _ s
  | barrett => exact .inl ⟨_, rfl, .results _ s.res1⟩
  | montgomery => exact .inl ⟨_, rfl, .results _ s.res1⟩
  | csubq => exact .inl ⟨_, rfl, .results _ s.res1⟩
  | butterfly => exact .inl ⟨_, rfl, .results _ _⟩
  | ntt rd => exact polyUnary_outcome _ _ _ s
  | basemul rd ra rb => exact polyBinary_outcome _ _ _ _ s
  | padd rd ra rb => exact polyBinary_outcome _ _ _ _ s
  | psub rd ra rb => exact polyBinary_outcome _ _ _ _ s
  | preduce rd ra => exact polyUnary_outcome _ _ _ s

/-- If a command answers a next state, it is one of the four effects. -/
theorem exec_next {i : Instr} {s t : State} (h : exec i s = .next t) : EngineEffect s t := by
  rcases exec_outcome i s with ⟨u, hu, he⟩ | hf
  · rw [hu] at h
    cases h
    exact he
  · rw [hf] at h
    cases h

/-- No command is refused. -/
theorem exec_ne_refused (i : Instr) (s : State) (r : Refusal) : exec i s ≠ .refused r := by
  rcases exec_outcome i s with ⟨t, ht, _⟩ | hf
  · rw [ht]
    exact fun h => nomatch h
  · rw [hf]
    exact fun h => nomatch h

theorem EngineEffect.finished {s t : State} (h : EngineEffect s t) : Finished t := by
  cases h <;> exact complete_finished _

theorem EngineEffect.sameControl {s t : State} (h : EngineEffect s t) : SameControl s t := by
  cases h <;> exact ⟨rfl, rfl, rfl, rfl, rfl, rfl, rfl, rfl, rfl, rfl, rfl, rfl⟩

end Sys2Proof.Machine
end

