-- ==== Sys2Proof/Laws/PerInstr.lean ====
section
/-! SUPPORT. Per-command laws, one lemma a constructor. `TableRow`: a command's word matches its row of
the table of spec/30_encoding.md R46, and its banks exist. -/

namespace Sys2Proof.Laws.TableRow

/-- The word of a command carries its row's fixed bits, and the command is well formed. -/
def Statement (i : Instr) : Prop := encode i &&& tableMask i = tableMatch i ∧ i.wf = true

theorem keccakF : Statement .keccakF := ⟨by decide, by decide⟩

theorem stateClear : Statement .stateClear := ⟨by decide, by decide⟩

theorem sha3_256 : Statement .sha3_256 := ⟨by decide, by decide⟩

theorem sha3_512 : Statement .sha3_512 := ⟨by decide, by decide⟩

theorem shake128 : Statement .shake128 := ⟨by decide, by decide⟩

theorem shake256 : Statement .shake256 := ⟨by decide, by decide⟩

theorem barrett : Statement .barrett := ⟨by decide, by decide⟩

theorem montgomery : Statement .montgomery := ⟨by decide, by decide⟩

theorem csubq : Statement .csubq := ⟨by decide, by decide⟩

theorem butterfly : Statement .butterfly := ⟨by decide, by decide⟩

theorem ntt (rd : Fin 8) : Statement (.ntt rd) := by
  refine ⟨?_, ?_⟩
  · revert rd
    decide +kernel
  · revert rd
    decide +kernel

theorem basemul (rd ra rb : Fin 8) : Statement (.basemul rd ra rb) := by
  refine ⟨?_, ?_⟩
  · revert rd ra rb
    decide +kernel
  · revert rd ra rb
    decide +kernel

theorem padd (rd ra rb : Fin 8) : Statement (.padd rd ra rb) := by
  refine ⟨?_, ?_⟩
  · revert rd ra rb
    decide +kernel
  · revert rd ra rb
    decide +kernel

theorem psub (rd ra rb : Fin 8) : Statement (.psub rd ra rb) := by
  refine ⟨?_, ?_⟩
  · revert rd ra rb
    decide +kernel
  · revert rd ra rb
    decide +kernel

theorem preduce (rd ra : Fin 8) : Statement (.preduce rd ra) := by
  refine ⟨?_, ?_⟩
  · revert rd ra
    decide +kernel
  · revert rd ra
    decide +kernel

end Sys2Proof.Laws.TableRow
end

