-- ==== Sys2Proof/Laws/Poly.lean ====
section
/-! SUPPORT. The polynomial functions coefficient by coefficient, and a stored bank read back whole. -/

namespace Sys2Proof.Machine

theorem coef_eq {p : Poly} {j : Nat} (h : j < 256) : coef p j = p[j] := by simp [coef, h]

theorem coef_ofFn (f : Fin 256 → Int) {j : Nat} (h : j < 256) : coef (Vector.ofFn f) j = f ⟨j, h⟩ := by
  rw [coef_eq h, Vector.getElem_ofFn]

theorem coef_polyZip (f : Int → Int → Int) (a b : Poly) {j : Nat} (h : j < 256) :
    coef (polyZip f a b) j = f (coef a j) (coef b j) := by
  rw [polyZip, coef_ofFn _ h, coef_eq h, coef_eq h]

theorem coef_map (f : Int → Int) (a : Poly) {j : Nat} (h : j < 256) : coef (a.map f) j = f (coef a j) := by
  rw [coef_eq h, coef_eq h, Vector.getElem_map]

/-- The even coefficient of slot `i` (R88). -/
theorem coef_basemul_even (a b : Poly) {i : Nat} (h : i < 128) :
    coef (basemul a b) (2 * i) =
      modQ (coef a (2 * i) * coef b (2 * i) + slotZeta i * coef a (2 * i + 1) * coef b (2 * i + 1)) := by
  have h1 : 2 * i / 2 = i := by omega
  have h2 : 2 * i % 2 = 0 := by omega
  rw [basemul, coef_ofFn _ (by omega)]
  simp only [h1, h2, if_true]

/-- The odd coefficient of slot `i` (R88). -/
theorem coef_basemul_odd (a b : Poly) {i : Nat} (h : i < 128) :
    coef (basemul a b) (2 * i + 1) =
      modQ (coef a (2 * i + 1) * coef b (2 * i) + coef a (2 * i) * coef b (2 * i + 1)) := by
  have h1 : (2 * i + 1) / 2 = i := by omega
  have h2 : (2 * i + 1) % 2 = 1 := by omega
  rw [basemul, coef_ofFn _ (by omega)]
  simp only [h1, h2, one_ne_zero, if_false]

/-- One butterfly writes its two coefficients and leaves the others (R86). -/
theorem coef_nttPair (zeta : Int) {l j k : Nat} (p : Poly) (hl : 0 < l) (hj : j + l < 256) (hk : k < 256) :
    coef (nttPair zeta l p j) k =
      if k = j then (butterfly (coef p j) (coef p (j + l)) zeta).1
      else if k = j + l then (butterfly (coef p j) (coef p (j + l)) zeta).2
      else coef p k := by
  rw [coef_eq hk, coef_eq hk]
  simp only [nttPair, Vector.getElem_setIfInBounds]
  by_cases h1 : k = j
  · subst h1
    rw [if_neg (by omega), if_pos rfl, if_pos rfl]
  · rw [if_neg h1, if_neg (by omega : ¬ j = k)]
    by_cases h2 : k = j + l
    · rw [if_pos h2.symm, if_pos h2]
    · rw [if_neg (by omega : ¬ j + l = k), if_neg h2]

/-- The butterflies `start .. start + n - 1` of one block (R86): each takes its two coefficients as they were. -/
theorem coef_nttPairs (zeta : Int) {l start n k : Nat} (p : Poly) (hn : n ≤ l) (hs : start + 2 * l ≤ 256) (hk : k < 256) :
    coef ((List.range n).foldl (fun p i => nttPair zeta l p (start + i)) p) k =
      if start ≤ k ∧ k < start + n then (butterfly (coef p k) (coef p (k + l)) zeta).1
      else if start + l ≤ k ∧ k < start + l + n then (butterfly (coef p (k - l)) (coef p k) zeta).2
      else coef p k := by
  induction n generalizing k with
  | zero => rw [if_neg (by omega), if_neg (by omega)]; rfl
  | succ n ih =>
    rw [List.range_succ, List.foldl_append, List.foldl_cons, List.foldl_nil,
      coef_nttPair _ _ (by omega) (by omega) hk]
    have fresh : ∀ j, start + n ≤ j → j < start + l ∨ start + l + n ≤ j → j < 256 →
        coef ((List.range n).foldl (fun p i => nttPair zeta l p (start + i)) p) j = coef p j := fun j h1 h2 h3 => by
      rw [ih (by omega) h3, if_neg (by omega), if_neg (by omega)]
    rw [fresh (start + n) (by omega) (by omega) (by omega), fresh (start + n + l) (by omega) (by omega) (by omega)]
    by_cases h1 : k = start + n
    · subst h1
      rw [if_pos rfl, if_pos (by omega)]
    · rw [if_neg h1]
      by_cases h2 : k = start + n + l
      · subst h2
        rw [if_pos rfl, if_neg (by omega), if_pos (by omega), show start + n + l - l = start + n by omega]
      · rw [if_neg h2, ih (by omega) hk]
        by_cases h3 : start ≤ k ∧ k < start + n
        · rw [if_pos h3, if_pos (by omega)]
        · by_cases h4 : start + l ≤ k ∧ k < start + l + n
          · rw [if_neg h3, if_pos h4, if_neg (by omega), if_pos (by omega)]
          · rw [if_neg h3, if_neg h4, if_neg (by omega), if_neg (by omega)]

/-- One block of span `l` (R86). -/
theorem coef_nttBlock (zeta : Int) {l start k : Nat} (p : Poly) (hs : start + 2 * l ≤ 256) (hk : k < 256) :
    coef (nttBlock zeta l start p) k =
      if start ≤ k ∧ k < start + l then (butterfly (coef p k) (coef p (k + l)) zeta).1
      else if start + l ≤ k ∧ k < start + 2 * l then (butterfly (coef p (k - l)) (coef p k) zeta).2
      else coef p k := by
  rw [nttBlock, coef_nttPairs zeta p (le_refl l) hs hk, show start + l + l = start + 2 * l by omega]

/-- The first `n` blocks of one level, with zetas `K .. K + n - 1`: block `b`'s coefficients are its
butterflies', the blocks to come are untouched (R86). -/
theorem nttBlocks (p : Poly) (K : Nat) {l n : Nat} (hn : 2 * l * n ≤ 256) :
    let q := (List.range n).foldl (fun ck b => (nttBlock (ZETA ck.2) l (2 * l * b) ck.1, ck.2 + 1)) (p, K)
    q.2 = K + n ∧
      (∀ b j, b < n → j < l →
        coef q.1 (2 * l * b + j) =
          (butterfly (coef p (2 * l * b + j)) (coef p (2 * l * b + j + l)) (ZETA (K + b))).1 ∧
        coef q.1 (2 * l * b + j + l) =
          (butterfly (coef p (2 * l * b + j)) (coef p (2 * l * b + j + l)) (ZETA (K + b))).2) ∧
      ∀ k, 2 * l * n ≤ k → k < 256 → coef q.1 k = coef p k := by
  induction n with
  | zero => exact ⟨rfl, fun _ _ h => absurd h (Nat.not_lt_zero _), fun _ _ _ => rfl⟩
  | succ n ih =>
    have e : 2 * l * (n + 1) = 2 * l * n + 2 * l := Nat.mul_succ _ _
    obtain ⟨i1, i2, i3⟩ := ih (by omega)
    simp only [List.range_succ, List.foldl_append, List.foldl_cons, List.foldl_nil]
    refine ⟨by rw [i1]; omega, fun b j hb hj => ?_, fun k h1 h2 => ?_⟩
    · have hle : b < n → 2 * l * b + 2 * l ≤ 2 * l * n := fun h => by
        have := Nat.mul_le_mul_left (2 * l) (show b + 1 ≤ n from h)
        rw [Nat.mul_succ] at this
        exact this
      rcases Nat.lt_succ_iff_lt_or_eq.mp hb with h | rfl
      · have := hle h
        rw [coef_nttBlock _ _ (by omega) (by omega), coef_nttBlock _ _ (by omega) (by omega), if_neg (by omega),
          if_neg (by omega), if_neg (by omega), if_neg (by omega)]
        exact i2 b j h hj
      · rw [coef_nttBlock _ _ (by omega) (by omega), coef_nttBlock _ _ (by omega) (by omega), if_pos (by omega),
          if_neg (by omega), if_pos (by omega), i1, i3 _ (by omega) (by omega), i3 _ (by omega) (by omega),
          show 2 * l * b + j + l - l = 2 * l * b + j by omega, i3 _ (by omega) (by omega)]
        exact ⟨rfl, rfl⟩
    · rw [coef_nttBlock _ _ (by omega) h2, if_neg (by omega), if_neg (by omega)]
      exact i3 k (by omega) h2

/-- A stored polynomial of 16-bit coefficients reads back whole. -/
theorem readPoly_storePoly (m : Memory) (b : Fin 8) {p : Poly}
    (hp : ∀ (j : Nat) (h : j < 256), (-32768 : Int) ≤ p[j] ∧ p[j] < 32768) : readPoly (storePoly m b p) b = some p :=
  readPoly_eq_some_iff.mpr fun j h => by rw [coefAt_storePoly m b p j h, s16_of_range (hp j h)]

/-- A store of one bank leaves what another reads. -/
theorem readPoly_storePoly_other {m : Memory} {b b' : Fin 8} {p q : Poly} (hb : b' ≠ b)
    (hq : readPoly m b' = some q) : readPoly (storePoly m b p) b' = some q :=
  readPoly_eq_some_iff.mpr fun j h => by
    rw [coefAt_storePoly_other m p hb j h, readPoly_eq_some_iff.mp hq j h]

end Sys2Proof.Machine
end

