-- ==== Sys2Proof/Laws/Sponge.lean ====
section
/-! SUPPORT. How many bytes the sponge's parts give. -/

namespace Sys2Proof.Machine

@[simp] theorem padBlock_length (r : Nat) (pad : Byte) (T : List Byte) : (padBlock r pad T).length = r := by
  simp [padBlock]

/-- The squeeze gives what is still wanted, if its fuel is enough: each chunk has at least one byte. -/
theorem squeezeFrom_length {r n fuel j : Nat} (hr : 0 < r) (hf : n - j ≤ fuel) (first : Bool) (A : KState) :
    (squeezeFrom r n fuel j first A).1.length = n - j := by
  induction fuel generalizing j first A with
  | zero => simp only [squeezeFrom, List.length_nil]; omega
  | succ fuel ih =>
    simp only [squeezeFrom]
    split
    case isTrue hj =>
      rw [List.length_append, ih (by omega)]
      simp only [stateBytes, List.length_map, List.length_range]
      omega
    case isFalse hj => simp only [List.length_nil]; omega

theorem squeezeShake_length {r : Nat} (hr : 0 < r) (n : Nat) (A : KState) : (squeezeShake r n A).1.length = n :=
  (squeezeFrom_length hr (by omega) _ _).trans (by omega)

theorem squeezeSha3_length (n : Nat) (A : KState) : (squeezeSha3 n A).1.length = n := by
  simp [squeezeSha3, stateBytes]

end Sys2Proof.Machine
end

