-- ==== Sys2Proof/Laws/Step.lean ====
section
/-! SUPPORT. Whose step a step is, said once. -/

namespace Sys2Proof.Machine

/-- A step is the pending command's, when its turn has come, or one of the host's. -/
theorem step_cases (s : State) :
    (s.eng = .idle ∧ step s = hostStep s) ∨
    ∃ i snap, s.eng = .pending i snap ∧
      ((engineTurn s = true ∧ step s = exec i s) ∨ (engineTurn s = false ∧ step s = hostStep (waitOne s))) := by
  unfold step
  cases he : s.eng with
  | idle => exact .inl ⟨rfl, rfl⟩
  | pending i snap =>
    refine .inr ⟨i, snap, rfl, ?_⟩
    cases ht : engineTurn s with
    | true => exact .inl ⟨rfl, rfl⟩
    | false => exact .inr ⟨rfl, rfl⟩

theorem engineTurn_eq_false_iff {s : State} : engineTurn s = false ↔ s.wait ≠ 0 ∧ hostStopped s = false := by
  simp [engineTurn]

/-- The count of host steps to come is no part of what the host looks at. -/
@[simp] theorem hostStopped_waitOne (s : State) : hostStopped (waitOne s) = hostStopped s := rfl

end Sys2Proof.Machine
end

