-- ==== Sys2Proof/Laws/Window.lean ====
section
/-! SUPPORT. Laws of the window: where each offset of the map lies, which accesses have a step, and what
a host read, a host write and a host step can do, each said once. -/

namespace Sys2Proof.Machine

/-! ### The map -/

theorem locate_keccak {w : Nat} (h : w < 50) : locate (0x100 + 4 * w) = .keccak w := by
  unfold locate
  repeat rw [if_neg (by omega)]
  rw [if_pos (by omega)]
  congr 1
  omega

theorem locate_zeta {k : Nat} (h : k < 128) : locate (0x200 + 4 * k) = .zeta k := by
  unfold locate
  repeat rw [if_neg (by omega)]
  rw [if_pos (by omega)]
  congr 1
  omega

theorem locate_rc {r h : Nat} (hr : r < 24) (hh : h < 2) : locate (0x400 + 8 * r + 4 * h) = .rc r h := by
  unfold locate
  repeat rw [if_neg (by omega)]
  rw [if_pos (by omega)]
  congr 1 <;> omega

theorem locate_rho {i : Nat} (h : i < 25) : locate (0x500 + 4 * i) = .rho i := by
  unfold locate
  repeat rw [if_neg (by omega)]
  rw [if_pos (by omega)]
  congr 1
  omega

theorem locate_msg {m : Nat} (h : m < 256) : locate (0x800 + 4 * m) = .msg m := by
  unfold locate
  repeat rw [if_neg (by omega)]
  rw [if_pos (by omega)]
  congr 1
  omega

theorem locate_out {m : Nat} (h : m < 256) : locate (0xC00 + 4 * m) = .out m := by
  unfold locate
  repeat rw [if_neg (by omega)]
  rw [if_pos (by omega)]
  congr 1
  omega

theorem locate_bank {b m : Nat} (hb : b < 8) (hm : m < 128) : locate (0x1000 + 0x200 * b + 4 * m) = .bank b m := by
  unfold locate
  repeat rw [if_neg (by omega)]
  rw [if_pos (by omega)]
  congr 1 <;> omega

/-- The reserved offsets of R27. -/
theorem locate_reserved {off : Nat} (ha : off % 4 = 0)
    (h : off = 0x01C ∨ (0x028 ≤ off ∧ off < 0x100) ∨ (0x1C8 ≤ off ∧ off < 0x200) ∨ (0x4C0 ≤ off ∧ off < 0x500) ∨
      (0x564 ≤ off ∧ off < 0x800)) : locate off = .reserved := by
  unfold locate
  repeat rw [if_neg (by omega)]

theorem ite_cases {α : Type} {c : Prop} [Decidable c] {a b x : α} {P : Prop} (h1 : c → a = x → P)
    (h2 : ¬c → b = x → P) (h : (if c then a else b) = x) : P := by
  by_cases hc : c
  · exact h1 hc (by rw [← h, if_pos hc])
  · exact h2 hc (by rw [← h, if_neg hc])

/-! What a data location says of its offset: it is the word's own, aligned and inside its region. -/

theorem locate_eq_keccak {off w : Nat} (ha : off % 4 = 0) (h : locate off = .keccak w) :
    w < 50 ∧ off = keccakBase + 4 * w := by
  unfold locate at h
  revert h
  iterate 9 (refine ite_cases (fun _ h => nomatch h) (fun _ => ?_))
  refine ite_cases (fun hc h => ?_) (fun _ => ?_)
  · have h' := Location.keccak.inj h
    simp only [keccakBase]
    omega
  iterate 6 (refine ite_cases (fun _ h => nomatch h) (fun _ => ?_))
  exact fun h => nomatch h

theorem locate_eq_msg {off m : Nat} (ha : off % 4 = 0) (h : locate off = .msg m) :
    m < 256 ∧ off = msgBase + 4 * m := by
  unfold locate at h
  revert h
  iterate 13 (refine ite_cases (fun _ h => nomatch h) (fun _ => ?_))
  refine ite_cases (fun hc h => ?_) (fun _ => ?_)
  · have h' := Location.msg.inj h
    simp only [msgBase]
    omega
  iterate 2 (refine ite_cases (fun _ h => nomatch h) (fun _ => ?_))
  exact fun h => nomatch h

theorem locate_eq_out {off m : Nat} (ha : off % 4 = 0) (h : locate off = .out m) :
    m < 256 ∧ off = outBase + 4 * m := by
  unfold locate at h
  revert h
  iterate 14 (refine ite_cases (fun _ h => nomatch h) (fun _ => ?_))
  refine ite_cases (fun hc h => ?_) (fun _ => ?_)
  · have h' := Location.out.inj h
    simp only [outBase]
    omega
  iterate 1 (refine ite_cases (fun _ h => nomatch h) (fun _ => ?_))
  exact fun h => nomatch h

theorem locate_eq_bank {off b m : Nat} (ha : off % 4 = 0) (h : locate off = .bank b m) :
    b < 8 ∧ m < 128 ∧ off = bankBase b + 4 * m := by
  unfold locate at h
  revert h
  iterate 15 (refine ite_cases (fun _ h => nomatch h) (fun _ => ?_))
  refine ite_cases (fun hc h => ?_) (fun _ => ?_)
  · have h' := Location.bank.inj h
    simp only [bankBase]
    omega
  exact fun h => nomatch h

/-! ### Which accesses have a step -/

theorem accessOffset_rel {off : Nat} (ha : off % 4 = 0) (h : off < 0x2000) : accessOffset (.rel off) 4 = .ok off := by
  have h' : off < 8192 := h
  simp [accessOffset, ha, h']

/-- `BASE` is a multiple of 4, so an absolute address is the offset's access and no other (R26, R31). -/
theorem accessOffset_abs (off width : Nat) :
    accessOffset (.abs (Config.base + off)) width = accessOffset (.rel off) width := by
  have hb : Config.base = 4 * Config.baseWords := rfl
  have h1 : (Config.base + off) % 4 = off % 4 := by omega
  simp [accessOffset, h1]

/-- An access that has a step is aligned and inside the window. -/
theorem accessOffset_ok {a : HostAddr} {width off : Nat} (h : accessOffset a width = .ok off) :
    width = 4 ∧ off % 4 = 0 ∧ off < 0x2000 := by
  have hb : Config.base = 4 * Config.baseWords := rfl
  unfold accessOffset at h
  split at h
  · cases h
  case isFalse hw =>
    have hw' : width = 4 := by omega
    cases a with
    | rel o =>
      dsimp only at h
      split_ifs at h with h1 h2
      cases h
      exact ⟨hw', by omega, h2⟩
    | abs addr =>
      dsimp only at h
      split_ifs at h with h1 h2
      cases h
      simp only [Config.WINDOW_BYTES] at h2
      exact ⟨hw', by omega, by omega⟩

theorem memRead_rel {s : State} {off : Nat} (ha : off % 4 = 0) (h : off < 0x2000) :
    memRead s (.rel off) 4 = readLocation s (locate off) := by
  unfold memRead
  rw [accessOffset_rel ha h]

theorem memWrite_rel {s : State} {off : Nat} {v : Word} (ha : off % 4 = 0) (h : off < 0x2000) :
    memWrite s (.rel off) 4 v = writeLocation s v (locate off) := by
  unfold memWrite
  rw [accessOffset_rel ha h]

/-! ### What a host access can do -/

theorem readLocation_next {s t : State} {l : Location} {v : Word} (h : readLocation s l = .next (v, t)) :
    t = s ∨ (s.status.busy = true ∧ t = (draw s).2) := by
  have data : ∀ off, readData s off = .next (v, t) → t = s := fun off hd => by
    unfold readData at hd
    split at hd <;> cases hd
    rfl
  have whenQuiet : ∀ q, readUnlessBusy s q = .next (v, t) → (q = .next (v, t) → t = s) →
      t = s ∨ (s.status.busy = true ∧ t = (draw s).2) := fun q hq hn => by
    unfold readUnlessBusy at hq
    split at hq
    case isTrue hb =>
      refine .inr ⟨hb, ?_⟩
      exact (Prod.mk.inj (Host.Outcome.next.inj hq)).2.symm
    case isFalse => exact .inl (hn hq)
  cases l <;> simp only [readLocation] at h
  case keccak w => exact whenQuiet _ h (data _)
  case out m => exact whenQuiet _ h (data _)
  case bank b m => exact whenQuiet _ h (data _)
  case msg m => exact .inl (data _ h)
  case res0 => exact whenQuiet _ h fun hq => (Prod.mk.inj (Host.Outcome.next.inj hq)).2.symm
  case res1 => exact whenQuiet _ h fun hq => (Prod.mk.inj (Host.Outcome.next.inj hq)).2.symm
  all_goals exact .inl (Prod.mk.inj (Host.Outcome.next.inj h)).2.symm

/-- A read leaves the state as it is; a draw only counts itself (R36). -/
theorem memRead_next {s t : State} {a : HostAddr} {width : Nat} {v : Word} (h : memRead s a width = .next (v, t)) :
    t = s ∨ (s.status.busy = true ∧ t = (draw s).2) := by
  unfold memRead at h
  split at h
  · cases h
  · exact readLocation_next h

/-- How a host write may change the block. -/
inductive WriteEffect (s : State) (v : Word) : State → Prop where
  | none : WriteEffect s v s
  | issue : WriteEffect s v (issueCommand v s)
  | status : WriteEffect s v { s with status := statusW1c s.status v }
  | msgLen : WriteEffect s v { s with msgLen := v }
  | outLen : WriteEffect s v { s with outLen := v }
  | arg0 : WriteEffect s v { s with arg0 := v }
  | arg1 : WriteEffect s v { s with arg1 := v }
  | arg2 : WriteEffect s v { s with arg2 := v }
  | keccak (w : Nat) (hw : w < 50) (hb : s.status.busy = false) :
      WriteEffect s v { s with mem := writeWord s.mem (keccakBase + 4 * w) v }
  | msg (m : Nat) (hm : m < 256) (hb : s.status.busy = false) :
      WriteEffect s v { s with mem := writeWord s.mem (msgBase + 4 * m) v }
  | bank (b m : Nat) (hb8 : b < 8) (hm : m < 128) (hb : s.status.busy = false) :
      WriteEffect s v { s with mem := writeWord s.mem (bankBase b + 4 * m) v }

theorem writeData_next {s t : State} {off : Nat} {v : Word} (h : writeData s off v = .next t) :
    s.status.busy = false ∧ t = { s with mem := writeWord s.mem off v } := by
  unfold writeData at h
  split at h
  · cases h
  case isFalse hb => exact ⟨by simpa using hb, (Host.Outcome.next.inj h).symm⟩

/-- Everything a host write can do. -/
theorem memWrite_next {s t : State} {a : HostAddr} {width : Nat} {v : Word} (h : memWrite s a width v = .next t) :
    WriteEffect s v t := by
  unfold memWrite at h
  split at h
  · cases h
  case h_2 off ho =>
    have ha := (accessOffset_ok ho).2.1
    cases hl : locate off <;> rw [hl] at h <;> simp only [writeLocation] at h
    case keccak w =>
      obtain ⟨hbusy, rfl⟩ := writeData_next h
      exact .keccak w (locate_eq_keccak ha hl).1 hbusy
    case msg m =>
      obtain ⟨hbusy, rfl⟩ := writeData_next h
      exact .msg m (locate_eq_msg ha hl).1 hbusy
    case bank b m =>
      obtain ⟨hbusy, rfl⟩ := writeData_next h
      exact .bank b m (locate_eq_bank ha hl).1 (locate_eq_bank ha hl).2.1 hbusy
    all_goals
      cases h
      first
      | exact .none
      | exact .issue
      | exact .status
      | exact .msgLen
      | exact .outLen
      | exact .arg0
      | exact .arg1
      | exact .arg2

/-- How an issue may change the block (R95): dropped, rejected by one flag, or accepted. -/
theorem issueCommand_cases (w : Word) (s : State) :
    (s.status.busy = true ∧ issueCommand w s = { s with status := statusFlag s.status .busy }) ∨
    (s.status.busy = false ∧ (∃ y, decode w = .illegal y) ∧
      issueCommand w s = raiseError .illegal { s with cmdLast := w }) ∨
    (s.status.busy = false ∧ ∃ i, decode w = .command i ∧
      ((lengthsOk i (liveSnapshot s) = true ∧
          issueCommand w s = acceptCommand i (liveSnapshot s) { s with cmdLast := w }) ∨
        (lengthsOk i (liveSnapshot s) = false ∧ issueCommand w s = raiseError .len { s with cmdLast := w }))) := by
  unfold issueCommand
  cases hb : s.status.busy with
  | true => exact .inl ⟨rfl, rfl⟩
  | false =>
    refine .inr ?_
    simp only [Bool.false_eq_true, if_false]
    cases hd : decode w with
    | illegal y => exact .inl ⟨trivial, ⟨y, rfl⟩, rfl⟩
    | command i =>
      refine .inr ⟨trivial, i, rfl, ?_⟩
      have hsnap : liveSnapshot { s with cmdLast := w } = liveSnapshot s := rfl
      cases hl : lengthsOk i (liveSnapshot s) with
      | true => exact .inl ⟨rfl, by simp only [issueDecoded, hsnap, hl, if_true]⟩
      | false => exact .inr ⟨rfl, by simp only [issueDecoded, hsnap, hl, Bool.false_eq_true, if_false]⟩

/-! ### What has no step -/

theorem readLocation_ne_refused (s : State) (l : Location) (r : Refusal) : readLocation s l ≠ .refused r := by
  have data : ∀ off, readData s off ≠ .refused r := fun off h => by
    unfold readData at h
    split at h <;> cases h
  have whenQuiet : ∀ q : ReadResult, q ≠ .refused r → readUnlessBusy s q ≠ .refused r := fun q hq h => by
    unfold readUnlessBusy at h
    split at h
    · cases h
    · exact hq h
  cases l <;> simp only [readLocation]
  case keccak w => exact whenQuiet _ (data _)
  case out m => exact whenQuiet _ (data _)
  case bank b m => exact whenQuiet _ (data _)
  case msg m => exact data _
  case res0 => exact whenQuiet _ fun h => nomatch h
  case res1 => exact whenQuiet _ fun h => nomatch h
  all_goals exact fun h => nomatch h

theorem writeLocation_ne_refused (s : State) (v : Word) (l : Location) (r : Refusal) :
    writeLocation s v l ≠ .refused r := by
  have data : ∀ off, writeData s off v ≠ .refused r := fun off h => by
    unfold writeData at h
    split at h <;> cases h
  cases l <;> simp only [writeLocation]
  case keccak w => exact data _
  case msg m => exact data _
  case bank b m => exact data _
  all_goals exact fun h => nomatch h

theorem memRead_refused_iff {s : State} {a : HostAddr} {width : Nat} :
    (∃ r, memRead s a width = .refused r) ↔ accessRefused a width = true := by
  unfold memRead accessRefused
  cases accessOffset a width with
  | error r => simp
  | ok off => simp [readLocation_ne_refused]

theorem memWrite_refused_iff {s : State} {a : HostAddr} {width : Nat} {v : Word} :
    (∃ r, memWrite s a width v = .refused r) ↔ accessRefused a width = true := by
  unfold memWrite accessRefused
  cases accessOffset a width with
  | error r => simp
  | ok off => simp [writeLocation_ne_refused]

theorem hostRead_refused_iff {s : State} {a : HostAddr} {width t : Nat} :
    (∃ r, hostRead s a width t = .refused r) ↔ accessRefused a width = true := by
  rw [← memRead_refused_iff (s := s)]
  unfold hostRead
  cases memRead s a width <;> simp

theorem hostWrite_refused_iff {s : State} {a : HostAddr} {width : Nat} {v : Word} :
    (∃ r, hostWrite s a width v = .refused r) ↔ accessRefused a width = true := by
  rw [← memWrite_refused_iff (s := s) (v := v)]
  unfold hostWrite
  cases memWrite s a width v <;> simp

/-- A line that has no step stops the host: the engine's turn does not wait for it (R118). -/
theorem hostStopped_of_refused {s : State} {r : Refusal} (h : hostStep s = .refused r) : hostStopped s = true := by
  unfold hostStep at h
  unfold hostStopped
  cases hl : hostLine s with
  | none => rfl
  | some l =>
    rw [hl] at h
    cases l with
    | write a width v => exact hostWrite_refused_iff.mp ⟨r, h⟩
    | read a width t => exact hostRead_refused_iff.mp ⟨r, h⟩
    | label n => cases h
    | branch c n =>
      simp only [hostLineStep, hostGoto] at h
      cases hc : hostCond s.host c with
      | false => rw [hc] at h; cases h
      | true =>
        cases hn : labelLine s.host.program n with
        | none => simp [hc, hn]
        | some k => rw [hc, hn] at h; cases h
    | halt => rfl
    | reset => cases h

/-! ### What a host step can do -/

/-- How a host step may change the whole state. -/
inductive HostEffect (s : State) : State → Prop where
  /-- no line left, or HALT -/
  | stay : HostEffect s s
  | write (v : Word) (t : State) (h : WriteEffect s v t) : HostEffect s (nextLine t)
  | read (v : Word) (x : Nat) (u : State) (h : u = s ∨ (s.status.busy = true ∧ u = (draw s).2)) :
      HostEffect s (nextLine { u with host := setVar u.host x v })
  | skip : HostEffect s (nextLine s)
  | goto (n : Nat) : HostEffect s { s with host := { s.host with line := n } }
  | reset : HostEffect s (nextLine (resetBlock s))

/-- Everything a host step can do. -/
theorem hostStep_next {s t : State} (h : hostStep s = .next t) : HostEffect s t := by
  unfold hostStep at h
  split at h
  · cases h; exact .stay
  case h_2 l _ =>
    cases l with
    | write a width v =>
      simp only [hostLineStep, hostWrite] at h
      split at h <;> cases h
      case h_1 u hu => exact .write _ u (memWrite_next hu)
    | read a width x =>
      simp only [hostLineStep, hostRead] at h
      split at h <;> cases h
      case h_1 r hr => exact .read _ x r.2 (memRead_next (v := r.1) (by rw [hr]))
    | label n => cases h; exact .skip
    | branch c n =>
      simp only [hostLineStep, hostGoto] at h
      split at h
      · split at h <;> cases h
        exact .goto _
      · cases h; exact .skip
    | halt => cases h; exact .stay
    | reset => cases h; exact .reset

end Sys2Proof.Machine
end

