-- ==== Sys2Proof/Tests/Slice0.lean ====
section
/-! SUPPORT. The model's own tests: decoding by written-out words, ill-formed terms refused, one step of each
command and of the window, with the expected values of spec/95_test_vectors.md (its ids are named), and a
witness for the hypotheses of every statement that has some. -/

namespace Sys2Proof.Tests

open Sys2Proof.Machine

/-! ### Helpers -/

/-- What `f` sees in the next state, if there is one. -/
def after {α β : Type} (o : Host.Outcome α Fault Refusal) (f : α → β) : Option β :=
  match o with
  | .next t => some (f t)
  | .fault _ => none
  | .refused _ => none

/-- The fault, if the outcome is one. -/
def faultOf {α : Type} (o : Host.Outcome α Fault Refusal) : Option Fault :=
  match o with
  | .next _ => none
  | .fault f => some f
  | .refused _ => none

/-- The refusal, if the outcome is one. -/
def refusalOf {α : Type} (o : Host.Outcome α Fault Refusal) : Option Refusal :=
  match o with
  | .next _ => none
  | .fault _ => none
  | .refused r => some r

/-- The state after reset with this data memory. -/
def withMem (m : Memory) : State := { State.reset with mem := m }

/-- The state after reset with these scalar operands. -/
def withArgs (a b k : Word) : State := { State.reset with arg0 := a, arg1 := b, arg2 := k }

/-- The state after reset with this message and these lengths. -/
def withMsg (bs : List Byte) (n : Nat) : State :=
  { State.reset with mem := writeBytes [] msgBase bs, msgLen := BitVec.ofNat 32 bs.length, outLen := BitVec.ofNat 32 n }

/-- The polynomial whose coefficients begin as listed and are 0 after. -/
def polyOf (l : List Int) : Poly := Vector.ofFn fun j => l.getD j.val 0

/-- The state with a command pending, as issued now. -/
def pend (i : Instr) (s : State) : State :=
  { s with status := { s.status with busy := true, done := false }, eng := .pending i (liveSnapshot s) }

/-- The coefficients that bank `b` holds from 0 on. -/
def bankFirst (b n : Nat) (t : State) : List (Option Int) := (List.range n).map (coefAt t.mem b)

/-! ### Decoding -/

theorem test_decode_keccakF : decode 0x00000001#32 = .command .keccakF := by decide
theorem test_decode_stateClear : decode 0x00000002#32 = .command .stateClear := by decide
theorem test_decode_sha3_256 : decode 0x00000003#32 = .command .sha3_256 := by decide
theorem test_decode_sha3_512 : decode 0x00000103#32 = .command .sha3_512 := by decide
theorem test_decode_shake128 : decode 0x00000203#32 = .command .shake128 := by decide
theorem test_decode_shake256 : decode 0x00000303#32 = .command .shake256 := by decide
theorem test_decode_barrett : decode 0x00000010#32 = .command .barrett := by decide
theorem test_decode_montgomery : decode 0x00000011#32 = .command .montgomery := by decide
theorem test_decode_csubq : decode 0x00000012#32 = .command .csubq := by decide
theorem test_decode_butterfly : decode 0x00000013#32 = .command .butterfly := by decide
/-- RD = 5 in bits 14:12. -/
theorem test_decode_ntt : decode 0x00005020#32 = .command (.ntt 5) := by decide
/-- RD = 1, RA = 4, RB = 6: `0x21 | 1 << 12 | 4 << 16 | 6 << 20`. -/
theorem test_decode_basemul : decode 0x00641021#32 = .command (.basemul 1 4 6) := by decide
theorem test_decode_padd : decode 0x00777022#32 = .command (.padd 7 7 7) := by decide
/-- RD = 4, RA = 2, RB = 5. -/
theorem test_decode_psub : decode 0x00524023#32 = .command (.psub 4 2 5) := by decide
theorem test_decode_preduce : decode 0x00073024#32 = .command (.preduce 3 7) := by decide

/-- V-E7 to V-E10: unassigned codes. -/
theorem test_decode_unassigned :
    decode 0x00000000#32 = .illegal .unassignedOp ∧ decode 0x00000004#32 = .illegal .unassignedOp ∧
    decode 0x00000025#32 = .illegal .unassignedOp ∧ decode 0x00000403#32 = .illegal .unassignedFn := by decide

/-- V-E11 to V-E13, V-E18: a field the command does not use. -/
theorem test_decode_unused_field :
    decode 0x00001001#32 = .illegal .unusedField ∧ decode 0x00010020#32 = .illegal .unusedField ∧
    decode 0x00173024#32 = .illegal .unusedField ∧ decode 0x00000110#32 = .illegal .unusedField := by decide

/-- V-E14 to V-E17: reserved bits 15, 19, 23 and 31. -/
theorem test_decode_reserved_bits :
    decode 0x00008020#32 = .illegal .reservedBits ∧ decode 0x00080021#32 = .illegal .reservedBits ∧
    decode 0x00800022#32 = .illegal .reservedBits ∧ decode 0x80000013#32 = .illegal .reservedBits := by decide

/-! ### Well-formedness refuses -/

theorem test_wf_refuses_reserved_bit : (wordFields 0x00080021#32).reservedZero = false := by decide
theorem test_wf_refuses_unassigned_op : (wordFields 0x00000004#32).opAssigned = false := by decide
theorem test_wf_refuses_unassigned_fn : (wordFields 0x00000403#32).fnLegal = false := by decide
theorem test_wf_refuses_fn_elsewhere : (wordFields 0x00000110#32).fnLegal = false := by decide
theorem test_wf_refuses_unused_bank : (wordFields 0x00173024#32).banksLegal = false := by decide
theorem test_wf_accepts_basemul : (wordFields 0x00102021#32).wf = true := by decide

theorem test_program_wf_refuses_width : programWf [.write (.rel 0x800) 1 (.imm 0#32)] = false := by decide
theorem test_program_wf_refuses_misaligned : programWf [.read (.rel 0x002) 4 0] = false := by decide
theorem test_program_wf_refuses_outside : programWf [.read (.rel 0x2000) 4 0] = false := by decide
theorem test_program_wf_refuses_absolute : programWf [.read (.abs 0x1000) 4 0] = false := by decide
theorem test_program_wf_refuses_unknown_label : programWf [.branch (.same 0 0) 1] = false := by decide
theorem test_program_wf_refuses_label_twice : programWf [.label 1, .label 1] = false := by decide
theorem test_program_wf_accepts : programWf (pseudoExec (.ntt 3) 1 0 ++ [.halt]) = true := by decide

/-! ### Scalar commands -/

/-- V-M13. -/
theorem test_barrett_negative_multiple :
    after (exec .barrett (withArgs 0xFFFFF2FF#32 0 0)) (·.res0) = some 0x00000D01#32 := by decide
/-- V-M18: only the low half of ARG0. -/
theorem test_barrett_low_half :
    after (exec .barrett (withArgs 0xFFFF0D01#32 0 0)) (·.res0) = some 0x00000000#32 := by decide
/-- V-M26. -/
theorem test_montgomery_negative_result :
    after (exec .montgomery (withArgs 0x0023B209#32 0 0)) (·.res0) = some 0xFFFFFD0A#32 := by decide
/-- V-M33. -/
theorem test_montgomery_least :
    after (exec .montgomery (withArgs 0x80000000#32 0 0)) (·.res0) = some 0xFFFF8000#32 := by decide
/-- V-M40: an input of at least 2Q is not made canonical. -/
theorem test_csubq_twice_q :
    after (exec .csubq (withArgs 6658#32 0 0)) (·.res0) = some 0x00000D01#32 := by decide
/-- V-M44. -/
theorem test_csubq_wraps :
    after (exec .csubq (withArgs 0x8000#32 0 0)) (·.res0) = some 0x000072FF#32 := by decide
/-- V-M49. -/
theorem test_butterfly_reduces :
    after (exec .butterfly (withArgs 3332#32 3326#32 127#32)) (fun t => (t.res0, t.res1)) =
      some (0x000000C7#32, 0x00000C40#32) := by decide
/-- V-M48 with ARG2 = 0x85: bits 31:7 of ARG2 are ignored. -/
theorem test_butterfly_index_bits :
    after (exec .butterfly (withArgs 100#32 200#32 0x85#32)) (fun t => (t.res0, t.res1)) =
      some (0x00000B6F#32, 0x0000025A#32) := by decide

/-! ### Keccak and the sponge -/

/-- V-K6: rounds 0 and 1 on the zero state. -/
theorem test_first_rounds :
    keccakRound zeroState 0 = zeroState.set 0 1#64 ∧
      laneOf (keccakRound (keccakRound zeroState 0) 1) 0 = 0x0000000000008083#64 := by decide +kernel

/-- V-S2: SHA3-256 of "abc", the state that SHA3_256 leaves in `S` and takes its output from. -/
theorem test_sha3_256_abc :
    laneOf (absorbAll 136 0x06#8 [0x61#8, 0x62#8, 0x63#8]) 0 = 0xB225E24FA75D983A#64 := by decide +kernel

/-- V-W6: `rotl64`. -/
theorem test_rotl64 :
    rotl64 0x0123456789ABCDEF#64 0 = 0x0123456789ABCDEF#64 ∧
      rotl64 0x8000000000000001#64 1 = 0x0000000000000003#64 := by decide

/-- V-W3: with 71 bytes in a block of 72, pad byte and 0x80 share the last byte, 0x86 for SHA3 and 0x9F for SHAKE. -/
theorem test_pad_shares_last_byte :
    (padBlock 72 0x06#8 (List.replicate 71 0#8))[71]? = some 0x86#8 ∧
      (padBlock 168 0x1F#8 (List.replicate 167 0#8))[167]? = some 0x9F#8 := by decide

/-- V-I9: KECCAK_F right after reset reads an `S` that nothing has written. -/
theorem test_keccakF_after_reset_faults :
    faultOf (step (State.reset.withFetchWord 32 0x00000001)) = some .unwrittenRead := by decide

/-- V-K7: STATE_CLEAR from a half-written state. -/
theorem test_stateClear_zeroes :
    after (step ((withMem [(0x104, 1#8), (0x105, 2#8)]).withFetchWord 32 0x00000002))
      (fun t => (readWord t.mem 0x100, readWord t.mem 0x104, readWord t.mem 0x1C4)) =
      some (some 0#32, some 0#32, some 0#32) := by decide +kernel

/-- V-S21: 1025 bytes of message are rejected with ERR_LEN and DONE by every sponge command, and only there. -/
theorem test_long_message_rejected :
    [0x003, 0x103, 0x203, 0x303, 0x010].map
      (fun w => after (memWrite { State.reset with msgLen := 1025#32 } (.rel 0x000) 4 (BitVec.ofNat 32 w))
        (fun t => statusWord t.status)) =
      [some 0x0A#32, some 0x0A#32, some 0x0A#32, some 0x0A#32, some 0x01#32] := by decide

/-- V-S21: OUTLEN is checked for SHAKE commands only, as an unsigned value. -/
theorem test_long_output_rejected :
    [0x003, 0x103, 0x203, 0x303].map
      (fun w => after (memWrite { State.reset with outLen := 0xFFFFFFFF#32 } (.rel 0x000) 4 (BitVec.ofNat 32 w))
        (fun t => statusWord t.status)) =
      [some 0x01#32, some 0x01#32, some 0x0A#32, some 0x0A#32] := by decide

/-! ### Polynomial commands -/

theorem polyOf_range {l : List Int} (h : ∀ c ∈ l, (-32768 : Int) ≤ c ∧ c < 32768) (j : Nat) (hj : j < 256) :
    (-32768 : Int) ≤ (polyOf l)[j] ∧ (polyOf l)[j] < 32768 := by
  simp only [polyOf, Vector.getElem_ofFn, List.getD_eq_getElem?_getD]
  cases hl : l[j]? with
  | none => simp
  | some c => exact h c (List.mem_of_getElem? hl)

theorem coef_polyOf (l : List Int) {j : Nat} (hj : j < 256) : coef (polyOf l) j = l.getD j 0 := by
  rw [polyOf, coef_ofFn _ hj]

/-- Banks 0 and 1 hold the listed coefficients; nothing else is written. -/
def banks (la lb : List Int) : State := withMem (storePoly (storePoly [] 0 (polyOf la)) 1 (polyOf lb))

theorem banks_read0 {la lb : List Int} (ha : ∀ c ∈ la, (-32768 : Int) ≤ c ∧ c < 32768) :
    readPoly (banks la lb).mem 0 = some (polyOf la) :=
  readPoly_storePoly_other (by decide) (readPoly_storePoly _ _ (polyOf_range ha))

theorem banks_read1 {la lb : List Int} (hb : ∀ c ∈ lb, (-32768 : Int) ≤ c ∧ c < 32768) :
    readPoly (banks la lb).mem 1 = some (polyOf lb) :=
  readPoly_storePoly _ _ (polyOf_range hb)

theorem bankFirst_store (s : State) (m : Memory) (d : Fin 8) (p : Poly) {n : Nat} (hn : n ≤ 256) :
    bankFirst d n (complete { s with mem := storePoly m d p }) =
      (List.range n).map (fun j => some (s16 (coef p j))) := by
  refine List.map_congr_left fun j hj => ?_
  have hj' : j < 256 := by have := List.mem_range.mp hj; omega
  rw [complete_mem, coefAt_storePoly m d p j hj', coef_eq hj']

/-- What bank 2 holds after a lanewise command on banks 0 and 1. -/
theorem lanes_after (f : Int → Int → Int) {la lb : List Int} (ha : ∀ c ∈ la, (-32768 : Int) ≤ c ∧ c < 32768)
    (hb : ∀ c ∈ lb, (-32768 : Int) ≤ c ∧ c < 32768) {n : Nat} (hn : n ≤ 256) :
    after (polyBinary (polyZip f) 2 0 1 (banks la lb)) (bankFirst 2 n) =
      some ((List.range n).map fun j => some (s16 (f (la.getD j 0) (lb.getD j 0)))) := by
  rw [polyBinary_eq (banks_read0 ha) (banks_read1 hb)]
  refine congrArg some ((bankFirst_store _ _ 2 _ hn).trans (List.map_congr_left fun j hj => ?_))
  have hj' : j < 256 := by have := List.mem_range.mp hj; omega
  rw [coef_polyZip _ _ _ hj', coef_polyOf _ hj', coef_polyOf _ hj']

/-- V-P14: no reduction, and the last two lanes wrap. -/
theorem test_padd_wraps :
    after (exec (.padd 2 0 1) (banks [1, 3328, 16384, -32768] [2, 3328, 16384, -1])) (bankFirst 2 5) =
      some [some 3, some 6656, some (-32768), some 32767, some 0] := by
  rw [show exec (.padd 2 0 1) = polyBinary (polyZip paddLane) 2 0 1 from rfl]
  exact (lanes_after paddLane (la := [1, 3328, 16384, -32768]) (lb := [2, 3328, 16384, -1]) (by decide) (by decide)
    (n := 5) (by decide)).trans (by decide)

/-- V-P15: RA is the minuend, and Q is added. -/
theorem test_psub_minuend :
    after (exec (.psub 2 0 1) (banks [5, 0, 0, -32768, 0, 3328] [3, 3328, -29440, 1, 0, 0])) (bankFirst 2 7) =
      some [some 3331, some 1, some (-32767), some (-29440), some 3329, some 6657, some 3329] := by
  rw [show exec (.psub 2 0 1) = polyBinary (polyZip psubLane) 2 0 1 from rfl]
  exact (lanes_after psubLane (la := [5, 0, 0, -32768, 0, 3328]) (lb := [3, 3328, -29440, 1, 0, 0]) (by decide) (by decide)
    (n := 7) (by decide)).trans (by decide)

/-- V-P16. -/
theorem test_preduce_lanes :
    after (exec (.preduce 2 0) (banks [3329, 6657, 32767, -3329, -1, 0, 6658, 9986] [])) (bankFirst 2 8) =
      some [some 0, some 3328, some 2806, some 3329, some 3328, some 0, some 0, some 3328] := by
  have h := polyUnary_eq (f := fun p => p.map barrett) (rd := 2)
    (banks_read0 (la := [3329, 6657, 32767, -3329, -1, 0, 6658, 9986]) (lb := []) (by decide))
  refine (congrArg (fun o => after o (bankFirst 2 8)) h).trans (congrArg some ?_)
  refine (bankFirst_store _ _ 2 _ (by decide)).trans ?_
  refine (List.map_congr_left (g := fun j => some (s16 (barrett
    (([3329, 6657, 32767, -3329, -1, 0, 6658, 9986] : List Int).getD j 0)))) fun j hj => ?_).trans (by decide)
  have hj' : j < 256 := by have := List.mem_range.mp hj; omega
  rw [coef_map _ _ hj', coef_polyOf _ hj']

/-- V-P11: `r[0]` to `r[3]` of BASEMUL, with the twiddles `z` and `Q - z`. -/
theorem test_basemul_group :
    let r := basemul (polyOf [1, 2, 3, 4]) (polyOf [5, 6, 7, 8])
    coef r 0 = 209 ∧ coef r 1 = 16 ∧ coef r 2 = 2806 ∧ coef r 3 = 52 := by
  refine ⟨(coef_basemul_even _ _ (i := 0) (by decide)).trans ?_, (coef_basemul_odd _ _ (i := 0) (by decide)).trans ?_,
    (coef_basemul_even _ _ (i := 1) (by decide)).trans ?_, (coef_basemul_odd _ _ (i := 1) (by decide)).trans ?_⟩ <;>
  · simp only [coef_polyOf _ (show 0 < 256 by decide), coef_polyOf _ (show 1 < 256 by decide),
      coef_polyOf _ (show 2 < 256 by decide), coef_polyOf _ (show 3 < 256 by decide), Nat.reduceMul, Nat.reduceAdd]
    decide

/-- V-M46 as a butterfly of the transform: zeta 1729, coefficients 0 and 128. -/
theorem test_ntt_butterfly_places :
    let r := nttPair 1729 128 (polyOf (1 :: List.replicate 127 0 ++ [1])) 0
    coef r 0 = 1730 ∧ coef r 128 = 1601 ∧ coef r 1 = 0 := by
  refine ⟨(coef_nttPair _ _ (by decide) (by decide) (by decide)).trans ?_,
    (coef_nttPair _ _ (by decide) (by decide) (by decide)).trans ?_,
    (coef_nttPair _ _ (by decide) (by decide) (by decide)).trans ?_⟩ <;>
  · simp only [coef_polyOf _ (show 0 < 256 by decide), coef_polyOf _ (show 1 < 256 by decide),
      coef_polyOf _ (show 128 < 256 by decide), Nat.reduceAdd]
    decide

/-- V-W9: the transform takes 127 zetas, `ZETA[1]` to `ZETA[127]`. -/
theorem test_ntt_uses_127_zetas : (nttSpans.foldl nttLevel (polyOf [], 1)).2 = 128 := by decide +kernel

/-! ### The window and STATUS -/

/-- V-I1 to V-I6: ROM words. -/
theorem test_rom_words :
    [0x204, 0x3FC, 0x408, 0x40C, 0x4B8, 0x4BC, 0x508, 0x560].map
      (fun off => after (memRead State.reset (.rel off) 4) (·.1)) =
      [some 0x000006C1#32, some 0x0000086A#32, some 0x00008082#32, some 0#32, some 0x80008008#32, some 0x80000000#32,
        some 0x0000003E#32, some 0x0000000E#32] := by decide

/-- V-I7, V-I8: reserved offsets and STATUS read 0 after reset. -/
theorem test_reserved_words :
    [0x01C, 0x028, 0x1C8, 0x4C0, 0x564, 0x004].map (fun off => after (memRead State.reset (.rel off) 4) (·.1)) =
      List.replicate 6 (some 0#32) := by decide

/-- V-I9, V-I12: a read of `S` faults until both words of nothing but its own half lane are written. -/
theorem test_unwritten_half_lane :
    faultOf (memRead (withMem (writeWord [] 0x104 0xDEADBEEF#32)) (.rel 0x100) 4) = some .unwrittenRead ∧
      after (memRead (withMem (writeWord [] 0x104 0xDEADBEEF#32)) (.rel 0x104) 4) (·.1) = some 0xDEADBEEF#32 := by
  decide

/-- V-I10. -/
theorem test_bank_word :
    after (memWrite State.reset (.rel 0x1000) 4 0xFFFF0001#32) (bankFirst 0 2) = some [some 1, some (-1)] := by decide

/-- V-I11. -/
theorem test_msg_word :
    after (memWrite State.reset (.rel 0x800) 4 0x44332211#32) (fun t => [0, 1, 2, 3].map (msgAt t.mem)) =
      some [some 0x11#8, some 0x22#8, some 0x33#8, some 0x44#8] := by decide

/-- V-I13: writes of RES0, a ROM and `OUT` change nothing. -/
theorem test_ignored_writes :
    [0x020, 0x204, 0xC00].map (fun off => after (memWrite State.reset (.rel off) 4 7#32) id) =
      List.replicate 3 (some State.reset) := by decide

/-- V-I14. -/
theorem test_refused_accesses :
    refusalOf (memRead State.reset (.rel 0x002) 4) = some .misaligned ∧
      refusalOf (memRead State.reset (.rel 0x800) 1) = some .accessWidth ∧
      refusalOf (memRead State.reset (.rel 0x2000) 4) = some .outsideWindow := by decide

/-- V-I1 at its absolute address. -/
theorem test_absolute_address :
    after (memRead State.reset (.abs (Config.base + 0x204)) 4) (·.1) = some 0x000006C1#32 := by
  simp only [memRead, accessOffset_abs]
  decide

/-- V-I15, and program 5's W1C write: only the written flags clear, and BUSY is read-only. -/
theorem test_status_w1c :
    after (memWrite State.reset (.rel 0x004) 4 0xFFFFFFFF#32) (fun t => statusWord t.status) = some 0#32 ∧
      after (memWrite { State.reset with status := ⟨true, false, true, true, false⟩ } (.rel 0x004) 4 0x00000005#32)
        (fun t => statusWord t.status) = some 0x00000009#32 := by decide

/-- R95: a CMD write while busy is dropped with ERR_BUSY, and CMD_LAST stays. -/
theorem test_cmd_while_busy :
    after (memWrite (pend .barrett State.reset) (.rel 0x000) 4 0x00000013#32)
      (fun t => (t.cmdLast, statusWord t.status)) = some (0#32, 0x00000011#32) := by decide

/-- R114. -/
theorem test_write_while_busy_faults :
    faultOf (memWrite (pend .barrett State.reset) (.rel 0x800) 4 0#32) = some .writeWhileBusy := by decide

/-- An accepted word runs as the first step after reset. -/
theorem test_first_step_runs_the_word :
    after (step ((withArgs 20000#32 0 0).withFetchWord 32 0x00000010)) (fun t => (t.res0, t.cmdLast, statusWord t.status)) =
      some (26#32, 0x00000010#32, 0x00000002#32) := by decide

/-- R118: a host at a line that has no step (misaligned, a byte access, an unknown label) does not keep a pending
command from its step, although host steps are still to come. -/
theorem test_refused_line_does_not_block :
    [HostLine.read (.rel 0x002) 4 0, .write (.rel 0x800) 1 (.imm 0#32), .read (.rel 0x2000) 4 0,
        .branch (.not (.not (.same 0 0))) 9].map
      (fun l => after (step { pend .barrett (withArgs 20000#32 0 0) with
          wait := 5, host := { program := [l], line := 0, vars := [(0, 0#32)] } })
        (fun t => (t.res0, statusWord t.status))) =
      List.replicate 4 (some (26#32, 0x00000002#32)) := by decide

/-- R106: with no command pending such a line has no step. -/
theorem test_refused_line_idle :
    refusalOf (step { State.reset with host := { program := [.read (.rel 0x002) 4 0], line := 0, vars := [] } }) =
      some .misaligned := by decide

/-- A word that is no command is rejected by the next step. -/
theorem test_first_step_rejects_the_word :
    after (step (State.reset.withFetchWord 32 0x00000004)) (fun t => (t.cmdLast, statusWord t.status)) =
      some (0x00000004#32, 0x00000006#32) := by decide

/-- R51: the text of a command. -/
theorem test_instr_text : instrText (.basemul 2 0 1) = "BASEMUL p2, p0, p1" ∧ instrText .sha3_256 = "SHA3_256" := by
  decide

/-! ### Witnesses: states and operands that meet the hypotheses of the statements -/

/-- Every byte of `S`, `MSG`, `OUT` and the banks is written, with this value. -/
def filled (b : Byte) : Memory :=
  writeBytes (writeBytes [] 0x100 (List.replicate 200 b)) 0x800 (List.replicate 0x1800 b)

theorem readByte_filled {b : Byte} {a : Nat} (h : dataOffset a) : readByte (filled b) a = some b := by
  unfold filled
  rcases h with h | h
  · rw [readByte_writeBytes, if_neg (by omega), readByte_writeBytes, if_pos (by simp only [List.length_replicate]; omega),
      List.getElem?_replicate, if_pos (by omega)]
  · rw [readByte_writeBytes, if_pos (by simp only [List.length_replicate]; omega), List.getElem?_replicate,
      if_pos (by omega)]

theorem readValue_filled {b : Byte} {a n : Nat} (h : ∀ i, i < n → dataOffset (a + i)) :
    readValue (filled b) a n = some (leValue (List.replicate n b)) := by
  unfold readValue
  rw [readBytes_eq_some_iff.mpr ⟨List.length_replicate, fun i hi => ?_⟩]
  · rfl
  · rw [readByte_filled (h i hi), List.getElem?_replicate, if_pos hi]

theorem laneAt_filled {i : Nat} (h : i < 25) : laneAt (filled 1#8) i = some 0x0101010101010101#64 := by
  unfold laneAt
  rw [readValue_filled fun k hk => by unfold dataOffset; simp only [keccakBase]; omega]
  decide

theorem coefAt_filled {b j : Nat} (hb : b < 8) (h : j < 256) : coefAt (filled 1#8) b j = some 257 := by
  unfold coefAt
  rw [readValue_filled fun k hk => by unfold dataOffset; simp only [bankBase]; omega]
  decide

theorem msgAt_filled {k : Nat} (h : k < 1024) : msgAt (filled 1#8) k = some 1#8 := by
  unfold msgAt
  rw [if_pos h, readByte_filled (by unfold dataOffset; simp only [msgBase]; omega)]

theorem outAt_filled {k : Nat} (h : k < 1024) : outAt (filled 1#8) k = some 1#8 := by
  unfold outAt
  rw [if_pos h, readByte_filled (by unfold dataOffset; simp only [outBase]; omega)]

/-- A snapshot with these two lengths. -/
def lens (m o : Nat) : Snapshot :=
  { arg0 := 0#32, arg1 := 0#32, arg2 := 0#32, msgLen := BitVec.ofNat 32 m, outLen := BitVec.ofNat 32 o }

/-- Everything written and this command pending with these lengths. -/
def ready (i : Instr) (m o : Nat) : State :=
  { withMem (filled 1#8) with status := ⟨true, false, false, false, false⟩, eng := .pending i (lens m o) }

/-- A host program with nothing else set. -/
def withProgram (p : List HostLine) (s : State) : State := { s with host := { program := p, line := 0, vars := [] } }

theorem witness_DecodeOfEncodeIsIdentity : (Instr.basemul 7 0 7).wf = true := by decide

theorem witness_EncodeOfDecodeIsIdentity : decode 0x00707021#32 = .command (.basemul 7 0 7) := by decide

theorem witness_DecodeAcceptsExactlyLegalFields :
    decode 0x00000303#32 = .command .shake256 ∧ (wordFields 0x00000303#32).wf = true := by decide

theorem witness_TableMaskAndMatchDecide :
    decode 0x00007020#32 = .command (.ntt 7) ∧ decode 0x00070024#32 = .command (.preduce 0 7) ∧
    decode 0x00700021#32 = .command (.basemul 0 0 7) ∧ decode 0x00077022#32 = .command (.padd 7 7 0) ∧
    decode 0x00777023#32 = .command (.psub 7 7 7) := by decide

/-- Each clause: the engine's turn, the host's turn while a command pends, an idle engine, and a placed word
whose lengths are just legal. -/
theorem witness_StepRunsTheDecodedCommand :
    (pend .barrett State.reset).eng = .pending .barrett (liveSnapshot State.reset) ∧
    (pend .barrett State.reset).wait = 0 ∧
    (let s := withProgram [lineRd 0x004 0] { pend .barrett State.reset with wait := 1 }
     s.wait ≠ 0 ∧ hostStopped s = false) ∧
    State.reset.eng = .idle ∧
    (decode 0x00000203#32 = .command .shake128 ∧
      lengthsOk .shake128 (liveSnapshot { State.reset with msgLen := 1024#32, outLen := 1024#32 }) = true) := by decide

/-- Each clause, the lengths at and just above their bounds. -/
theorem witness_CommandWriteIssues :
    (pend .barrett State.reset).status.busy = true ∧
    (State.reset.status.busy = false ∧ decode 0x00000025#32 = .illegal .unassignedOp) ∧
    (decode 0x00000003#32 = .command .sha3_256 ∧
      1024 < ({ State.reset with msgLen := 1025#32 } : State).msgLen.toNat) ∧
    (decode 0x00000303#32 = .command .shake256 ∧
      1024 < ({ State.reset with outLen := 1025#32 } : State).outLen.toNat) ∧
    (let s : State := { State.reset with msgLen := 1024#32, outLen := 1024#32 }
     s.status.busy = false ∧ s.msgLen.toNat ≤ 1024 ∧ s.outLen.toNat ≤ 1024) := by decide

theorem witness_UnassignedCodesAreRejected :
    State.reset.status.busy = false ∧
    (0x000000FF#32).extractLsb' 0 8 ∉ [0x01#8, 0x02#8, 0x03#8, 0x10#8, 0x11#8, 0x12#8, 0x13#8, 0x20#8, 0x21#8, 0x22#8, 0x23#8, 0x24#8] ∧
    ((0x00000403#32).extractLsb' 0 8 = 0x03#8 ∧ 4 ≤ ((0x00000403#32).extractLsb' 8 4).toNat) ∧
    ((0x00000F03#32).extractLsb' 0 8 = 0x03#8 ∧ 4 ≤ ((0x00000F03#32).extractLsb' 8 4).toNat) := by decide

theorem witness_ControlRegistersReadAndWrite : State.reset.status.busy = false := rfl

/-- The offsets where the clauses begin and end. -/
theorem witness_ReservedAndReadOnlyOffsets :
    (∀ off ∈ [0x01C, 0x028, 0x0FC, 0x1C8, 0x1FC, 0x4C0, 0x4FC, 0x564, 0x7FC], off % 4 = 0 ∧
      (off = 0x01C ∨ (0x028 ≤ off ∧ off < 0x100) ∨ (0x1C8 ≤ off ∧ off < 0x200) ∨ (0x4C0 ≤ off ∧ off < 0x500) ∨
        (0x564 ≤ off ∧ off < 0x800)) ∧ after (memRead State.reset (.rel off) 4) (·.1) = some 0#32) ∧
    (∀ off ∈ [0x200, 0x4BC, 0x500, 0x560, 0xC00, 0xFFC, 0x020, 0x024], off % 4 = 0 ∧
      ((0x200 ≤ off ∧ off < 0x4C0) ∨ (0x500 ≤ off ∧ off < 0x564) ∨ (0xC00 ≤ off ∧ off < 0x1000) ∨
        off = 0x020 ∨ off = 0x024) ∧ after (memWrite State.reset (.rel off) 4 1#32) id = some State.reset) := by decide

theorem witness_RomWordsRead :
    after (memRead State.reset (.rel (0x200 + 4 * 127)) 4) (·.1) = some (BitVec.ofNat 32 (ZETA 127)) ∧
    after (memRead State.reset (.rel (0x400 + 8 * 23 + 4)) 4) (·.1) = some ((RC 23).extractLsb' 32 32) ∧
    after (memRead State.reset (.rel (0x500 + 4 * 24)) 4) (·.1) = some (BitVec.ofNat 32 (RHO 24)) := by decide

/-- The first and the last step of the walk, and the last round constant's top bit. -/
theorem witness_RhoAndRoundConstantTables :
    (fun c : Nat × Nat => (c.2, (2 * c.1 + 3 * c.2) % 5))^[0] (1, 0) = (1, 0) ∧
    (fun c : Nat × Nat => (c.2, (2 * c.1 + 3 * c.2) % 5))^[23] (1, 0) = (1, 1) ∧
    RHO (1 + 5 * 1) = (23 + 1) * (23 + 2) / 2 % 64 ∧ (23 : Nat) < 24 ∧ (63 : Nat) < 64 ∧
    (RC 23).getLsbD 63 = true := by decide

theorem witness_ZetaTableIsPowersOf17 : (127 : Nat) < 128 ∧ ZETA 127 = 17 ^ 127 % 3329 ∧ ZETA 1 = 17 ^ 64 % 3329 := by
  decide

theorem witness_BufferWordsAreLittleEndian :
    (255 : Nat) < 256 ∧ (withMem (filled 1#8)).status.busy = false ∧
    (∀ k, k < 4 → msgAt (withMem (filled 1#8)).mem (4 * 255 + k) = some 1#8) ∧
    (∀ k, k < 4 → outAt (withMem (filled 1#8)).mem (4 * 255 + k) = some 1#8) :=
  ⟨by decide, rfl, fun k hk => msgAt_filled (by omega), fun k hk => outAt_filled (by omega)⟩

theorem witness_KeccakWordsAreHalfLanes :
    (49 : Nat) < 50 ∧ (withMem (filled 1#8)).status.busy = false ∧
    laneAt (withMem (filled 1#8)).mem (49 / 2) = some 0x0101010101010101#64 ∧
    (199 : Nat) < 200 ∧ laneAt (withMem (filled 1#8)).mem (199 / 8) = some 0x0101010101010101#64 :=
  ⟨by decide, rfl, laneAt_filled (by decide), by decide, laneAt_filled (by decide)⟩

/-- One half of the last lane written and the other not; and both. -/
theorem witness_KeccakWordsAreHalfLanes_first_fill :
    let m := writeWord [] 0x1C4 0xDEADBEEF#32
    (withMem m).status.busy = false ∧ laneAt m 24 = none ∧
    (readByte m 0x1C4 = some 0xEF#8 ∧ readByte m 0x1C5 = some 0xBE#8 ∧ readByte m 0x1C6 = some 0xAD#8 ∧
      readByte m 0x1C7 = some 0xDE#8) ∧
    readWord (writeWord m 0x1C0 1#32) 0x1C0 = some 1#32 ∧
    readWord (writeWord m 0x1C0 1#32) (0x1C0 + 4) = some 0xDEADBEEF#32 ∧
    laneAt (writeWord m 0x1C0 1#32) 24 = some 0xDEADBEEF00000001#64 := by decide

theorem witness_BankWordsAreCoefficientPairs :
    (127 : Nat) < 128 ∧ (withMem (filled 1#8)).status.busy = false ∧
    coefAt (withMem (filled 1#8)).mem (7 : Fin 8) (2 * 127) = some 257 ∧
    coefAt (withMem (filled 1#8)).mem (7 : Fin 8) (2 * 127 + 1) = some 257 :=
  ⟨by decide, rfl, coefAt_filled (by decide) (by decide), coefAt_filled (by decide) (by decide)⟩

/-- A busy state, with each clause's first and last offset. -/
theorem witness_ReadsWhileBusy :
    (pend .barrett State.reset).status.busy = true ∧
    (∀ off ∈ [0x100, 0x1C4, 0xC00, 0x1FFC, 0x020, 0x024], off % 4 = 0 ∧
      ((0x100 ≤ off ∧ off < 0x1C8) ∨ (0xC00 ≤ off ∧ off < 0x2000) ∨ off = 0x020 ∨ off = 0x024) ∧
      after (memRead (pend .barrett State.reset) (.rel off) 4) (fun r => r.2.draws) = some 1) ∧
    (∀ off ∈ [0x200, 0x3FC, 0x400, 0x4BC, 0x500, 0x560, 0x01C, 0x028, 0x0FC, 0x1C8, 0x1FC, 0x4C0, 0x4FC, 0x564, 0x7FC],
      off % 4 = 0 ∧ after (memRead (pend .barrett State.reset) (.rel off) 4) (fun r => r.2.draws) = some 0) := by decide

/-- The equality clauses at 0x000 to 0x018, on a busy state whose registers all differ. -/
theorem witness_ReadsWhileBusy_registers :
    let s : State := { pend .barrett State.reset with
      cmdLast := 1#32, msgLen := 2#32, outLen := 3#32, arg0 := 4#32, arg1 := 5#32, arg2 := 6#32 }
    s.status.busy = true ∧
    [0x000, 0x004, 0x008, 0x00C, 0x010, 0x014, 0x018].map (fun off => after (memRead s (.rel off) 4) (·.1)) =
      [some 1#32, some (statusWord s.status), some 2#32, some 3#32, some 4#32, some 5#32, some 6#32] := by decide

theorem witness_ReadsWhileBusy_msg :
    (ready .barrett 0 0).status.busy = true ∧ readWord (ready .barrett 0 0).mem 0x800 = some 0x01010101#32 ∧
    readWord (ready .barrett 0 0).mem 0xBFC = some 0x01010101#32 := by
  refine ⟨rfl, ?_, ?_⟩ <;>
  · unfold readWord
    simp only [ready, withMem]
    rw [readValue_filled fun k hk => by unfold dataOffset; omega]
    decide

theorem witness_WritesWhileBusy :
    (pend .barrett State.reset).status.busy = true ∧
    (∀ off ∈ [0x100, 0x1C4, 0x800, 0xBFC, 0x1000, 0x1FFC], off % 4 = 0 ∧
      ((0x100 ≤ off ∧ off < 0x1C8) ∨ (0x800 ≤ off ∧ off < 0xC00) ∨ (0x1000 ≤ off ∧ off < 0x2000)) ∧
      faultOf (memWrite (pend .barrett State.reset) (.rel off) 4 1#32) = some .writeWhileBusy) ∧
    (∀ off ∈ [0x200, 0x4BC, 0x500, 0x560, 0xC00, 0xFFC, 0x020, 0x024, 0x01C, 0x028, 0x0FC, 0x1C8, 0x1FC, 0x4C0, 0x4FC, 0x564, 0x7FC],
      off % 4 = 0 ∧
      after (memWrite (pend .barrett State.reset) (.rel off) 4 1#32) id = some (pend .barrett State.reset)) := by decide

theorem witness_RefusedAccesses :
    (1 : Nat) ≠ 4 ∧ (8 : Nat) ≠ 4 ∧ 0x003 % 4 ≠ 0 ∧ (0x2000 % 4 = 0 ∧ 0x2000 ≤ 0x2000) ∧
    ∃ addr, addr % 4 = 0 ∧ Config.base + 0x2000 ≤ addr := by
  have hb : Config.base % 4 = 0 := Nat.mul_mod_right 4 Config.baseWords
  generalize Config.base = b at hb ⊢
  exact ⟨by decide, by decide, by decide, by decide, b + 0x2000, by omega, by omega⟩

/-- A quiet read, and a draw. -/
theorem witness_ReadsHaveNoSideEffects :
    memRead State.reset (.rel 0x020) 4 = .next (0#32, State.reset) ∧
    memRead (pend .barrett State.reset) (.rel 0x020) 4 =
      .next (Config.freeWord 0, { pend .barrett State.reset with draws := 1 }) := ⟨rfl, rfl⟩

/-- Unwritten and written words, idle and (for `MSG`) busy. -/
theorem witness_UnwrittenReadsFault :
    (State.reset.status.busy = false ∧ ∀ off ∈ [0x100, 0x1C4, 0x800, 0xBFC, 0xC00, 0x1FFC], off % 4 = 0 ∧
      readByte State.reset.mem (off + 0) = none ∧ faultOf (memRead State.reset (.rel off) 4) = some .unwrittenRead) ∧
    (∀ off ∈ [0x100, 0x1C4, 0x800, 0xBFC, 0xC00, 0x1FFC], ∀ k, k < 4 →
      written (withMem (filled 1#8)).mem (off + k) = true) := by
  refine ⟨by decide, fun off ho k hk => ?_⟩
  have : readByte (withMem (filled 1#8)).mem (off + k) = some 1#8 := readByte_filled (by
    unfold dataOffset
    simp only [List.mem_cons, List.not_mem_nil, or_false] at ho
    omega)
  rw [written, this]
  rfl

theorem witness_KeccakFCommandPermutes :
    ∀ i (h : i < 25), laneAt (withMem (filled 1#8)).mem i = some (Vector.replicate 25 0x0101010101010101#64)[i] :=
  fun i h => by rw [Vector.getElem_replicate]; exact laneAt_filled h

theorem witness_KeccakStepMappings :
    (4 : Nat) < 5 ∧ (0 : Nat) < 5 ∧ (24 : Nat) < 25 ∧ (63 : Nat) < 64 ∧ (0 : Nat) < 64 ∧
    (rotl64 1#64 63).getLsbD 63 = true ∧ (rotl64 1#64 0).getLsbD 0 = true := by decide

theorem witness_StateBytesAndXorByte :
    (199 : Nat) < 200 ∧ (0 : Nat) < 200 ∧ (List.replicate 200 1#8).length ≤ 200 ∧
    (List.replicate 136 1#8).length ≤ 200 := by
  simp only [List.length_replicate]
  decide

/-- A message one short of a block, and one of exactly a block. -/
theorem witness_AbsorbTakesWholeBlocks :
    0 < 136 ∧ (List.replicate 135 0#8).length < 136 ∧ 136 ≤ (List.replicate 136 0#8).length := by
  simp only [List.length_replicate]
  decide

theorem witness_PadBlockLayout : (List.replicate 71 0#8).length < 72 ∧ ([] : List Byte).length < 72 := by
  simp only [List.length_replicate]
  decide

/-- The empty message and the longest one, for every sponge command; the output at its bounds. -/
theorem witness_Sha3CommandsHash (i : Instr) (n : Nat) (hn : n = 0 ∨ n = 1024) :
    (ready i n 0).eng = .pending i (lens n 0) ∧ (List.replicate n 1#8).length = (lens n 0).msgLen.toNat ∧
    (lens n 0).msgLen.toNat ≤ 1024 ∧
    ∀ k, k < (List.replicate n 1#8).length → msgAt (ready i n 0).mem k = (List.replicate n 1#8)[k]? := by
  refine ⟨rfl, ?_, ?_, fun k hk => ?_⟩
  · rw [List.length_replicate]
    rcases hn with rfl | rfl <;> rfl
  · rcases hn with rfl | rfl <;> decide
  · rw [List.length_replicate] at hk
    rw [List.getElem?_replicate, if_pos hk]
    exact msgAt_filled (by omega)

theorem witness_ShakeCommandsHash (i : Instr) (n o : Nat) (hn : n = 0 ∨ n = 1024) (ho : o = 0 ∨ o = 1024) :
    (ready i n o).eng = .pending i (lens n o) ∧ (List.replicate n 1#8).length = (lens n o).msgLen.toNat ∧
    (lens n o).msgLen.toNat ≤ 1024 ∧ (lens n o).outLen.toNat ≤ 1024 ∧
    ∀ k, k < (List.replicate n 1#8).length → msgAt (ready i n o).mem k = (List.replicate n 1#8)[k]? := by
  obtain ⟨_, h2, h3, h4⟩ := witness_Sha3CommandsHash i n hn
  refine ⟨rfl, h2, h3, ?_, h4⟩
  rcases ho with rfl | rfl <;> simp [lens]

theorem witness_LongerShakeOutputExtends : 0 < 168 ∧ 168 ≤ 169 := by decide

/-- The scalar commands: one snapshot, with the least and the greatest 16-bit operand. -/
theorem witness_scalar_commands (i : Instr) :
    (pend i (withArgs 0x00008000#32 0x00007FFF#32 0x0000007F#32)).eng =
      .pending i (liveSnapshot (withArgs 0x00008000#32 0x00007FFF#32 0x0000007F#32)) ∧
    (-32768 : Int) = ((0x00008000#32).extractLsb' 0 16).toInt ∧
    (32767 : Int) = ((0x00007FFF#32).extractLsb' 0 16).toInt ∧
    (2154 : Int) = ZETA ((0x0000007F#32).extractLsb' 0 7).toNat ∧
    (32768 : Int) = (0x00008000#32).toInt ∧ (-32768 : Int) = wrap16 (32768 * 62209) :=
  ⟨rfl, by decide, by decide, by decide, by decide, by decide⟩

theorem witness_BarrettReduces :
    (-32768 : Int) ≤ -32768 ∧ (-32768 : Int) ≤ 32767 ∧ (32767 : Int) ≤ 32767 ∧ (-29961 : Int) = -3329 * 9 := by decide

theorem witness_MontgomeryReduces :
    -3329 * 2 ^ 15 ≤ (3329 * 2 ^ 15 - 1 : Int) ∧ (3329 * 2 ^ 15 - 1 : Int) < 3329 * 2 ^ 15 ∧
    montgomery (3329 * 2 ^ 15 - 1) = 3160 ∧ montgomery (-3329 * 2 ^ 15) = 0 := by decide

/-- The polynomial commands: written banks, the same one or two; every bank is written here. -/
theorem witness_polynomial_commands (b : Fin 8) :
    (∀ j (h : j < 256), coefAt (withMem (filled 1#8)).mem b j = some (Vector.replicate 256 (257 : Int))[j]) ∧
    (∀ j, j < 256 → coefAt (withMem (filled 1#8)).mem b j = some ((fun _ => 257 : Nat → Int) j)) :=
  ⟨fun j h => by rw [Vector.getElem_replicate]; exact coefAt_filled b.isLt h, fun j h => coefAt_filled b.isLt h⟩

theorem witness_BasemulCommandMultiplies :
    (63 : Nat) < 64 ∧ ((4 * 63 : Nat) = 4 * 63 ∧ (1701 : Int) = 1701) ∧
    ((3329 - (ZETA 127 : Int)) % 3329 = 1175) := by decide

/-- The first and the last butterfly. -/
theorem witness_NttLevelsTransform :
    ((0 : Nat) < 7 ∧ 128 = 2 ^ (7 - 0) ∧ 0 < 2 ^ 0 ∧ 0 < 128) ∧
    ((6 : Nat) < 7 ∧ 2 = 2 ^ (7 - 6) ∧ 63 < 2 ^ 6 ∧ 1 < 2 ∧ 2 * 2 * 63 + 1 + 2 = 255) := by decide

theorem witness_NttSeesOnlyResidues :
    ∀ j (h : j < 256), ((Vector.replicate 256 (3332 : Int))[j] - (Vector.replicate 256 (3 : Int))[j]) % 3329 = 0 :=
  fun j h => by rw [Vector.getElem_replicate, Vector.getElem_replicate]; decide

/-- Two runs that agree on lane 4 and slot 2 and differ elsewhere; each command answers a next state. -/
theorem witness_LanesAreIndependent :
    (255 : Nat) < 256 ∧ (127 : Nat) < 128 ∧
    (∀ i ∈ [Instr.padd 2 0 1, .psub 2 0 1, .preduce 2 0, .basemul 2 0 1],
      ∃ t1 t2, exec i (banks [1, 2] []) = .next t1 ∧ exec i (banks [3, 4] []) = .next t2) ∧
    coefAt (banks [1, 2] []).mem (0 : Fin 8) 255 = coefAt (banks [3, 4] []).mem (0 : Fin 8) 255 ∧
    coefAt (banks [1, 2] []).mem (1 : Fin 8) 255 = coefAt (banks [3, 4] []).mem (1 : Fin 8) 255 ∧
    coefAt (banks [1, 2] []).mem (0 : Fin 8) 254 = coefAt (banks [3, 4] []).mem (0 : Fin 8) 254 ∧
    coefAt (banks [1, 2] []).mem (1 : Fin 8) 254 = coefAt (banks [3, 4] []).mem (1 : Fin 8) 254 := by
  have a0 := banks_read0 (la := [1, 2]) (lb := []) (by decide)
  have a1 := banks_read1 (la := [1, 2]) (lb := []) (by decide)
  have b0 := banks_read0 (la := [3, 4]) (lb := []) (by decide)
  have b1 := banks_read1 (la := [3, 4]) (lb := []) (by decide)
  have hc : ∀ {m : Memory} {b : Fin 8} {l : List Int}, readPoly m b = some (polyOf l) → ∀ j, j < 256 →
      coefAt m b j = some (l.getD j 0) := fun h j hj => by
    rw [readPoly_eq_some_iff.mp h j hj, ← coef_eq hj, coef_polyOf _ hj]
  refine ⟨by decide, by decide, ?_, ?_, ?_, ?_, ?_⟩
  · intro i hi
    simp only [List.mem_cons, List.not_mem_nil, or_false] at hi
    rcases hi with rfl | rfl | rfl | rfl
    · simp only [exec_padd]; exact ⟨_, _, polyBinary_eq a0 a1, polyBinary_eq b0 b1⟩
    · simp only [exec_psub]; exact ⟨_, _, polyBinary_eq a0 a1, polyBinary_eq b0 b1⟩
    · simp only [exec_preduce]; exact ⟨_, _, polyUnary_eq a0, polyUnary_eq b0⟩
    · simp only [exec_basemul]; exact ⟨_, _, polyBinary_eq a0 a1, polyBinary_eq b0 b1⟩
  all_goals
    first
    | rw [hc a0 _ (by decide), hc b0 _ (by decide)]; decide
    | rw [hc a1 _ (by decide), hc b1 _ (by decide)]

theorem witness_SumsInRangeAreExact :
    (0 : Int) ≤ 13316 ∧ (13316 : Int) ≤ 4 * 3329 ∧ (26631 : Int) < 8 * 3329 ∧ paddLane 13316 13316 = 26632 ∧
    psubLane 26631 0 = 29960 ∧ psubLane 0 26631 = -23302 := by decide

/-- Both clauses: the longest message with its last byte unwritten, and written. -/
theorem witness_CommandsFaultExactlyOnUnwrittenOperands :
    lengthsOk .sha3_256 (lens 1024 0) = true ∧
    operandUnwritten .sha3_256 (lens 1024 0) (writeBytes [] msgBase (List.replicate 1023 1#8)) ∧
    ¬ operandUnwritten .sha3_256 (lens 1024 0) (filled 1#8) ∧ ¬ operandUnwritten .keccakF (lens 0 0) (filled 1#8) ∧
    operandUnwritten (.basemul 0 1 2) (lens 0 0) [] := by
  refine ⟨by decide, ⟨1023, by decide, ?_⟩, ?_, ?_, ⟨255, by decide, .inl rfl⟩⟩
  · unfold msgAt
    rw [if_pos (by decide), readByte_writeBytes_outside (by rw [List.length_replicate]; omega)]
    rfl
  · rintro ⟨k, hk, h⟩
    rw [msgAt_filled (by simpa [lens] using hk)] at h
    cases h
  · rintro ⟨k, hk, h⟩
    rw [laneAt_filled hk] at h
    cases h

/-- Each kind of command answers a next state somewhere. -/
theorem witness_CommandsTouchOnlyResults :
    (∃ t, exec .barrett State.reset = .next t) ∧ (∃ t, exec .stateClear State.reset = .next t) ∧
    (∃ t, exec .keccakF (withMem (filled 1#8)) = .next t) ∧ (∃ t, exec .sha3_256 State.reset = .next t) ∧
    (∃ t, exec (.ntt 7) (withMem (filled 1#8)) = .next t) := by
  simp only [exec_keccakF, exec_sha3_256, exec_ntt]
  exact ⟨⟨_, rfl⟩, ⟨_, rfl⟩, ⟨_, execKeccakF_eq _ (readKeccak_eq_some_iff.mpr witness_KeccakFCommandPermutes)⟩,
    ⟨_, runSponge_eq (M := []) rfl⟩, ⟨_, polyUnary_eq (readPoly_eq_some_iff.mpr (witness_polynomial_commands 7).1)⟩⟩

/-- Both clauses. -/
theorem witness_SnapshotShieldsPendingCommand :
    (pend .barrett State.reset).eng = .pending .barrett (liveSnapshot State.reset) ∧
    (∃ t, exec .barrett (pend .barrett State.reset) = .next t) ∧
    (pend (.ntt 0) State.reset).eng = .pending (.ntt 0) (liveSnapshot State.reset) ∧
    exec (.ntt 0) (pend (.ntt 0) State.reset) = .fault .unwrittenRead := by
  rw [exec_ntt]
  exact ⟨rfl, ⟨_, rfl⟩, rfl, polyUnary_fault (readPoly_eq_none_iff.mpr ⟨0, by decide, rfl⟩)⟩

/-- The invariant of a state whose data memory is empty. -/
theorem inv_of_empty {s : State} (hm : s.mem = []) (h1 : s.status.busy = true ↔ s.eng ≠ .idle)
    (h2 : s.status.busy = true → s.status.done = false)
    (h3 : ∀ i snap, s.eng = .pending i snap → lengthsOk i snap = true) (h4 : s.host.vars = []) : s.Inv :=
  { memWf := by rw [hm]; exact List.Pairwise.nil
    memData := fun a h => by rw [hm] at h; cases h
    halfLanes := fun w k _ _ => by rw [hm]; rfl
    coefs := fun b j _ _ => by rw [hm]; rfl
    busyPending := h1
    busyNotDone := h2
    lengths := h3
    varsWf := by rw [h4]; exact List.Pairwise.nil }

/-- A state with BARRETT pending, the engine's step to come after `n` host steps of this program. -/
def waiting (n : Nat) (p : List HostLine) : State := withProgram p { pend .barrett State.reset with wait := n }

theorem waiting_inv (n : Nat) (p : List HostLine) : (waiting n p).Inv :=
  inv_of_empty rfl (by simp [waiting, withProgram, pend]) (fun _ => rfl) (fun i snap h => by cases h; rfl) rfl

theorem idle_inv (p : List HostLine) : (withProgram p State.reset).Inv :=
  inv_of_empty rfl (by simp [withProgram, State.reset, Status.reset]) (fun _ => rfl) (fun i snap h => by cases h) rfl

/-- An engine step and a host step, each from a state that meets the invariant. -/
theorem witness_StepKeepsInvariant :
    (waiting 0 []).Inv ∧ (∃ t, step (waiting 0 []) = .next t) ∧
    (withProgram [lineWr 0x1FFC 1#32] State.reset).Inv ∧
    (∃ t, step (withProgram [lineWr 0x1FFC 1#32] State.reset) = .next t) :=
  ⟨waiting_inv _ _, ⟨_, rfl⟩, idle_inv _, ⟨_, rfl⟩⟩

/-- With the engine idle, and with a command pending. -/
theorem witness_ResetEventDiscardsPendingCommand :
    (hostLine (withProgram [.reset] State.reset) = some .reset ∧ (withProgram [.reset] State.reset).eng = .idle) ∧
    (hostLine (waiting 1 [.reset]) = some .reset ∧ (waiting 1 [.reset]).wait ≠ 0) := by decide

/-- Each of the three flags, cleared by a STATUS write. -/
theorem witness_ErrorFlagsAreSticky :
    let s : State := withProgram [lineWr 0x004 0x0000001C#32] { State.reset with status := ⟨false, true, true, true, true⟩ }
    ∃ t, step s = .next t ∧ (s.status.errIllegal = true ∧ t.status.errIllegal = false) ∧
      (s.status.errLen = true ∧ t.status.errLen = false) ∧ (s.status.errBusy = true ∧ t.status.errBusy = false) :=
  ⟨_, rfl, ⟨rfl, rfl⟩, ⟨rfl, rfl⟩, ⟨rfl, rfl⟩⟩

/-- Both clauses: an accepting CMD write, and the command's own step. -/
theorem witness_EngineStateMoves :
    ((withProgram [lineWr 0x000 0x00000010#32] State.reset).Inv ∧
      ∃ t, step (withProgram [lineWr 0x000 0x00000010#32] State.reset) = .next t ∧
        (withProgram [lineWr 0x000 0x00000010#32] State.reset).eng = .idle ∧ t.eng ≠ .idle) ∧
    ((waiting 0 []).Inv ∧ ∃ t, step (waiting 0 []) = .next t ∧
      (waiting 0 []).eng = .pending .barrett (liveSnapshot State.reset) ∧ t.eng ≠ (waiting 0 []).eng) :=
  ⟨⟨idle_inv _, _, rfl, rfl, fun h => nomatch h⟩,
    ⟨waiting_inv _ _, _, rfl, rfl, by decide⟩⟩

/-- A pending command with host steps to come: one that reaches its step, and one whose host faults first. -/
theorem witness_PendingCommandIsStepped :
    ((waiting 1 [.label 0]).Inv ∧ (waiting 1 [.label 0]).eng = .pending .barrett (liveSnapshot State.reset) ∧
      ∃ u, Reaches 1 (waiting 1 [.label 0]) u ∧ step u = exec .barrett u) ∧
    ((waiting 1 [lineWr 0x800 0#32]).Inv ∧
      (waiting 1 [lineWr 0x800 0#32]).eng = .pending .barrett (liveSnapshot State.reset) ∧
      hostStopped (waiting 1 [lineWr 0x800 0#32]) = false ∧
      step (waiting 1 [lineWr 0x800 0#32]) = .fault .writeWhileBusy) :=
  ⟨⟨waiting_inv _ _, rfl, _, rfl, rfl⟩, waiting_inv _ _, rfl, rfl, rfl⟩

/-- Each clause of a host line that has a hypothesis. -/
theorem witness_HostLinesRun :
    (∃ v t, memRead State.reset (.rel 0x004) 4 = .next (v, t)) ∧
    (∃ t, memWrite State.reset (.rel 0x008) 4 (hostValue State.reset.host (.imm 5#32)) = .next t) ∧
    hostCond State.reset.host (.not (.same 0 0)) = false ∧
    (hostCond (withProgram [.halt, .label 3] State.reset).host (.same 0 0) = true ∧
      HostLine.label 3 ∈ (withProgram [.halt, .label 3] State.reset).host.program) :=
  ⟨⟨_, _, rfl⟩, ⟨_, rfl⟩, by simp [hostCond], by simp [hostCond], by decide⟩

theorem witness_WellFormedProgramsAreNeverRefused :
    programWf (withProgram (pseudoH [1#8, 2#8] 0 0 ++ [.halt]) State.reset).host.program = true := by decide

end Sys2Proof.Tests
end

section
/-! The Keccak-f[1600] step mappings lane by lane, and the permutation as a sequence of 24 rounds
(spec/40_keccak.md R57 to R61), with the bits of `rotl64` (R9). -/

namespace Sys2Proof.Machine

/-- R9, bit by bit: the two shifts never overlap, so each bit of the result has one source. -/
theorem getLsbD_rotl64 (v : Lane) {n j : Nat} (hn : n < 64) (hj : j < 64) :
    (rotl64 v n).getLsbD j = v.getLsbD ((j + 64 - n) % 64) := by
  unfold rotl64
  split
  case isTrue h0 => rw [h0, Nat.sub_zero, Nat.add_mod_right, Nat.mod_eq_of_lt hj]
  case isFalse h0 =>
    rw [BitVec.getLsbD_or, BitVec.getLsbD_shiftLeft, BitVec.getLsbD_ushiftRight]
    by_cases hlt : j < n
    · have hsrc : (j + 64 - n) % 64 = 64 - n + j := by omega
      simp [hlt, hsrc]
    · have hsrc : (j + 64 - n) % 64 = j - n := by omega
      have hout : v.getLsbD (64 - n + j) = false := BitVec.getLsbD_of_ge _ _ (by omega)
      simp [hlt, hj, hsrc, hout]

theorem laneOf_eq_getElem (A : KState) {i : Nat} (h : i < 25) : laneOf A i = A[i] := by
  simp [laneOf, h]

theorem laneOf_ofFn (f : Fin 25 → Lane) {i : Nat} (h : i < 25) : laneOf (Vector.ofFn f) i = f ⟨i, h⟩ := by
  simp [laneOf_eq_getElem _ h]

/-- The parity of column `x` (R57). -/
def columnParity (A : KState) (x : Nat) : Lane :=
  laneOf A x ^^^ laneOf A (x + 5) ^^^ laneOf A (x + 10) ^^^ laneOf A (x + 15) ^^^ laneOf A (x + 20)

theorem thetaC_getElem (A : KState) {x : Nat} (h : x < 5) : (thetaC A)[x] = columnParity A x := by
  simp [thetaC, columnParity, laneOf_eq_getElem, show x < 25 by omega, show x + 5 < 25 by omega,
    show x + 10 < 25 by omega, show x + 15 < 25 by omega, show x + 20 < 25 by omega]

theorem thetaD_thetaC_getElem (A : KState) {x : Nat} (h : x < 5) :
    (thetaD (thetaC A))[x] = columnParity A ((x + 4) % 5) ^^^ rotl64 (columnParity A ((x + 1) % 5)) 1 := by
  simp [thetaD, thetaC_getElem]

theorem laneOf_theta (A : KState) {x y : Nat} (hx : x < 5) (hy : y < 5) :
    laneOf (theta A) (5 * y + x) = laneOf A (5 * y + x) ^^^
      (columnParity A ((x + 4) % 5) ^^^ rotl64 (columnParity A ((x + 1) % 5)) 1) := by
  have hi : 5 * y + x < 25 := by omega
  have hcol : (5 * y + x) % 5 = x := by omega
  rw [theta, laneOf_ofFn _ hi, laneOf_eq_getElem A hi]
  simp only [hcol, thetaD_thetaC_getElem A hx]

/-- Distinct lanes go to distinct places (R58). -/
theorem piIndex_injective : Function.Injective piIndex := by decide

/-- After a pass that writes place `p i` with `g i`, place `p i` holds `g i`: no later write of the pass
goes there, `p` being injective. -/
theorem getElem_foldl_set {ι α : Type} {n : Nat} {p : ι → Fin n} (hp : Function.Injective p) (g : ι → α)
    (l : List ι) (B : Vector α n) {i : ι} (hi : i ∈ l) :
    (l.foldl (fun B i => B.set (p i).val (g i) (p i).isLt) B)[(p i).val] = g i := by
  induction l using List.reverseRecOn with
  | nil => simp at hi
  | append_singleton l a ih =>
    rw [List.foldl_append, List.foldl_cons, List.foldl_nil]
    by_cases ha : a = i
    · rw [ha, Vector.getElem_set_self]
    · have hne : (p a).val ≠ (p i).val := fun h => ha (hp (Fin.ext h))
      have hmem : i ∈ l := by simpa [Ne.symm ha] using hi
      rw [Vector.getElem_set_ne _ _ hne, ih hmem]

theorem laneOf_rhoPi (A : KState) (i : Fin 25) :
    laneOf (rhoPi A) (piIndex i).val = rotl64 (laneOf A i.val) (RHO i.val) := by
  rw [laneOf_eq_getElem _ (piIndex i).isLt, laneOf_eq_getElem A i.isLt]
  exact getElem_foldl_set piIndex_injective _ _ _ (List.mem_finRange i)

/-- The place of lane `x + 5y` in the coordinates of R58. -/
theorem piIndex_val {x y : Nat} (hx : x < 5) (h : x + 5 * y < 25) :
    (piIndex ⟨x + 5 * y, h⟩).val = y + 5 * ((2 * x + 3 * y) % 5) := by
  have hcol : (x + 5 * y) % 5 = x := by omega
  have hrow : (x + 5 * y) / 5 = y := by omega
  simp only [piIndex, hcol, hrow]

/-- An injective map of the 25 places is onto, so R58 fills the whole scratch array. -/
theorem pi_reaches_every_place {j : Nat} (hj : j < 25) :
    ∃ x y, x < 5 ∧ y < 5 ∧ j = y + 5 * ((2 * x + 3 * y) % 5) := by
  obtain ⟨i, hi⟩ := Finite.surjective_of_injective piIndex_injective ⟨j, hj⟩
  exact ⟨i.val % 5, i.val / 5, by omega, by omega, (congrArg Fin.val hi).symm⟩

theorem laneOf_chi (B : KState) {x y : Nat} (hx : x < 5) (hy : y < 5) :
    laneOf (chi B) (5 * y + x) =
      laneOf B (5 * y + x) ^^^ (~~~(laneOf B (5 * y + (x + 1) % 5)) &&& laneOf B (5 * y + (x + 2) % 5)) := by
  have hcol : (5 * y + x) % 5 = x := by omega
  have hrow : (5 * y + x) / 5 = y := by omega
  rw [chi, laneOf_ofFn _ (by omega), laneOf_eq_getElem B (by omega), laneOf_eq_getElem B (by omega),
    laneOf_eq_getElem B (by omega)]
  simp only [hcol, hrow]

theorem laneOf_iota (A : KState) (r : Nat) {i : Nat} (hi : i < 25) :
    laneOf (iota A r) i = if i = 0 then laneOf A 0 ^^^ RC r else laneOf A i := by
  rw [laneOf_eq_getElem _ hi, laneOf_eq_getElem A hi, laneOf_eq_getElem A (by omega), iota, Vector.getElem_set]
  simp only [@eq_comm Nat 0 i]

/-- The state after rounds 0 to `n - 1` (R61). -/
def keccakRounds (A : KState) (n : Nat) : KState := (List.range n).foldl keccakRound A

theorem keccakRounds_zero (A : KState) : keccakRounds A 0 = A := rfl

theorem keccakRounds_succ (A : KState) (r : Nat) :
    keccakRounds A (r + 1) = keccakRound (keccakRounds A r) r := by
  rw [keccakRounds, List.range_succ, List.foldl_append]
  rfl

theorem keccakF_eq_keccakRounds (A : KState) : keccakF A = keccakRounds A 24 := rfl

/-- Settles O25: one lemma per mapping; the sequence of the last clause is `keccakRounds`. -/
theorem keccakStepMappings : Obligations.KeccakStepMappings := by
  refine ⟨fun v _ _ => getLsbD_rotl64 v, fun A _ _ => laneOf_theta A, fun A x y hx hy => ?_,
    fun _ => pi_reaches_every_place, fun B _ _ => laneOf_chi B, fun A r _ => laneOf_iota A r,
    fun _ _ => rfl, fun A => ⟨keccakRounds A, keccakRounds_zero A, fun r _ => keccakRounds_succ A r,
      keccakF_eq_keccakRounds A⟩⟩
  have h : x + 5 * y < 25 := by omega
  rw [← piIndex_val hx h, laneOf_rhoPi]

end Sys2Proof.Machine
end

section
/-! The state of the block (spec/10_state.md): the invariant, kept by the memory's stores, by the control
state's moves and so by every step (R13, R24, R27, R75, R95); how `ENG` moves (R13); and what the registers,
STATUS and the unwritten data read as (R14 to R16, R24). -/

namespace Sys2Proof.Machine

/-! ### The invariant of the data memory -/

/-- What `State.Inv` asks of the data memory: canonical, inside the data regions, elements whole (R24, R27). -/
structure MemInv (m : Memory) : Prop where
  wf : m.wf
  data : ∀ a, written m a = true → dataOffset a
  halfLanes : ∀ w k, w < 50 → k < 4 → written m (keccakBase + 4 * w + k) = written m (keccakBase + 4 * w)
  coefs : ∀ b j, b < 8 → j < 256 → written m (bankBase b + 2 * j + 1) = written m (bankBase b + 2 * j)

theorem State.Inv.memInv {s : State} (h : s.Inv) : MemInv s.mem := ⟨h.memWf, h.memData, h.halfLanes, h.coefs⟩

theorem memInv_nil : MemInv [] := ⟨.nil, fun _ h => (nomatch h), fun _ _ _ _ => rfl, fun _ _ _ _ => rfl⟩

/-- A store marks its own bytes written, and no other (R24). -/
theorem written_writeBytes (m : Memory) (a : Nat) (bs : List Byte) (k : Nat) :
    written (writeBytes m a bs) k = (decide (a ≤ k ∧ k < a + bs.length) || written m k) := by
  unfold written
  rw [readByte_writeBytes]
  by_cases hk : a ≤ k ∧ k < a + bs.length
  · have hlt : k - a < bs.length := by omega
    simp [hk, hlt]
  · simp only [if_neg hk, decide_eq_false hk, Bool.false_or]

/-- A store inside a data region keeps the memory's invariant if it is made of whole words, or lies in `OUT`,
which has no elements wider than a byte. -/
theorem MemInv.writeBytes {m : Memory} (h : MemInv m) {a : Nat} {bs : List Byte}
    (hin : (0x100 ≤ a ∧ a + bs.length ≤ 0x1C8) ∨ (0x800 ≤ a ∧ a + bs.length ≤ 0x2000))
    (hwhole : (a % 4 = 0 ∧ bs.length % 4 = 0) ∨ (0xC00 ≤ a ∧ a + bs.length ≤ 0x1000)) :
    MemInv (writeBytes m a bs) where
  wf := writeBytes_wf h.wf a bs
  data k hk := by
    simp only [written_writeBytes, Bool.or_eq_true, decide_eq_true_eq] at hk
    rcases hk with hk | hk
    · unfold dataOffset
      omega
    · exact h.data k hk
  halfLanes w k hw hk := by
    rw [written_writeBytes, written_writeBytes, h.halfLanes w k hw hk]
    congr 1
    rw [decide_eq_decide]
    unfold keccakBase
    omega
  coefs b j hb hj := by
    rw [written_writeBytes, written_writeBytes, h.coefs b j hb hj]
    congr 1
    rw [decide_eq_decide]
    unfold bankBase
    omega

theorem MemInv.writeWord {m : Memory} (h : MemInv m) {off : Nat} (v : Word) (ha : off % 4 = 0)
    (hin : (0x100 ≤ off ∧ off + 4 ≤ 0x1C8) ∨ (0x800 ≤ off ∧ off + 4 ≤ 0x2000)) : MemInv (writeWord m off v) :=
  h.writeBytes (by rw [leBytes_length]; exact hin) (.inl ⟨ha, by rw [leBytes_length]⟩)

theorem MemInv.storeKeccak {m : Memory} (h : MemInv m) (A : KState) : MemInv (storeKeccak m A) :=
  h.writeBytes (a := 0x100) (by rw [storeKeccak_length]; omega) (by rw [storeKeccak_length]; omega)

theorem MemInv.storeOut {m : Memory} (h : MemInv m) (bs : List Byte) : MemInv (storeOut m bs) := by
  have hlen : (bs.take Config.OUT_CAP).length ≤ 1024 := List.length_take_le _ _
  exact h.writeBytes (a := 0xC00) (by omega) (by omega)

theorem MemInv.storePoly {m : Memory} (h : MemInv m) (b : Fin 8) (p : Poly) : MemInv (storePoly m b p) := by
  have hb := b.isLt
  exact h.writeBytes (a := 0x1000 + 0x200 * b.val) (by rw [storePoly_length]; omega) (by rw [storePoly_length]; omega)

/-! ### The invariant of the control state -/

/-- The host's variables are listed in rising order. -/
def VarsSorted (h : HostAgent) : Prop := h.vars.Pairwise (fun c d => c.1 < d.1)

theorem setVar_varsSorted {h : HostAgent} (hs : VarsSorted h) (x : Nat) (v : Word) : VarsSorted (setVar h x v) := by
  refine List.pairwise_append.mpr
    ⟨hs.sublist List.filter_sublist, .cons (fun d hd => ?_) (hs.sublist List.filter_sublist), fun c hc d hd => ?_⟩
  · simpa using (List.mem_filter.mp hd).2
  · have hcx : c.1 < x := by simpa using (List.mem_filter.mp hc).2
    rcases List.mem_cons.mp hd with rfl | hd
    · exact hcx
    · have hxd : x < d.1 := by simpa using (List.mem_filter.mp hd).2
      omega

theorem State.Inv.idle_of_not_busy {s : State} (h : s.Inv) (hb : s.status.busy = false) : s.eng = .idle := by
  by_contra he
  rw [h.busyPending.mpr he] at hb
  cases hb

theorem State.Inv.busy_of_pending {s : State} (h : s.Inv) {i : Instr} {snap : Snapshot} (he : s.eng = .pending i snap) :
    s.status.busy = true :=
  h.busyPending.mpr (by rw [he]; exact fun h => nomatch h)

/-- With nothing pending only the memory and the host's variables are asked about. -/
theorem inv_of_idle {t : State} (hm : MemInv t.mem) (hv : VarsSorted t.host) (hb : t.status.busy = false)
    (he : t.eng = .idle) : t.Inv where
  memWf := hm.wf
  memData := hm.data
  halfLanes := hm.halfLanes
  coefs := hm.coefs
  busyPending := by simp [hb, he]
  busyNotDone h := by rw [hb] at h; cases h
  lengths i snap h := by rw [he] at h; cases h
  varsWf := hv

/-- A move that leaves `ENG` and BUSY and does not set DONE keeps the invariant, if memory and variables do. -/
theorem State.Inv.of_same_engine {s t : State} (h : s.Inv) (hm : MemInv t.mem) (hv : VarsSorted t.host)
    (hb : t.status.busy = s.status.busy) (hd : t.status.done = true → s.status.done = true) (he : t.eng = s.eng) :
    t.Inv where
  memWf := hm.wf
  memData := hm.data
  halfLanes := hm.halfLanes
  coefs := hm.coefs
  busyPending := by rw [hb, he]; exact h.busyPending
  busyNotDone hbt := by
    have hds : s.status.done = false := h.busyNotDone (hb ▸ hbt)
    exact Bool.eq_false_iff.mpr fun hdt => Bool.eq_false_iff.mp hds (hd hdt)
  lengths i snap hp := h.lengths i snap (he ▸ hp)
  varsWf := hv

theorem acceptCommand_inv {s : State} (hm : MemInv s.mem) (hv : VarsSorted s.host) {i : Instr} {snap : Snapshot}
    (hl : lengthsOk i snap = true) : (acceptCommand i snap s).Inv where
  memWf := hm.wf
  memData := hm.data
  halfLanes := hm.halfLanes
  coefs := hm.coefs
  busyPending := by simp
  busyNotDone _ := rfl
  lengths j snap' h := by
    rw [acceptCommand_eng] at h
    cases h
    exact hl
  varsWf := hv

/-! ### Every step keeps the invariant -/

theorem issueCommand_inv {s : State} (h : s.Inv) (w : Word) : (issueCommand w s).Inv := by
  rcases issueCommand_cases w s with ⟨_, heq⟩ | ⟨hb, _, heq⟩ | ⟨hb, i, _, ⟨hl, heq⟩ | ⟨_, heq⟩⟩ <;> rw [heq]
  · exact h.of_same_engine h.memInv h.varsWf rfl id rfl
  · exact inv_of_idle h.memInv h.varsWf hb (h.idle_of_not_busy hb)
  · exact acceptCommand_inv (s := { s with cmdLast := w }) h.memInv h.varsWf hl
  · exact inv_of_idle h.memInv h.varsWf hb (h.idle_of_not_busy hb)

theorem WriteEffect.inv {s t : State} {v : Word} (he : WriteEffect s v t) (h : s.Inv) : t.Inv := by
  have word : ∀ off, off % 4 = 0 → (0x100 ≤ off ∧ off + 4 ≤ 0x1C8) ∨ (0x800 ≤ off ∧ off + 4 ≤ 0x2000) →
      State.Inv { s with mem := writeWord s.mem off v } := fun off ha hin =>
    h.of_same_engine (h.memInv.writeWord v ha hin) h.varsWf rfl id rfl
  cases he with
  | none => exact h
  | issue => exact issueCommand_inv h v
  | status => exact h.of_same_engine h.memInv h.varsWf rfl (fun hd => (Bool.and_eq_true_iff.mp hd).1) rfl
  | msgLen => exact h.of_same_engine h.memInv h.varsWf rfl id rfl
  | outLen => exact h.of_same_engine h.memInv h.varsWf rfl id rfl
  | arg0 => exact h.of_same_engine h.memInv h.varsWf rfl id rfl
  | arg1 => exact h.of_same_engine h.memInv h.varsWf rfl id rfl
  | arg2 => exact h.of_same_engine h.memInv h.varsWf rfl id rfl
  | keccak w hw hb => exact word (0x100 + 4 * w) (by omega) (by omega)
  | msg m hm hb => exact word (0x800 + 4 * m) (by omega) (by omega)
  | bank b m hb8 hm hb => exact word (0x1000 + 0x200 * b + 4 * m) (by omega) (by omega)

theorem EngineEffect.memInv {s t : State} (he : EngineEffect s t) (h : MemInv s.mem) : MemInv t.mem := by
  cases he with
  | results v w => exact h
  | keccak A => exact h.storeKeccak A
  | sponge A bs => exact (h.storeKeccak A).storeOut bs
  | poly b p => exact h.storePoly b p

theorem EngineEffect.inv {s t : State} (he : EngineEffect s t) (h : s.Inv) : t.Inv :=
  inv_of_idle (he.memInv h.memInv) (by rw [he.sameControl.host]; exact h.varsWf) he.finished.busy he.finished.eng

/-- Moving the host on, with its variables still sorted, is no concern of the block. -/
theorem State.Inv.withHost {s : State} (h : s.Inv) {host : HostAgent} (hv : VarsSorted host) :
    State.Inv { s with host := host } :=
  h.of_same_engine h.memInv hv rfl id rfl

theorem State.Inv.nextLine {s : State} (h : s.Inv) : (nextLine s).Inv := h.withHost h.varsWf

theorem HostEffect.inv {s t : State} (he : HostEffect s t) (h : s.Inv) : t.Inv := by
  cases he with
  | stay => exact h
  | write v u hu => exact (hu.inv h).nextLine
  | read v x u hu =>
    have hui : u.Inv := by
      rcases hu with rfl | ⟨_, rfl⟩
      · exact h
      · exact h.of_same_engine h.memInv h.varsWf rfl id rfl
    exact (hui.withHost (setVar_varsSorted hui.varsWf x v)).nextLine
  | skip => exact h.nextLine
  | goto n => exact h.withHost h.varsWf
  | reset => exact State.Inv.nextLine (inv_of_idle memInv_nil h.varsWf rfl rfl)

theorem waitOne_inv {s : State} (h : s.Inv) : (waitOne s).Inv := h.of_same_engine h.memInv h.varsWf rfl id rfl

/-- Settles O52: an engine step ends with nothing pending and a host step is one of the host's effects, each of
which keeps the invariant. -/
theorem stepKeepsInvariant : Obligations.StepKeepsInvariant := by
  intro s t hs ht
  rcases step_cases s with ⟨_, heq⟩ | ⟨i, snap, _, ⟨_, heq⟩ | ⟨_, heq⟩⟩ <;> rw [heq] at ht
  · exact (hostStep_next ht).inv hs
  · exact (exec_next ht).inv hs
  · exact (hostStep_next ht).inv (waitOne_inv hs)

/-! ### How the engine's state moves (R13) -/

theorem locate_eq_cmd {off : Nat} (h : locate off = .cmd) : off = 0 := by
  unfold locate at h
  revert h
  refine ite_cases (fun hc _ => hc) (fun _ => ?_)
  iterate 15 (refine ite_cases (fun _ h => nomatch h) (fun _ => ?_))
  exact fun h => nomatch h

/-- An issue moves `ENG` only when it is accepted (R95). -/
theorem issueCommand_eng (w : Word) (s : State) :
    (issueCommand w s).eng = s.eng ∨
    (s.status.busy = false ∧ ∃ i, decode w = .command i ∧
      (issueCommand w s).eng = .pending i (liveSnapshot s)) := by
  rcases issueCommand_cases w s with ⟨_, heq⟩ | ⟨_, _, heq⟩ | ⟨hb, i, hd, ⟨_, heq⟩ | ⟨_, heq⟩⟩ <;> rw [heq]
  · exact .inl rfl
  · exact .inl rfl
  · exact .inr ⟨hb, i, hd, rfl⟩
  · exact .inl rfl

/-- Of all host writes only one to CMD touches `ENG`. -/
theorem memWrite_eng {s t : State} {a : HostAddr} {width : Nat} {v : Word} (h : memWrite s a width v = .next t) :
    t.eng = s.eng ∨ (accessOffset a width = .ok 0x000 ∧ t = issueCommand v s) := by
  unfold memWrite at h
  split at h
  · cases h
  case h_2 off hoff =>
    have data : ∀ o, writeData s o v = .next t → t.eng = s.eng := fun o ho => by rw [(writeData_next ho).2]
    cases hl : locate off <;> rw [hl] at h <;> simp only [writeLocation] at h
    case cmd => exact .inr ⟨locate_eq_cmd hl ▸ hoff, (Host.Outcome.next.inj h).symm⟩
    case keccak w => exact .inl (data _ h)
    case msg m => exact .inl (data _ h)
    case bank b m => exact .inl (data _ h)
    all_goals exact .inl (by cases h; rfl)

/-- The host moves `ENG` only by the reset event or by an accepted CMD write. -/
theorem hostStep_eng {s t : State} (h : hostStep s = .next t) :
    t.eng = s.eng ∨ (hostLine s = some .reset ∧ t.eng = .idle) ∨
    (s.status.busy = false ∧ ∃ a width v i, hostLine s = some (.write a width v) ∧
      accessOffset a width = .ok 0x000 ∧ decode (hostValue s.host v) = .command i ∧
      t.eng = .pending i (liveSnapshot s)) := by
  unfold hostStep at h
  split at h
  · cases h; exact .inl rfl
  case h_2 l hline =>
    cases l with
    | write a width v =>
      simp only [hostLineStep, hostWrite] at h
      split at h <;> cases h
      case h_1 u hu =>
        rcases memWrite_eng hu with heng | ⟨hoff, rfl⟩
        · exact .inl heng
        · rcases issueCommand_eng (hostValue s.host v) s with heng | ⟨hb, i, hd, heng⟩
          · exact .inl heng
          · exact .inr (.inr ⟨hb, a, width, v, i, hline, hoff, hd, heng⟩)
    | read a width x =>
      simp only [hostLineStep, hostRead] at h
      split at h <;> cases h
      case h_1 r hr =>
        rcases memRead_next (v := r.1) (t := r.2) (by rw [hr]) with hu | ⟨_, hu⟩
        · exact .inl (show r.2.eng = s.eng by rw [hu])
        · exact .inl (show r.2.eng = s.eng by rw [hu, drawn_eng])
    | label n => cases h; exact .inl rfl
    | branch c n =>
      simp only [hostLineStep, hostGoto] at h
      split at h
      · split at h <;> cases h
        exact .inl rfl
      · cases h; exact .inl rfl
    | halt => cases h; exact .inl rfl
    | reset => cases h; exact .inr (.inl ⟨hline, rfl⟩)

/-- Settles O56: while idle a step is the host's, and while pending the engine's own or a host step that finds
BUSY set, so that no issue is accepted. -/
theorem engineStateMoves : Obligations.EngineStateMoves := by
  intro s t hs ht
  rcases step_cases s with ⟨hidle, heq⟩ | ⟨i, snap, hpend, hturn⟩
  · refine ⟨fun _ hne => ?_, fun i snap hp => (nomatch hidle.symm.trans hp)⟩
    rw [heq] at ht
    rcases hostStep_eng ht with heng | ⟨_, heng⟩ | ⟨_, hissue⟩
    · exact absurd (heng.trans hidle) hne
    · exact absurd heng hne
    · exact hissue
  · refine ⟨fun hidle => (nomatch hpend.symm.trans hidle), fun j snap' hp hne => ?_⟩
    rcases hturn with ⟨_, heq⟩ | ⟨_, heq⟩ <;> rw [heq] at ht
    · cases hpend.symm.trans hp
      exact .inl ht
    · rcases hostStep_eng ht with heng | ⟨hreset, _⟩ | ⟨hb, _⟩
      · exact absurd heng hne
      · exact .inr hreset
      · have hbusy : (waitOne s).status.busy = true := hs.busy_of_pending hpend
        rw [hbusy] at hb
        cases hb

/-! ### STATUS and the other registers (R14 to R16) -/

/-- The flag that STATUS holds at a bit, and 0 in bits 31:5 (R15). -/
def statusBit (t : Status) : Nat → Bool
  | 0 => t.busy
  | 1 => t.done
  | 2 => t.errIllegal
  | 3 => t.errLen
  | 4 => t.errBusy
  | _ => false

theorem statusBit_of_ge (t : Status) {k : Nat} (h : 5 ≤ k) : statusBit t k = false := by
  obtain ⟨j, rfl⟩ := Nat.exists_eq_add_of_le' h
  rfl

theorem getLsbD_statusWord (t : Status) (k : Nat) : (statusWord t).getLsbD k = statusBit t k := by
  unfold statusWord
  rw [BitVec.getLsbD_setWidth]
  by_cases hk : k < 5
  · simp only [BitVec.getLsbD_append, BitVec.getLsbD_ofBool]
    interval_cases k <;> simp [statusBit]
  · rw [BitVec.getLsbD_of_ge _ _ (by omega), Bool.and_false, statusBit_of_ge t (by omega)]

/-- The W1C write in one formula: the mask is bits 4:1 (R15). -/
theorem statusWord_statusW1c (t : Status) (v : Word) :
    statusWord (statusW1c t v) = statusWord t &&& ~~~(v &&& 0x0000001E#32) := by
  apply BitVec.eq_of_getLsbD_eq
  intro k hk
  simp only [BitVec.getLsbD_and, BitVec.getLsbD_not, getLsbD_statusWord, hk]
  by_cases h5 : k < 5
  · interval_cases k <;> simp [statusBit, statusW1c]
  · simp [statusBit_of_ge _ (Nat.not_lt.mp h5)]

/-- Settles O9: the word read is known bit by bit, and the W1C write by its mask. -/
theorem statusReadsAndClears : Obligations.StatusReadsAndClears := by
  intro s v
  refine ⟨⟨statusWord s.status, memRead_rel rfl (by decide), ?_⟩,
    { s with status := statusW1c s.status v }, memWrite_rel rfl (by decide), rfl, rfl, statusWord_statusW1c _ _⟩
  simp only [getLsbD_statusWord]
  exact ⟨rfl, rfl, rfl, rfl, rfl, fun _ => statusBit_of_ge _⟩

theorem readUnlessBusy_idle {s : State} (hb : s.status.busy = false) (q : ReadResult) : readUnlessBusy s q = q := by
  unfold readUnlessBusy
  rw [hb]
  rfl

/-- Settles O10: each offset's location says what its read and its write do; RES0 and RES1 are no draws while idle. -/
theorem controlRegistersReadAndWrite : Obligations.ControlRegistersReadAndWrite := by
  intro s v
  refine ⟨memRead_rel rfl (by decide), memRead_rel rfl (by decide), memWrite_rel rfl (by decide),
    memRead_rel rfl (by decide), memWrite_rel rfl (by decide), memRead_rel rfl (by decide),
    memWrite_rel rfl (by decide), memRead_rel rfl (by decide), memWrite_rel rfl (by decide),
    memRead_rel rfl (by decide), memWrite_rel rfl (by decide), memWrite_rel rfl (by decide),
    memWrite_rel rfl (by decide), fun hb => ⟨?_, ?_⟩⟩
  · exact (memRead_rel rfl (by decide)).trans (readUnlessBusy_idle hb _)
  · exact (memRead_rel rfl (by decide)).trans (readUnlessBusy_idle hb _)

/-! ### Reads of unwritten data (R24, R37) -/

theorem readWord_eq_none_iff {m : Memory} {off : Nat} :
    readWord m off = none ↔ ∃ k, k < 4 ∧ readByte m (off + k) = none := by
  rw [readWord, readValue, Option.map_eq_none_iff, Option.map_eq_none_iff, readBytes_eq_none_iff]

theorem readData_fault_iff {s : State} {off : Nat} :
    readData s off = .fault .unwrittenRead ↔ ∃ k, k < 4 ∧ readByte s.mem (off + k) = none := by
  rw [← readWord_eq_none_iff]
  unfold readData
  cases readWord s.mem off <;> simp

theorem readData_of_written {s : State} {off : Nat} (h : ∀ k, k < 4 → written s.mem (off + k) = true) :
    ∃ v, readData s off = .next (v, s) := by
  unfold readData
  cases hw : readWord s.mem off with
  | none =>
    obtain ⟨k, hk, hn⟩ := readWord_eq_none_iff.mp hw
    have := h k hk
    rw [written, hn] at this
    cases this
  | some v => exact ⟨v, rfl⟩

/-- Where a read is one of the data memory: `MSG` at any time, `S`, `OUT` and `P` while idle (R37). -/
theorem memRead_eq_readData {s : State} {off : Nat} (ha : off % 4 = 0)
    (h : (0x800 ≤ off ∧ off < 0xC00) ∨
      (s.status.busy = false ∧ ((0x100 ≤ off ∧ off < 0x1C8) ∨ (0xC00 ≤ off ∧ off < 0x2000)))) :
    memRead s (.rel off) 4 = readData s off := by
  rw [memRead_rel ha (by omega)]
  rcases h with hmsg | ⟨hb, hkeccak | hrest⟩
  · obtain ⟨m, rfl⟩ : ∃ m, off = 0x800 + 4 * m := ⟨(off - 0x800) / 4, by omega⟩
    rw [locate_msg (by omega)]
    rfl
  · obtain ⟨w, rfl⟩ : ∃ w, off = 0x100 + 4 * w := ⟨(off - 0x100) / 4, by omega⟩
    rw [locate_keccak (by omega)]
    exact readUnlessBusy_idle hb _
  · by_cases hout : off < 0x1000
    · obtain ⟨m, rfl⟩ : ∃ m, off = 0xC00 + 4 * m := ⟨(off - 0xC00) / 4, by omega⟩
      rw [locate_out (by omega)]
      exact readUnlessBusy_idle hb _
    · obtain ⟨b, m, rfl, hm⟩ : ∃ b m, off = 0x1000 + 0x200 * b + 4 * m ∧ m < 128 :=
        ⟨(off - 0x1000) / 0x200, (off - 0x1000) % 0x200 / 4, by omega, by omega⟩
      rw [locate_bank (by omega) hm]
      exact readUnlessBusy_idle hb _

/-- Settles O22: such a read is `readData`, whose two outcomes turn on the four bytes of the word. -/
theorem unwrittenReadsFault : Obligations.UnwrittenReadsFault := by
  intro s off ha hoff
  rw [memRead_eq_readData ha hoff]
  exact ⟨readData_fault_iff, readData_of_written⟩

end Sys2Proof.Machine
end

section
/-! The window's accesses (spec/20_memory.md): the offsets that read 0 or ignore writes and the ROM words
(R27, R29, R35), the words of the data memory as bytes, half lanes and coefficient pairs (R32 to R34), that
a read changes nothing (R36), and that a well-formed host program always has a step (R30, R31, R52, R106). -/

namespace Sys2Proof.Machine

/-! ### Reserved offsets, read-only offsets and the ROMs (R27, R29, R35) -/

/-- R29: no write reaches a ROM, `OUT`, RES0 or RES1, busy or not. -/
theorem memWrite_readOnly {s : State} {off : Nat} {v : Word} (ha : off % 4 = 0)
    (h : (0x200 ≤ off ∧ off < 0x4C0) ∨ (0x500 ≤ off ∧ off < 0x564) ∨ (0xC00 ≤ off ∧ off < 0x1000) ∨
      off = 0x020 ∨ off = 0x024) :
    memWrite s (.rel off) 4 v = .next s := by
  rw [memWrite_rel ha (by omega)]
  rcases h with hrom | hrho | hout | rfl | rfl
  · by_cases hzeta : off < 0x400
    · obtain ⟨k, rfl⟩ : ∃ k, off = 0x200 + 4 * k := ⟨(off - 0x200) / 4, by omega⟩
      rw [locate_zeta (by omega)]
      rfl
    · obtain ⟨r, h, rfl, hh⟩ : ∃ r h, off = 0x400 + 8 * r + 4 * h ∧ h < 2 :=
        ⟨(off - 0x400) / 8, (off - 0x400) / 4 % 2, by omega, by omega⟩
      rw [locate_rc (by omega) hh]
      rfl
  · obtain ⟨i, rfl⟩ : ∃ i, off = 0x500 + 4 * i := ⟨(off - 0x500) / 4, by omega⟩
    rw [locate_rho (by omega)]
    rfl
  · obtain ⟨m, rfl⟩ : ∃ m, off = 0xC00 + 4 * m := ⟨(off - 0xC00) / 4, by omega⟩
    rw [locate_out (by omega)]
    rfl
  · rfl
  · rfl

/-- Settles O11: a reserved offset is the location `reserved`, and no read-only location is written. -/
theorem reservedAndReadOnlyOffsets : Obligations.ReservedAndReadOnlyOffsets := by
  intro s off v ha
  refine ⟨fun h => ?_, memWrite_readOnly ha⟩
  rw [memRead_rel ha (by omega), memWrite_rel ha (by omega), locate_reserved ha h]
  exact ⟨rfl, rfl⟩

theorem memRead_rc (s : State) {r h : Nat} (hr : r < 24) (hh : h < 2) :
    memRead s (.rel (0x400 + 8 * r + 4 * h)) 4 = .next ((RC r).extractLsb' (32 * h) 32, s) := by
  rw [memRead_rel (by omega) (by omega), locate_rc hr hh]
  rfl

/-- Settles O12: each offset of a ROM is the location of its table word. -/
theorem romWordsRead : Obligations.RomWordsRead := by
  refine fun s => ⟨fun k hk => ?_, fun r hr => ⟨memRead_rc s hr (h := 0) (by omega),
    memRead_rc s hr (h := 1) (by omega)⟩, fun i hi => ?_⟩
  · rw [memRead_rel (by omega) (by omega), locate_zeta hk]
    rfl
  · rw [memRead_rel (by omega) (by omega), locate_rho hi]
    rfl

/-! ### Little-endian runs of the data memory (R32 to R34) -/

/-- The bits of `n` bytes from `a`, byte 0 lowest. A word (`n = 4`), a lane (8) and a coefficient (2) are all of
this form, so what its bytes and its parts are is said once. -/
def bitsAt (m : Memory) (a n : Nat) : Option (BitVec (8 * n)) := (readValue m a n).map (BitVec.ofNat (8 * n))

theorem laneAt_eq_bitsAt (m : Memory) (i : Nat) : laneAt m i = bitsAt m (0x100 + 8 * i) 8 := rfl

theorem sext16_eq_toInt_ofNat (n : Nat) : sext 16 (n : Int) = (BitVec.ofNat 16 n).toInt := by
  have hlow : low 16 (n : Int) = ((n % 2 ^ 16 : Nat) : Int) := rfl
  rw [sext, hlow, BitVec.toInt_eq_toNat_cond, BitVec.toNat_ofNat]
  split_ifs <;> omega

theorem coefAt_eq_bitsAt (m : Memory) (b j : Nat) :
    coefAt m b j = (bitsAt m (0x1000 + 0x200 * b + 2 * j) 2).map BitVec.toInt := by
  rw [coefAt, bitsAt, Option.map_map]
  exact congrArg (Option.map · _) (funext sext16_eq_toInt_ofNat)

theorem leBytes_toNat_getElem? {n : Nat} (x : BitVec (8 * n)) {k : Nat} (hk : k < n) :
    (leBytes n x.toNat)[k]? = some (x.extractLsb' (8 * k) 8) := by
  rw [leBytes_getElem?, if_pos hk, Option.some.injEq]
  apply BitVec.eq_of_toNat_eq
  simp [Nat.shiftRight_eq_div_pow, Nat.pow_mul]

theorem bitsAt_eq_some_iff_readBytes {m : Memory} {a n : Nat} {x : BitVec (8 * n)} :
    bitsAt m a n = some x ↔ readBytes m a n = some (leBytes n x.toNat) := by
  have hpow : 2 ^ (8 * n) = 256 ^ n := Nat.pow_mul 2 8 n
  simp only [bitsAt, readValue, Option.map_map, Option.map_eq_some_iff, Function.comp_apply]
  constructor
  · rintro ⟨bs, hbs, rfl⟩
    obtain ⟨rfl, -⟩ := readBytes_eq_some_iff.mp hbs
    rw [hbs, BitVec.toNat_ofNat, hpow, Nat.mod_eq_of_lt (leValue_lt bs), leBytes_leValue]
  · intro h
    refine ⟨_, h, ?_⟩
    rw [leValue_leBytes, ← hpow, Nat.mod_eq_of_lt x.isLt, BitVec.ofNat_toNat, BitVec.setWidth_eq]

/-- A run is the bits `x` exactly when each of its bytes is that byte of `x` (R32). -/
theorem bitsAt_eq_some_iff {m : Memory} {a n : Nat} {x : BitVec (8 * n)} :
    bitsAt m a n = some x ↔ ∀ k, k < n → readByte m (a + k) = some (x.extractLsb' (8 * k) 8) := by
  rw [bitsAt_eq_some_iff_readBytes, readBytes_eq_some_iff, and_iff_right (leBytes_length n x.toNat)]
  exact forall₂_congr fun k hk => by rw [leBytes_toNat_getElem? x hk]

/-- A run of `p + q` bytes is its low `p` bytes and its high `q` bytes. -/
theorem bitsAt_add_eq_some_iff {m : Memory} {a p q : Nat} {x : BitVec (8 * (p + q))} :
    bitsAt m a (p + q) = some x ↔
      bitsAt m a p = some (x.extractLsb' 0 (8 * p)) ∧
      bitsAt m (a + p) q = some (x.extractLsb' (8 * p) (8 * q)) := by
  simp only [bitsAt_eq_some_iff]
  have hlo : ∀ k, k < p → (x.extractLsb' 0 (8 * p)).extractLsb' (8 * k) 8 = x.extractLsb' (8 * k) 8 := fun k hk => by
    ext i hi
    simp [show 8 * k + i < 8 * p by omega]
  have hhi : ∀ k, k < q → (x.extractLsb' (8 * p) (8 * q)).extractLsb' (8 * k) 8 = x.extractLsb' (8 * (p + k)) 8 :=
    fun k hk => by
      ext i hi
      simp [show 8 * k + i < 8 * q by omega, Nat.mul_add, Nat.add_assoc]
  constructor
  · intro h
    refine ⟨fun k hk => ?_, fun k hk => ?_⟩
    · rw [hlo k hk, h k (by omega)]
    · rw [hhi k hk, Nat.add_assoc, h (p + k) (by omega)]
  · rintro ⟨h0, h1⟩ k hk
    by_cases hkp : k < p
    · rw [h0 k hkp, hlo k hkp]
    · obtain ⟨j, rfl⟩ := Nat.exists_eq_add_of_le (Nat.not_lt.mp hkp)
      rw [← Nat.add_assoc, h1 j (by omega), hhi j (by omega)]

theorem readWord_eq_some_iff {m : Memory} {off : Nat} {v : Word} :
    readWord m off = some v ↔ ∀ k, k < 4 → readByte m (off + k) = some (v.extractLsb' (8 * k) 8) :=
  bitsAt_eq_some_iff (n := 4)

theorem readWord_of_bytes {m : Memory} {off : Nat} {b0 b1 b2 b3 : Byte} (h0 : readByte m off = some b0)
    (h1 : readByte m (off + 1) = some b1) (h2 : readByte m (off + 2) = some b2) (h3 : readByte m (off + 3) = some b3) :
    readWord m off = some (b3 ++ b2 ++ b1 ++ b0) := by
  refine readWord_eq_some_iff.mpr fun k hk => ?_
  interval_cases k
  · rw [BitVec.extractLsb'_append_eq_right]
    exact h0
  · rw [BitVec.extractLsb'_append_eq_of_le (by omega), BitVec.extractLsb'_append_eq_right]
    exact h1
  · rw [BitVec.extractLsb'_append_eq_of_le (by omega), BitVec.extractLsb'_append_eq_of_le (by omega),
      BitVec.extractLsb'_append_eq_right]
    exact h2
  · rw [BitVec.extractLsb'_append_eq_of_le (by omega), BitVec.extractLsb'_append_eq_of_le (by omega),
      BitVec.extractLsb'_append_eq_left]
    exact h3

/-- A lane is its two words (R33). -/
theorem laneAt_eq_some_iff_words {m : Memory} {i : Nat} {L : Lane} :
    laneAt m i = some L ↔
      readWord m (0x100 + 8 * i) = some (L.extractLsb' 0 32) ∧
      readWord m (0x100 + 8 * i + 4) = some (L.extractLsb' 32 32) :=
  bitsAt_add_eq_some_iff (p := 4) (q := 4)

theorem laneAt_of_words {m : Memory} {i : Nat} {lo hi : Word} (hlo : readWord m (0x100 + 8 * i) = some lo)
    (hhi : readWord m (0x100 + 8 * i + 4) = some hi) : laneAt m i = some (hi ++ lo) :=
  laneAt_eq_some_iff_words.mpr
    ⟨by rw [BitVec.extractLsb'_append_eq_right, hlo], by rw [BitVec.extractLsb'_append_eq_left, hhi]⟩

/-! ### Words of the data memory (R32, R33, R34) -/

theorem readData_of_readWord {s : State} {off : Nat} {v : Word} (h : readWord s.mem off = some v) :
    readData s off = .next (v, s) := by
  unfold readData
  rw [h]

/-- Where a write is one of the data memory: `S`, `MSG` and `P` while idle (R38). -/
theorem memWrite_eq_writeWord {s : State} {off : Nat} {v : Word} (hb : s.status.busy = false) (ha : off % 4 = 0)
    (h : (0x100 ≤ off ∧ off < 0x1C8) ∨ (0x800 ≤ off ∧ off < 0xC00) ∨ (0x1000 ≤ off ∧ off < 0x2000)) :
    memWrite s (.rel off) 4 v = .next { s with mem := writeWord s.mem off v } := by
  have data : ∀ o, writeData s o v = .next { s with mem := writeWord s.mem o v } := fun o => by
    unfold writeData
    rw [hb]
    rfl
  rw [memWrite_rel ha (by omega)]
  rcases h with hkeccak | hmsg | hbank
  · obtain ⟨w, rfl⟩ : ∃ w, off = 0x100 + 4 * w := ⟨(off - 0x100) / 4, by omega⟩
    rw [locate_keccak (by omega)]
    exact data _
  · obtain ⟨m, rfl⟩ : ∃ m, off = 0x800 + 4 * m := ⟨(off - 0x800) / 4, by omega⟩
    rw [locate_msg (by omega)]
    exact data _
  · obtain ⟨b, m, rfl, hm⟩ : ∃ b m, off = 0x1000 + 0x200 * b + 4 * m ∧ m < 128 :=
      ⟨(off - 0x1000) / 0x200, (off - 0x1000) % 0x200 / 4, by omega, by omega⟩
    rw [locate_bank (by omega) hm]
    exact data _

theorem sameBytesOutside_writeWord (s : State) (off : Nat) (v : Word) :
    SameBytesOutside s { s with mem := writeWord s.mem off v } off 4 := fun a h => by
  simp only [readByte_writeWord]
  rw [if_neg (by omega)]

theorem readWord_writeWord_outside {m : Memory} {off off' : Nat} {v : Word} (h : off' + 4 ≤ off ∨ off + 4 ≤ off') :
    readWord (writeWord m off v) off' = readWord m off' := by
  unfold readWord writeWord
  rw [readValue_writeBytes_outside (by rw [leBytes_length]; exact h)]

theorem msgAt_eq_readByte {m : Memory} {k : Nat} (h : k < 1024) : msgAt m k = readByte m (0x800 + k) := if_pos h

theorem outAt_eq_readByte {m : Memory} {k : Nat} (h : k < 1024) : outAt m k = readByte m (0xC00 + k) := if_pos h

/-- Settles O15: both buffers are words of bytes, and a stored word reads back byte by byte. -/
theorem bufferWordsAreLittleEndian : Obligations.BufferWordsAreLittleEndian := by
  intro s m v hm
  refine ⟨fun hb => ⟨_, memWrite_eq_writeWord hb (by omega) (by omega), rfl, fun k hk => ?_,
    sameBytesOutside_writeWord _ _ _⟩, fun b0 b1 b2 b3 h0 h1 h2 h3 => ?_, fun b0 b1 b2 b3 hb h0 h1 h2 h3 => ?_⟩
  · rw [msgAt_eq_readByte (by omega), ← Nat.add_assoc]
    exact readWord_eq_some_iff.mp (readWord_writeWord_same _ _ _) k hk
  · rw [msgAt_eq_readByte (by omega)] at h0 h1 h2 h3
    rw [memRead_eq_readData (by omega) (.inl (by omega))]
    exact readData_of_readWord (readWord_of_bytes h0 h1 h2 h3)
  · rw [outAt_eq_readByte (by omega)] at h0 h1 h2 h3
    rw [memRead_eq_readData (by omega) (.inr ⟨hb, by omega⟩)]
    exact readData_of_readWord (readWord_of_bytes h0 h1 h2 h3)

/-- A word of `S` is the low or the high half of its lane (R33). -/
theorem readWord_of_laneAt {m : Memory} {w : Nat} {L : Lane} (h : laneAt m (w / 2) = some L) :
    readWord m (0x100 + 4 * w) = some (L.extractLsb' (32 * (w % 2)) 32) := by
  obtain ⟨hlo, hhi⟩ := laneAt_eq_some_iff_words.mp h
  rcases Nat.mod_two_eq_zero_or_one w with hw | hw <;> rw [hw]
  · rw [show 0x100 + 4 * w = 0x100 + 8 * (w / 2) by omega]
    exact hlo
  · rw [show 0x100 + 4 * w = 0x100 + 8 * (w / 2) + 4 by omega]
    exact hhi

/-- A write of a word of `S` replaces that half of its lane (R33). -/
theorem laneAt_writeWord {m : Memory} {w : Nat} {v : Word} {L : Lane} (h : laneAt m (w / 2) = some L) :
    laneAt (writeWord m (0x100 + 4 * w) v) (w / 2) =
      some (if w % 2 = 0 then L.extractLsb' 32 32 ++ v else v ++ L.extractLsb' 0 32) := by
  obtain ⟨hlo, hhi⟩ := laneAt_eq_some_iff_words.mp h
  split
  · rw [show 0x100 + 4 * w = 0x100 + 8 * (w / 2) by omega]
    exact laneAt_of_words (readWord_writeWord_same _ _ _)
      ((readWord_writeWord_outside (by omega)).trans hhi)
  · rw [show 0x100 + 4 * w = 0x100 + 8 * (w / 2) + 4 by omega]
    exact laneAt_of_words ((readWord_writeWord_outside (by omega)).trans hlo) (readWord_writeWord_same _ _ _)

/-- Settles O16: each clause is one of the lemmas of words, lanes and bytes, at a word of `S` while idle. -/
theorem keccakWordsAreHalfLanes : Obligations.KeccakWordsAreHalfLanes := by
  intro s
  have read : ∀ (t : State) (w : Nat) (v : Word), w < 50 → t.status.busy = false →
      readWord t.mem (0x100 + 4 * w) = some v → memRead t (.rel (0x100 + 4 * w)) 4 = .next (v, t) :=
    fun t w v hw hb h => by
      rw [memRead_eq_readData (by omega) (.inr ⟨hb, by omega⟩), readData_of_readWord h]
  refine ⟨fun w v hw hb => ?_, fun w b0 b1 b2 b3 hw hb h0 h1 h2 h3 => read s w _ hw hb (readWord_of_bytes h0 h1 h2 h3),
    fun w L hw hb hL => read s w _ hw hb (readWord_of_laneAt hL), fun i lo hi _ => laneAt_of_words,
    fun k L hk hL => ?_⟩
  · have hv := readWord_writeWord_same s.mem (0x100 + 4 * w) v
    exact ⟨_, memWrite_eq_writeWord hb (by omega) (by omega), rfl, readWord_eq_some_iff.mp hv,
      sameBytesOutside_writeWord _ _ _, read _ w v hw hb hv, fun L => laneAt_writeWord⟩
  · rw [laneAt_eq_bitsAt, bitsAt_eq_some_iff] at hL
    rw [← hL (k % 8) (by omega)]
    congr 1
    omega

/-! ### Coefficient pairs (R34) -/

/-- A word of a bank is its two coefficients, the even one low (R34). -/
theorem readWord_bank_eq_some_iff {mem : Memory} {b m : Nat} {v : Word} :
    readWord mem (0x1000 + 0x200 * b + 4 * m) = some v ↔
      coefAt mem b (2 * m) = some (v.extractLsb' 0 16).toInt ∧
      coefAt mem b (2 * m + 1) = some (v.extractLsb' 16 16).toInt := by
  have hinj : ∀ (a : Nat) (c : BitVec 16), bitsAt mem a 2 = some c ↔ (bitsAt mem a 2).map BitVec.toInt = some c.toInt :=
    fun a c => ((Option.map_injective fun _ _ => BitVec.eq_of_toInt_eq).eq_iff (b := some c)).symm
  rw [coefAt_eq_bitsAt, coefAt_eq_bitsAt, ← hinj, ← hinj,
    show 0x1000 + 0x200 * b + 2 * (2 * m) = 0x1000 + 0x200 * b + 4 * m by omega,
    show 0x1000 + 0x200 * b + 2 * (2 * m + 1) = 0x1000 + 0x200 * b + 4 * m + 2 by omega]
  exact bitsAt_add_eq_some_iff (p := 2) (q := 2)

/-- A coefficient read is the value of the 16 bits that hold it (R19). -/
theorem toInt_ofInt_of_coefAt {m : Memory} {b j : Nat} {c : Int} (h : coefAt m b j = some c) :
    (BitVec.ofInt 16 c).toInt = c := by
  obtain ⟨hlo, hhi⟩ := coefAt_range h
  exact BitVec.toInt_ofInt_eq_self (by decide) hlo hhi

/-- Settles O17: a word of a bank and its two coefficients say the same (`readWord_bank_eq_some_iff`). -/
theorem bankWordsAreCoefficientPairs : Obligations.BankWordsAreCoefficientPairs := by
  intro s b m hm hb
  refine ⟨fun v => ⟨_, memWrite_eq_writeWord hb (by omega) (by omega), rfl, sameBytesOutside_writeWord _ _ _,
    readWord_bank_eq_some_iff.mp (readWord_writeWord_same _ _ _)⟩, fun c0 c1 h0 h1 => ?_⟩
  rw [memRead_eq_readData (by omega) (.inr ⟨hb, by omega⟩)]
  refine readData_of_readWord (readWord_bank_eq_some_iff.mpr ⟨?_, ?_⟩)
  · rw [BitVec.extractLsb'_append_eq_right, toInt_ofInt_of_coefAt h0, h0]
  · rw [BitVec.extractLsb'_append_eq_left, toInt_ofInt_of_coefAt h1, h1]

/-! ### Reads (R36) -/

/-- Settles O21: a read leaves the state but for a draw's own count, which is none of the block's. -/
theorem readsHaveNoSideEffects : Obligations.ReadsHaveNoSideEffects := by
  intro s t a width v h
  rcases memRead_next h with rfl | ⟨_, rfl⟩
  · exact ⟨rfl, rfl⟩
  · exact ⟨rfl, rfl⟩

/-! ### Well-formed host programs (R30, R31, R52, R106) -/

theorem mem_programLabels {p : List HostLine} {l : Nat} : l ∈ programLabels p ↔ HostLine.label l ∈ p := by
  induction p with
  | nil => simp [programLabels]
  | cons x p ih => cases x <;> simp [programLabels, ih]

theorem labelLine_isSome {p : List HostLine} {l : Nat} (h : l ∈ programLabels p) : (labelLine p l).isSome := by
  rw [labelLine, List.findIdx?_isSome, List.any_eq_true]
  exact ⟨_, mem_programLabels.mp h, beq_self_eq_true _⟩

/-- An access that `lineWf` passes is one with a step. -/
theorem accessRefused_of_aligned {off width : Nat} (h : (width == 4 && off % 4 == 0 && decide (off < 0x2000)) = true) :
    accessRefused (.rel off) width = false := by
  simp only [Bool.and_eq_true, beq_iff_eq, decide_eq_true_eq] at h
  obtain ⟨⟨rfl, ha⟩, hlt⟩ := h
  rw [accessRefused, accessOffset_rel ha hlt]

theorem hostGoto_ne_refused {s : State} {l : Nat} (h : l ∈ programLabels s.host.program) (r : Refusal) :
    hostGoto s l ≠ .refused r := by
  obtain ⟨n, hn⟩ := Option.isSome_iff_exists.mp (labelLine_isSome h)
  rw [hostGoto, hn]
  exact fun h => nomatch h

/-- A line that passes its check has a step. -/
theorem hostLineStep_ne_refused {s : State} {l : HostLine} (h : lineWf (programLabels s.host.program) l = true)
    (r : Refusal) : hostLineStep s l ≠ .refused r := by
  cases l with
  | write a width v =>
    cases a with
    | rel off => exact fun hr => by simpa [accessRefused_of_aligned h] using hostWrite_refused_iff.mp ⟨r, hr⟩
    | abs addr => cases h
  | read a width t =>
    cases a with
    | rel off => exact fun hr => by simpa [accessRefused_of_aligned h] using hostRead_refused_iff.mp ⟨r, hr⟩
    | abs addr => cases h
  | label n => exact fun hr => nomatch hr
  | branch c n =>
    rw [hostLineStep]
    split
    · exact hostGoto_ne_refused (by simpa [lineWf] using h) r
    · exact fun hr => nomatch hr
  | halt => exact fun hr => nomatch hr
  | reset => exact fun hr => nomatch hr

theorem hostStep_ne_refused {s : State} (h : programWf s.host.program = true) (r : Refusal) :
    hostStep s ≠ .refused r := by
  rw [programWf, Bool.and_eq_true, List.all_eq_true] at h
  obtain ⟨hlines, _⟩ := h
  unfold hostStep
  cases hl : hostLine s with
  | none => exact fun hr => nomatch hr
  | some l => exact hostLineStep_ne_refused (hlines l (List.mem_of_getElem? hl)) r

/-- Settles O59: a step is a command's, which is never refused, or a line's of the well-formed program. -/
theorem wellFormedProgramsAreNeverRefused : Obligations.WellFormedProgramsAreNeverRefused := by
  intro s h r
  rcases step_cases s with ⟨_, heq⟩ | ⟨i, _, _, ⟨_, heq⟩ | ⟨_, heq⟩⟩ <;> rw [heq]
  · exact hostStep_ne_refused h r
  · exact exec_ne_refused i s r
  · exact hostStep_ne_refused (s := waitOne s) h r

end Sys2Proof.Machine
end

section
/-! The decoder and the encoder (spec/30_encoding.md): a word is accepted for a command exactly when its fields
are that command's (R44, R46), and for some command exactly when they are legal (R47, R48). -/

namespace Sys2Proof.Laws

/-! ### Decoding is matching fields -/

@[simp] theorem instrFields_reservedZero (i : Instr) : (instrFields i).reservedZero = true := by cases i <;> rfl

@[simp] theorem bankOf_ofFin (b : Fin 8) : bankOf (BitVec.ofFin b) = b := rfl

@[simp] theorem ofFin_bankOf (b : BitVec 3) : BitVec.ofFin (bankOf b) = b := rfl

theorem decodeFields_instrFields (i : Instr) : decodeFields (instrFields i) = .command i := by
  cases i <;> simp [decodeFields, instrFields, need]

/-- Every branch of the decoder that answers a command has pinned OP, FN and the unused fields to the command's, and
takes its banks from the others. -/
theorem eq_instrFields_of_decodeFields {f : CommandFields} {i : Instr} (hr : f.reservedZero = true)
    (h : decodeFields f = .command i) : f = instrFields i := by
  obtain ⟨op, fn, rd, ra, rb, r15, r19, rh⟩ := f
  simp only [Bool.and_eq_true, beq_iff_eq] at hr
  obtain ⟨⟨rfl, rfl⟩, rfl⟩ := hr
  revert h
  unfold decodeFields
  repeat' refine Machine.ite_cases (fun _ => ?_) (fun _ => ?_)
  all_goals rintro ⟨⟩
  all_goals simp_all [instrFields]

/-- A word is accepted for a command exactly when its fields are the command's (R46, R47). -/
theorem decode_eq_command_iff {w : Word} {i : Instr} : decode w = .command i ↔ wordFields w = instrFields i := by
  unfold decode
  constructor
  · intro h
    split at h
    case isTrue hr => exact eq_instrFields_of_decodeFields hr h
    case isFalse => cases h
  · intro h
    rw [h, if_pos (instrFields_reservedZero i), decodeFields_instrFields]

/-- Settles O1: six closed words, run through the decoder. -/
theorem specWordsDecode : Obligations.SpecWordsDecode := by
  unfold Obligations.SpecWordsDecode
  decide

theorem encode_of_decode {w : Word} {i : Instr} (h : decode w = .command i) : encode i = w := by
  rw [encode, ← decode_eq_command_iff.mp h, fieldsWord_wordFields]

/-- Settles O2: the fields of an encoding are the command's. -/
theorem decodeOfEncodeIsIdentity : Obligations.DecodeOfEncodeIsIdentity :=
  fun i _ => decode_eq_command_iff.mpr (wordFields_encode i)

/-- Settles O3: a word is made of its fields, and an accepted word's are its command's. -/
theorem encodeOfDecodeIsIdentity : Obligations.EncodeOfDecodeIsIdentity := fun _ _ => encode_of_decode

/-! ### Legal fields (R47, R48) -/

theorem instrFields_wf (i : Instr) : (instrFields i).wf = true := by
  cases i <;> simp [instrFields]

theorem fn_cases_of_lt_four {fn : BitVec 4} (h : fn.ult 4#4 = true) :
    fn = 0#4 ∨ fn = 1#4 ∨ fn = 2#4 ∨ fn = 3#4 := by
  revert fn
  decide

/-- Under each assigned OP the legal fields are the ones the decoder asks for. -/
theorem decodeFields_of_wf {f : CommandFields} (h : f.wf = true) : ∃ i, decodeFields f = .command i := by
  obtain ⟨op, fn, rd, ra, rb, r15, r19, rh⟩ := f
  simp only [CommandFields.wf, Bool.and_eq_true] at h
  obtain ⟨⟨⟨_, hop⟩, hfn⟩, hbanks⟩ := h
  simp only [List.contains_iff_mem, List.mem_cons, List.not_mem_nil, or_false] at hop
  rcases hop with rfl | rfl | rfl | rfl | rfl | rfl | rfl | rfl | rfl | rfl | rfl | rfl
  case inr.inr.inl =>
    rcases fn_cases_of_lt_four (by simpa using hfn) with rfl | rfl | rfl | rfl <;>
      simp_all [decodeFields, need]
  all_goals simp_all [decodeFields, need]

theorem reservedZero_of_wf {f : CommandFields} (h : f.wf = true) : f.reservedZero = true := by
  simp only [CommandFields.wf, Bool.and_eq_true] at h ⊢
  obtain ⟨⟨⟨hr, _⟩, _⟩, _⟩ := h
  exact hr

theorem decode_accepts_iff_wf (w : Word) : (∃ i, decode w = .command i) ↔ (wordFields w).wf = true := by
  constructor
  · rintro ⟨i, h⟩
    rw [decode_eq_command_iff.mp h, instrFields_wf]
  · intro h
    rw [decode, if_pos (reservedZero_of_wf h)]
    exact decodeFields_of_wf h

/-- Settles O4: legal fields are those of a command, and an accepted word is the encoding of its command. -/
theorem decodeAcceptsExactlyLegalFields : Obligations.DecodeAcceptsExactlyLegalFields :=
  ⟨decode_accepts_iff_wf, fun _ _ _ hv hw => (encode_of_decode hv).symm.trans (encode_of_decode hw)⟩

end Sys2Proof.Laws
end

section
/-! The rows of the table of spec/30_encoding.md R46: by mask and match, by mnemonic, and the bank fields. -/

namespace Sys2Proof.Laws

/-- The row's command with these banks in the fields it names. -/
def withBanks (i : Instr) (d a b : Fin 8) : Instr :=
  match i with
  | .ntt _ => .ntt d
  | .basemul _ _ _ => .basemul d a b
  | .padd _ _ _ => .padd d a b
  | .psub _ _ _ => .psub d a b
  | .preduce _ _ => .preduce d a
  | i => i

@[simp] theorem mnemonic_withBanks (i : Instr) (d a b : Fin 8) : mnemonic (withBanks i d a b) = mnemonic i := by
  cases i <;> rfl

@[simp] theorem withBanks_withBanks (i : Instr) (d a b d' a' b' : Fin 8) :
    withBanks (withBanks i d' a' b') d a b = withBanks i d a b := by
  cases i <;> rfl

/-- The table of R46, a command with its banks 0 for each row. -/
def tableRows : List Instr :=
  [.keccakF, .stateClear, .sha3_256, .sha3_512, .shake128, .shake256, .barrett, .montgomery, .csubq, .butterfly,
    .ntt 0, .basemul 0 0 0, .padd 0 0 0, .psub 0 0 0, .preduce 0 0]

theorem withBanks_zero_mem_tableRows (i : Instr) : withBanks i 0 0 0 ∈ tableRows := by
  cases i <;> simp [withBanks, tableRows]

theorem tableRows_mnemonics_nodup : (tableRows.map mnemonic).Nodup := by
  simp [tableRows, mnemonic]

/-- A mnemonic names one row: its commands differ in their banks only. -/
theorem withBanks_eq_of_mnemonic_eq {i j : Instr} (h : mnemonic j = mnemonic i) (d a b : Fin 8) :
    withBanks j d a b = withBanks i d a b := by
  have hrow : withBanks j 0 0 0 = withBanks i 0 0 0 :=
    List.inj_on_of_nodup_map tableRows_mnemonics_nodup (withBanks_zero_mem_tableRows j)
      (withBanks_zero_mem_tableRows i) (by simpa using h)
  rw [← withBanks_withBanks j d a b 0 0 0, hrow, withBanks_withBanks]

/-- The row's command with the bank numbers of these fields. -/
def withBanksOf (i : Instr) (f : CommandFields) : Instr := withBanks i (bankOf f.rd) (bankOf f.ra) (bankOf f.rb)

theorem withBanksOf_instrFields (i : Instr) : withBanksOf i (instrFields i) = i := by
  cases i <;> simp [withBanksOf, withBanks, instrFields]

theorem wordFields_injective : Function.Injective wordFields :=
  Function.LeftInverse.injective fieldsWord_wordFields

theorem wordFields_and (v w : Word) : wordFields (v &&& w) =
    { op := (wordFields v).op &&& (wordFields w).op, fn := (wordFields v).fn &&& (wordFields w).fn
      rd := (wordFields v).rd &&& (wordFields w).rd, ra := (wordFields v).ra &&& (wordFields w).ra
      rb := (wordFields v).rb &&& (wordFields w).rb, rsv15 := (wordFields v).rsv15 &&& (wordFields w).rsv15
      rsv19 := (wordFields v).rsv19 &&& (wordFields w).rsv19
      rsvHigh := (wordFields v).rsvHigh &&& (wordFields w).rsvHigh } := by
  simp [wordFields, BitVec.extractLsb'_and]

/-- The mask of a bank field: the row's match pins it exactly when the command does not use it (R47). -/
def bankMask (used : Bool) : BitVec 3 := if used then 0#3 else BitVec.allOnes 3

/-- A row's mask keeps every field but the banks the command uses. -/
theorem wordFields_tableMask (i : Instr) : wordFields (tableMask i) =
    { op := BitVec.allOnes 8, fn := BitVec.allOnes 4, rd := bankMask (usesRd (instrFields i).op)
      ra := bankMask (usesRa (instrFields i).op), rb := bankMask (usesRb (instrFields i).op)
      rsv15 := BitVec.allOnes 1, rsv19 := BitVec.allOnes 1, rsvHigh := BitVec.allOnes 9 } := by
  cases i <;> simp only [tableMask, instrFields] <;> rfl

theorem and_bankMask (b : BitVec 3) (used : Bool) : b &&& bankMask used = if used then 0#3 else b := by
  cases used
  · exact BitVec.and_allOnes
  · exact BitVec.and_zero

theorem wordFields_and_tableMask (w : Word) (i : Instr) : wordFields (w &&& tableMask i) =
    { wordFields w with
      rd := if usesRd (instrFields i).op then 0#3 else (wordFields w).rd
      ra := if usesRa (instrFields i).op then 0#3 else (wordFields w).ra
      rb := if usesRb (instrFields i).op then 0#3 else (wordFields w).rb } := by
  simp only [wordFields_and, wordFields_tableMask, and_bankMask, BitVec.and_allOnes]

theorem wordFields_tableMatch (i : Instr) : wordFields (tableMatch i) = instrFields (withBanks i 0 0 0) := by
  cases i <;> simp only [tableMatch, withBanks] <;> rfl

/-- A word passes a row's mask and match exactly when it is the row's command with the word's own banks (R46). -/
theorem and_tableMask_eq_iff (w : Word) (i : Instr) :
    w &&& tableMask i = tableMatch i ↔ wordFields w = instrFields (withBanksOf i (wordFields w)) := by
  rw [← wordFields_injective.eq_iff, wordFields_and_tableMask, wordFields_tableMatch]
  generalize wordFields w = f
  obtain ⟨op, fn, rd, ra, rb, r15, r19, rh⟩ := f
  cases i <;> simp [withBanksOf, withBanks, instrFields]

/-! ### The bank fields (R45, R46) -/

/-- Bits 14:12, 18:16 and 22:20 of an accepted word are its command's bank fields. -/
theorem bankFields_of_decode {w : Word} {i : Instr} (h : decode w = .command i) :
    w.extractLsb' 12 3 = (instrFields i).rd ∧ w.extractLsb' 16 3 = (instrFields i).ra ∧
      w.extractLsb' 20 3 = (instrFields i).rb := by
  rw [← decode_eq_command_iff.mp h]
  exact ⟨rfl, rfl, rfl⟩

/-- A word passes a row's mask and match exactly when it decodes to a command of the row's mnemonic (R46): both say
that it is the row's command with the word's own banks. -/
theorem and_tableMask_eq_iff_decode (w : Word) (i : Instr) :
    w &&& tableMask i = tableMatch i ↔ ∃ j, decode w = .command j ∧ mnemonic j = mnemonic i := by
  rw [and_tableMask_eq_iff, ← decode_eq_command_iff]
  constructor
  · exact fun h => ⟨_, h, mnemonic_withBanks ..⟩
  · rintro ⟨j, hj, hm⟩
    have hbanks : withBanksOf j (wordFields w) = j := by
      rw [decode_eq_command_iff.mp hj, withBanksOf_instrFields]
    rw [withBanksOf, ← withBanks_eq_of_mnemonic_eq hm]
    exact hj.trans (congrArg _ hbanks.symm)

/-- Settles O5: mask and match pin a row's fields, and the banks are the fields left free. -/
theorem tableMaskAndMatchDecide : Obligations.TableMaskAndMatchDecide := by
  refine ⟨and_tableMask_eq_iff_decode, fun w d h => ?_, fun w d a h => ?_, fun w d a b h => ?_⟩
  · obtain ⟨hd, _, _⟩ := bankFields_of_decode h
    simp [hd, instrFields]
  · obtain ⟨hd, ha, _⟩ := bankFields_of_decode h
    simp [hd, ha, instrFields]
  · rcases h with h | h | h <;> obtain ⟨hd, ha, hb⟩ := bankFields_of_decode h <;> simp [hd, ha, hb, instrFields]

end Sys2Proof.Laws
end

section
/-! Rejected codes (spec/30_encoding.md R48) and the lines of a host program (R52). -/

namespace Sys2Proof.Machine

open Sys2Proof.Laws

/-! ### Rejection of a CMD write (R48, R95) -/

theorem decode_illegal_of_not_wf {w : Word} (h : (wordFields w).wf ≠ true) : ∃ y, decode w = .illegal y := by
  cases hd : decode w with
  | command i => exact absurd ((decode_accepts_iff_wf w).mp ⟨i, hd⟩) h
  | illegal y => exact ⟨y, rfl⟩

theorem memWrite_cmd (s : State) (w : Word) : memWrite s (.rel 0x000) 4 w = .next (issueCommand w s) :=
  memWrite_rel rfl (by decide)

theorem issueCommand_of_illegal {s : State} {w : Word} {y : Illegal} (hb : s.status.busy = false)
    (hd : decode w = .illegal y) : issueCommand w s = raiseError .illegal { s with cmdLast := w } := by
  rw [issueCommand, hb, hd]
  rfl

/-- Legal fields have an assigned OP, and an FN below 4 under OP 0x03 (R48). -/
theorem assigned_of_wf {f : CommandFields} (h : f.wf = true) :
    f.op ∈ assignedOps ∧ (f.op = 0x03#8 → f.fn.toNat < 4) := by
  simp only [CommandFields.wf, Bool.and_eq_true, List.contains_iff_mem] at h
  obtain ⟨⟨⟨_, hop⟩, hfn⟩, _⟩ := h
  refine ⟨hop, fun h3 => ?_⟩
  rw [CommandFields.fnLegal, h3] at hfn
  exact BitVec.lt_def.mp (BitVec.ult_iff_lt.mp hfn)

/-- Settles O8: a word with an unassigned code has no legal fields, so its issue raises ERR_ILLEGAL. -/
theorem unassignedCodesAreRejected : Obligations.UnassignedCodesAreRejected := by
  intro s w hb h
  have hwf : (wordFields w).wf ≠ true := fun hwf => by
    obtain ⟨hop, hfn⟩ := assigned_of_wf hwf
    rcases h with hop' | ⟨h3, hfn'⟩
    · exact hop' hop
    · exact absurd (hfn h3) (Nat.not_lt.mpr hfn')
  obtain ⟨y, hd⟩ := decode_illegal_of_not_wf hwf
  rw [memWrite_cmd, issueCommand_of_illegal hb hd]
  rfl

/-! ### The host's variables (R52) -/

theorem lookupVar_append (vs us : List (Nat × Word)) (t : Nat) :
    lookupVar (vs ++ us) t = (lookupVar vs t).or (lookupVar us t) := by
  induction vs with
  | nil => rfl
  | cons c vs ih =>
    simp only [List.cons_append, lookupVar]
    split
    · rfl
    · exact ih

theorem lookupVar_filter (vs : List (Nat × Word)) (p : Nat → Bool) (t : Nat) :
    lookupVar (vs.filter fun c => p c.1) t = if p t then lookupVar vs t else none := by
  induction vs with
  | nil => simp [lookupVar]
  | cons c vs ih =>
    by_cases hc : c.1 = t
    · subst hc
      cases hp : p c.1 <;> simp_all [lookupVar]
    · cases hp : p c.1 <;> simp [lookupVar, hp, hc, ih]

/-- A setting is what its variable holds, and leaves the other variables. -/
theorem varValue_setVar (h : HostAgent) (x y : Nat) (v : Word) :
    varValue (setVar h x v) y = if y = x then v else varValue h y := by
  simp only [varValue, setVar, lookupVar_append, lookupVar, lookupVar_filter _ (fun k => decide (k < x)),
    lookupVar_filter _ (fun k => decide (x < k)), decide_eq_true_eq]
  rcases Nat.lt_trichotomy y x with hlt | rfl | hgt
  · simp [hlt, hlt.ne, hlt.ne', hlt.asymm]
  · simp
  · simp [hgt, hgt.ne, hgt.ne', hgt.asymm]

/-! ### Host lines (R52) -/

theorem labelLine_some {p : List HostLine} {l n : Nat} (h : labelLine p l = some n) : p[n]? = some (.label l) := by
  obtain ⟨hn, hl, _⟩ := List.findIdx?_eq_some_iff_getElem.mp h
  rw [List.getElem?_eq_getElem hn, eq_of_beq hl]

theorem hostGoto_of_label {s : State} {l : Nat} (h : HostLine.label l ∈ s.host.program) :
    ∃ n, hostGoto s l = .next { s with host := { s.host with line := n } } ∧
      s.host.program[n]? = some (.label l) := by
  obtain ⟨n, hn⟩ := Option.isSome_iff_exists.mp (labelLine_isSome (mem_programLabels.mpr h))
  exact ⟨n, by rw [hostGoto, hn], labelLine_some hn⟩

theorem memRead_host {s t : State} {a : HostAddr} {width : Nat} {v : Word} (h : memRead s a width = .next (v, t)) :
    t.host = s.host := by
  rcases memRead_next h with rfl | ⟨_, rfl⟩ <;> rfl

/-- A read line leaves the block, and moves the host to its next line with the value in the line's variable. -/
theorem hostLineStep_read {s t : State} {a : HostAddr} {width : Nat} {v : Word} (x : Nat)
    (h : memRead s a width = .next (v, t)) :
    ∃ u, hostLineStep s (.read a width x) = .next u ∧ SameBlock s u ∧
      u.host = { setVar s.host x v with line := s.host.line + 1 } := by
  refine ⟨_, by rw [hostLineStep, hostRead, h], ?_, by simp [memRead_host h]⟩
  rcases memRead_next h with rfl | ⟨_, rfl⟩ <;> rfl

/-- Settles O58: a line at a time, the read by what a read may change. -/
theorem hostLinesRun : Obligations.HostLinesRun := by
  intro s
  refine ⟨fun a width x v t h => ?_, fun a width v t h => ?_, fun c l h => ?_, fun c l h hl => ?_,
    fun _ => rfl, rfl⟩
  · obtain ⟨u, hu, hblock, hhost⟩ := hostLineStep_read x h
    have hvar (y : Nat) : varValue u.host y = if y = x then v else varValue s.host y := by
      rw [hhost]
      exact varValue_setVar s.host x y v
    refine ⟨u, hu, hblock, by rw [hhost], by rw [hvar, if_pos rfl], fun y hy => by rw [hvar, if_neg hy]⟩
  · rw [hostLineStep, hostWrite, h]
    rfl
  · rw [hostLineStep, h]
    rfl
  · rw [hostLineStep, if_pos h]
    exact hostGoto_of_label hl

end Sys2Proof.Machine
end

section
/-! The two commands over the Keccak state (spec/40_keccak.md R62, R63): what a command that stores a state does. -/

namespace Sys2Proof.Machine

theorem sameBytesOutside_storeKeccak (s : State) (A : KState) :
    SameBytesOutside s (complete { s with mem := storeKeccak s.mem A }) keccakBase 200 :=
  fun _ => readByte_storeKeccak_outside

/-- After a command that ends by storing a state, `S` holds its lanes and nothing outside `S` but the end of the step (R97)
has changed. -/
theorem exec_storing_keccak {i : Instr} {s : State} {A : KState}
    (h : exec i s = .next (complete { s with mem := storeKeccak s.mem A })) :
    ∃ t, exec i s = .next t ∧ (∀ k (hk : k < 25), laneAt t.mem k = some A[k]) ∧
      SameBytesOutside s t keccakBase 200 ∧ SameControl s t ∧ SameResults s t ∧ Finished t :=
  ⟨_, h, laneAt_storeKeccak s.mem A, sameBytesOutside_storeKeccak s A, (EngineEffect.keccak A).sameControl,
    ⟨rfl, rfl⟩, complete_finished _⟩

/-- Settles O23: a written `S` is read as its lanes, and the command stores the permuted state. -/
theorem keccakFCommandPermutes : Obligations.KeccakFCommandPermutes := by
  intro s A hA
  have hread : readKeccak s.mem = some A := readKeccak_eq_some_iff.mpr hA
  exact exec_storing_keccak ((exec_keccakF s).trans (execKeccakF_eq s hread))

/-- Settles O24: the command reads nothing and stores the state whose lanes are all 0. -/
theorem stateClearCommandZeroes : Obligations.StateClearCommandZeroes := by
  intro s
  obtain ⟨t, ht, hlanes, hframe⟩ := exec_storing_keccak (exec_stateClear s)
  refine ⟨t, ht, fun i hi => ?_, hframe⟩
  rw [hlanes i hi, zeroState, Vector.getElem_replicate]

end Sys2Proof.Machine
end

section
/-! The tables of the permutation from their generators (spec/40_keccak.md R55, R56). -/

namespace Sys2Proof.Machine

/-- One step of the walk of R55 through the lanes. -/
def rhoWalk (c : Nat × Nat) : Nat × Nat := (c.2, (2 * c.1 + 3 * c.2) % 5)

/-- The rotation at each lane of the walk is the triangular number of its step (R55). -/
theorem RHO_rhoWalk : ∀ t < 24,
    RHO ((rhoWalk^[t] (1, 0)).1 + 5 * (rhoWalk^[t] (1, 0)).2) = (t + 1) * (t + 2) / 2 % 64 := by
  decide

/-- One step of the LFSR of R56. -/
def lfsrStep (R : Nat) : Nat := if 256 ≤ 2 * R then 2 * R ^^^ 0x171 else 2 * R

/-- The places `2^j - 1` of a round constant take their bits from the LFSR (R56). -/
theorem getLsbD_RC_lfsr : ∀ r < 24, ∀ j < 7,
    (RC r).getLsbD (2 ^ j - 1) = decide (lfsrStep^[(j + 7 * r) % 255] 1 % 2 = 1) := by
  decide

/-- The bits `2^j - 1` for `j` in 0..6, the only ones R56 sets. -/
def rcMask : Lane := 0x800000008000808B#64

theorem rcMask_bit : ∀ i < 64, rcMask.getLsbD i = true → ∃ j < 7, i = 2 ^ j - 1 := by decide

theorem RC_and_rcMask : ∀ r < 24, RC r &&& rcMask = RC r := by decide

/-- A set bit of a round constant is at a place `2^j - 1`. -/
theorem exists_of_getLsbD_RC {r i : Nat} (hr : r < 24) (hi : i < 64) (h : (RC r).getLsbD i = true) :
    ∃ j < 7, i = 2 ^ j - 1 := by
  rw [← RC_and_rcMask r hr, BitVec.getLsbD_and, Bool.and_eq_true] at h
  exact rcMask_bit i hi h.2

/-- Settles O13: the rotations along the walk; a bit of a round constant is at one of the seven places of R56, where
the LFSR gives it. -/
theorem rhoAndRoundConstantTables : Obligations.RhoAndRoundConstantTables := by
  refine ⟨rfl, fun t ht x y hxy => ?_, fun r i hr hi => ⟨fun h => ?_, fun h => ?_⟩⟩
  · have hwalk : rhoWalk^[t] (1, 0) = (x, y) := hxy
    have hrho := RHO_rhoWalk t ht
    rwa [hwalk] at hrho
  · obtain ⟨j, hj, rfl⟩ := exists_of_getLsbD_RC hr hi h
    rw [getLsbD_RC_lfsr r hr j hj] at h
    exact ⟨j, hj, rfl, of_decide_eq_true h⟩
  · obtain ⟨j, hj, rfl, hlfsr⟩ := h
    rw [getLsbD_RC_lfsr r hr j hj]
    exact decide_eq_true hlfsr

end Sys2Proof.Machine
end

section
/-! The parts of the sponge (spec/41_sponge.md R65 to R67): bytes of the state, blocks XORed in, absorbing and the
final block. -/

namespace Sys2Proof.Machine

/-! ### Bytes of the state (R65) -/

theorem stateByte_eq_extractLsb' (A : KState) (k : Nat) :
    stateByte A k = (laneOf A (k / 8)).extractLsb' (8 * (k % 8)) 8 := rfl

theorem laneOf_xorByte (A : KState) {k : Nat} (hk : k < 200) (v : Byte) (i : Nat) :
    laneOf (xorByte A k v) i =
      if i = k / 8 then laneOf A (k / 8) ^^^ (v.setWidth 64 <<< (8 * (k % 8))) else laneOf A i := by
  have hlane : k / 8 < 25 := by omega
  simp only [laneOf, xorByte, Vector.getElem?_setIfInBounds, @eq_comm Nat i]
  split <;> simp [hlane]

/-- A byte moved to place `p` of a lane is the byte at place `p`, and 0 at the others. -/
theorem extractLsb'_byte_shiftLeft (v : Byte) {p q : Nat} (hp : p < 8) (hq : q < 8) :
    (v.setWidth 64 <<< (8 * p)).extractLsb' (8 * q) 8 = if q = p then v else 0#8 := by
  ext i hi
  rw [BitVec.getElem_extractLsb', BitVec.getLsbD_shiftLeft, BitVec.getLsbD_setWidth]
  rcases Nat.lt_trichotomy q p with hlt | rfl | hgt
  · simp [hlt.ne, show 8 * q + i < 8 * p by omega]
  · simp [show 8 * q + i < 64 by omega, show i < 64 by omega, BitVec.getLsbD_eq_getElem hi]
  · have hout : v.getLsbD (8 * q + i - 8 * p) = false := BitVec.getLsbD_of_ge _ _ (by omega)
    simp [hgt.ne', hout]

theorem stateByte_xorByte (A : KState) {k j : Nat} (hk : k < 200) (v : Byte) :
    stateByte (xorByte A k v) j = if j = k then stateByte A k ^^^ v else stateByte A j := by
  rw [stateByte_eq_extractLsb', laneOf_xorByte A hk]
  by_cases hlane : j / 8 = k / 8
  · rw [if_pos hlane, BitVec.extractLsb'_xor, extractLsb'_byte_shiftLeft v (by omega) (by omega), ← hlane]
    by_cases hjk : j = k
    · rw [if_pos hjk, if_pos (by rw [hjk]), hjk, stateByte_eq_extractLsb']
    · rw [if_neg hjk, if_neg (by omega), BitVec.xor_zero, stateByte_eq_extractLsb']
  · rw [if_neg hlane, if_neg fun hjk => hlane (by rw [hjk]), stateByte_eq_extractLsb']

/-! ### Blocks (R66, R67) -/

theorem xorBlock_append_singleton (A : KState) (F : List Byte) (v : Byte) :
    xorBlock A (F ++ [v]) = xorByte (xorBlock A F) F.length v := by
  simp [xorBlock, List.zipIdx_append]

theorem stateByte_xorBlock (A : KState) {F : List Byte} (hF : F.length ≤ 200) (k : Nat) :
    stateByte (xorBlock A F) k = if k < F.length then stateByte A k ^^^ F.getD k 0#8 else stateByte A k := by
  induction F using List.reverseRecOn with
  | nil => rfl
  | append_singleton F v ih =>
    rw [List.length_append, List.length_singleton] at hF ⊢
    rw [xorBlock_append_singleton, stateByte_xorByte _ (by omega)]
    rcases Nat.lt_trichotomy k F.length with hlt | rfl | hgt
    · rw [if_neg hlt.ne, ih (by omega), if_pos hlt, if_pos (by omega), List.getD_append _ _ _ _ hlt]
    · rw [if_pos rfl, ih (by omega), if_neg (by omega), if_pos (by omega)]
      simp
    · rw [if_neg hgt.ne', ih (by omega), if_neg (by omega), if_neg (by omega)]

/-- Settles O26: `xorByte` by the lane it touches and the place in it; a block by its bytes from the first. -/
theorem stateBytesAndXorByte : Obligations.StateBytesAndXorByte :=
  ⟨fun A k _ v hk _ => ⟨stateByte_eq_extractLsb' A k, stateByte_xorByte A hk v⟩,
    fun A _ k hF _ => stateByte_xorBlock A hF k⟩

/-! ### Absorbing (R66) -/

theorem absorb_of_lt {r : Nat} {M : List Byte} (h : M.length < r) (A : KState) : absorb r M A = A := by
  rw [absorb, Nat.div_eq_of_lt h]
  rfl

theorem absorbTail_of_lt {r : Nat} {M : List Byte} (h : M.length < r) : absorbTail r M = M := by
  rw [absorbTail, Nat.div_eq_of_lt h, Nat.zero_mul, List.drop_zero]

/-- Taking the first block off a message takes one from its number of blocks. -/
theorem length_div_block {r : Nat} {M : List Byte} (hr : 0 < r) (h : r ≤ M.length) :
    M.length / r = (M.drop r).length / r + 1 := by
  rw [List.length_drop, Nat.div_eq_sub_div hr h]

theorem absorb_of_le {r : Nat} {M : List Byte} (hr : 0 < r) (h : r ≤ M.length) (A : KState) :
    absorb r M A = absorb r (M.drop r) (keccakF (xorBlock A (M.take r))) := by
  have hblock : ∀ b, M.drop ((b + 1) * r) = (M.drop r).drop (b * r) := fun b => by
    rw [List.drop_drop, Nat.succ_mul, Nat.add_comm]
  rw [absorb, length_div_block hr h, List.range_succ_eq_map, List.foldl_cons, List.foldl_map, Nat.zero_mul,
    List.drop_zero]
  simp only [Nat.succ_eq_add_one, hblock]
  rfl

theorem absorbTail_of_le {r : Nat} {M : List Byte} (hr : 0 < r) (h : r ≤ M.length) :
    absorbTail r M = absorbTail r (M.drop r) := by
  rw [absorbTail, absorbTail, length_div_block hr h, List.drop_drop, Nat.succ_mul, Nat.add_comm]

/-- Settles O27: the number of whole blocks is 0, or one more than what is left after the first. -/
theorem absorbTakesWholeBlocks : Obligations.AbsorbTakesWholeBlocks :=
  fun _ _ A hr => ⟨fun h => ⟨absorb_of_lt h A, absorbTail_of_lt h⟩,
    fun h => ⟨absorb_of_le hr h A, absorbTail_of_le hr h⟩⟩

/-! ### The final block (R67) -/

/-- XORing a byte into one place of a list, the way R67 writes it, place by place. -/
theorem getElem?_set_xor {F : List Byte} {n k : Nat} {b v : Byte} (hk : F[k]? = some b) :
    (F.set n (F.getD n 0#8 ^^^ v))[k]? = some (b ^^^ if k = n then v else 0#8) := by
  rw [List.getElem?_set]
  by_cases hkn : k = n
  · obtain ⟨hlt, rfl⟩ := List.getElem?_eq_some_iff.mp hk
    subst hkn
    simp [hlt]
  · simp [hkn, Ne.symm hkn, hk]

theorem padBlock_getElem? {r : Nat} (pad : Byte) (T : List Byte) {k : Nat} (hk : k < r) :
    (padBlock r pad T)[k]? =
      some (T.getD k 0#8 ^^^ (if k = T.length then pad else 0#8) ^^^ (if k = r - 1 then 0x80#8 else 0#8)) := by
  have hfill : ((List.range r).map (fun k => if k < T.length then T.getD k 0#8 else 0#8))[k]? =
      some (T.getD k 0#8) := by
    rw [List.getElem?_map, List.getElem?_range hk, Option.map_some]
    split
    case isTrue => rfl
    case isFalse hT => rw [List.getD_eq_default _ _ (by omega)]
  exact getElem?_set_xor (getElem?_set_xor hfill)

/-- Settles O28: two bytes XORed into the zero-filled tail, at places that may be one. -/
theorem padBlockLayout : Obligations.PadBlockLayout :=
  fun r pad T _ => ⟨padBlock_length r pad T, fun _ => padBlock_getElem? pad T⟩

end Sys2Proof.Machine
end

section
/-! The SHAKE squeeze byte by byte (spec/41_sponge.md R69). -/

namespace Sys2Proof.Machine

/-- The state a chunk is read from: a permutation comes before each chunk but the first (R69). -/
def chunkState (first : Bool) (A : KState) : KState := if first then A else keccakF A

theorem squeezeFrom_of_le {r n j : Nat} (h : n ≤ j) (fuel : Nat) (first : Bool) (A : KState) :
    squeezeFrom r n fuel j first A = ([], A) := by
  cases fuel with
  | zero => rfl
  | succ fuel => rw [squeezeFrom, if_neg (by omega)]

theorem squeezeFrom_succ_of_lt {r n j : Nat} (h : j < n) (fuel : Nat) (first : Bool) (A : KState) :
    squeezeFrom r n (fuel + 1) j first A =
      (stateBytes (chunkState first A) (min r (n - j)) ++
        (squeezeFrom r n fuel (j + min r (n - j)) false (chunkState first A)).1,
       (squeezeFrom r n fuel (j + min r (n - j)) false (chunkState first A)).2) := by
  rw [squeezeFrom, if_pos h]
  rfl

theorem stateBytes_getElem? (A : KState) {c k : Nat} (h : k < c) : (stateBytes A c)[k]? = some (stateByte A k) := by
  simp [stateBytes, h]

/-- Past the first chunk, a place is one block further on in what the next permutation gives. -/
theorem iterate_keccakF_div {r i : Nat} (hr : 0 < r) (h : r ≤ i) (A : KState) :
    keccakF^[i / r] A = keccakF^[(i - r) / r] (keccakF A) := by
  rw [Nat.div_eq_sub_div hr h, Function.iterate_succ_apply]

theorem squeezeFrom_getElem? {r n fuel j i : Nat} (hr : 0 < r) (hf : n - j ≤ fuel) (hi : i < n - j) (first : Bool)
    (A : KState) : (squeezeFrom r n fuel j first A).1[i]? =
      some (stateByte (keccakF^[i / r] (chunkState first A)) (i % r)) := by
  induction fuel generalizing j i first A with
  | zero => omega
  | succ fuel ih =>
    rw [squeezeFrom_succ_of_lt (by omega)]
    rcases Nat.lt_or_ge i r with hlt | hge
    · rw [List.getElem?_append_left (by rw [stateBytes_length]; omega), stateBytes_getElem? _ (by omega),
        Nat.div_eq_of_lt hlt, Nat.mod_eq_of_lt hlt]
      rfl
    · have hchunk : min r (n - j) = r := by omega
      rw [hchunk, List.getElem?_append_right (by rwa [stateBytes_length]), stateBytes_length,
        ih (by omega) (by omega), iterate_keccakF_div hr hge, Nat.mod_eq_sub_mod hge]
      rfl

theorem squeezeFrom_state {r n fuel j : Nat} (hr : 0 < r) (hf : n - j ≤ fuel) (hj : j < n) (first : Bool)
    (A : KState) : (squeezeFrom r n fuel j first A).2 = keccakF^[(n - j - 1) / r] (chunkState first A) := by
  induction fuel generalizing j first A with
  | zero => omega
  | succ fuel ih =>
    rw [squeezeFrom_succ_of_lt hj]
    rcases Nat.lt_or_ge (n - j - 1) r with hlt | hge
    · rw [squeezeFrom_of_le (by omega), Nat.div_eq_of_lt hlt]
      rfl
    · have hchunk : min r (n - j) = r := by omega
      have hleft : n - (j + r) - 1 = n - j - 1 - r := by omega
      rw [hchunk, ih (by omega) (by omega), hleft, iterate_keccakF_div hr hge]
      rfl

/-- Byte `i` of a SHAKE output is byte `i mod r` of the state after `i div r` further permutations. -/
theorem squeezeShake_getElem? {r n i : Nat} (hr : 0 < r) (hi : i < n) (A : KState) :
    (squeezeShake r n A).1[i]? = some (stateByte (keccakF^[i / r] A) (i % r)) :=
  squeezeFrom_getElem? hr (by omega) (by omega) true A

/-- The state left is the one that the last chunk was read from; with no byte wanted, the one given. -/
theorem squeezeShake_state {r : Nat} (hr : 0 < r) (n : Nat) (A : KState) :
    (squeezeShake r n A).2 = keccakF^[(n - 1) / r] A := by
  rcases Nat.eq_zero_or_pos n with rfl | hn
  · rw [Nat.zero_sub, Nat.zero_div]
    rfl
  · exact squeezeFrom_state hr (by omega) hn true A

/-- Settles O31: byte `i` of an output does not depend on how many bytes are wanted. -/
theorem longerShakeOutputExtends : Obligations.LongerShakeOutputExtends := by
  intro r n m A hr hnm
  refine List.ext_getElem? fun i => ?_
  rw [List.getElem?_take]
  split
  case isTrue hi => rw [squeezeShake_getElem? hr hi, squeezeShake_getElem? hr (hi.trans_le hnm)]
  case isFalse hi => exact List.getElem?_eq_none (by rw [squeezeShake_length hr]; omega)

end Sys2Proof.Machine
end

section
/-! The sponge commands (spec/41_sponge.md R70 to R76), and what every command leaves alone (R76, R97, R98). -/

namespace Sys2Proof.Machine

theorem laneAt_storeOut (m : Memory) (bs : List Byte) {i : Nat} (hi : i < 25) :
    laneAt (storeOut m bs) i = laneAt m i :=
  laneAt_congr hi fun _ _ _ => readByte_storeOut_outside (by omega)

/-- A sponge command on a written message of a legal length, its squeeze giving `n` bytes: the output to `OUT`, the last
state to `S`, and nothing else but the end of the step (R70, R76). -/
theorem exec_sponge {i : Instr} {r n : Nat} {pad : Byte} {squeeze : KState → List Byte × KState} {s : State}
    {snap : Snapshot} {M : List Byte} (hexec : exec i s = runSponge r pad squeeze s) (heng : s.eng = .pending i snap)
    (hlen : M.length = snap.msgLen.toNat) (hcap : snap.msgLen.toNat ≤ 1024)
    (hmsg : ∀ k, k < M.length → msgAt s.mem k = M[k]?)
    (hout : (squeeze (absorbAll r pad M)).1.length = n) (hn : n ≤ 1024) :
    ∃ t, exec i s = .next t ∧
      (∀ j, j < n → outAt t.mem j = (squeeze (absorbAll r pad M)).1[j]?) ∧
      (∀ j (h : j < 25), laneAt t.mem j = some (squeeze (absorbAll r pad M)).2[j]) ∧
      (∀ a, ¬(keccakBase ≤ a ∧ a < keccakBase + 200) → ¬(outBase ≤ a ∧ a < outBase + n) →
        readByte t.mem a = readByte s.mem a) ∧
      SameControl s t ∧ SameResults s t ∧ Finished t := by
  have hread : readMsg s.mem (operandMsgLen (operands s)) = some M := by
    rw [operands_pending heng]
    exact (readMsg_eq_some_iff hcap).mpr ⟨hlen, fun k hk => hmsg k (by rwa [hlen])⟩
  subst hout
  simp only [keccakBase, outBase]
  refine ⟨_, hexec.trans (runSponge_eq hread), fun j hj => ?_, fun j hj => ?_, fun a hS hO => ?_,
    (EngineEffect.sponge _ _).sameControl, ⟨rfl, rfl⟩, complete_finished _⟩
  · exact (outAt_storeOut hn j).trans (if_pos hj)
  · exact (laneAt_storeOut _ _ hj).trans (laneAt_storeKeccak s.mem _ j hj)
  · exact (readByte_storeOut_outside (by omega)).trans (readByte_storeKeccak_outside (by omega))

/-- Settles O29: the two commands are sponges whose squeeze reads one state. -/
theorem sha3CommandsHash : Obligations.Sha3CommandsHash := by
  refine ⟨fun _ _ _ => rfl, fun i r n hi s snap M heng hlen hcap hmsg => ?_⟩
  have hexec : exec i s = runSponge r 0x06#8 (squeezeSha3 n) s := by
    rcases hi with ⟨rfl, rfl, rfl⟩ | ⟨rfl, rfl, rfl⟩
    · exact exec_sha3_256 s
    · exact exec_sha3_512 s
  obtain ⟨t, ht, hbytes, hrest⟩ :=
    exec_sponge hexec heng hlen hcap hmsg (squeezeSha3_length n _) (by omega)
  exact ⟨t, ht, fun j hj => (hbytes j hj).trans (stateBytes_getElem? _ hj), hrest⟩

/-- Settles O30: the two commands are sponges whose squeeze is SHAKE's for the pending OUTLEN. -/
theorem shakeCommandsHash : Obligations.ShakeCommandsHash := by
  intro i r hi s snap M heng hlen hcap hocap hmsg
  have hr : 0 < r := by omega
  have hexec : exec i s = runSponge r 0x1F#8 (squeezeShake r snap.outLen.toNat) s := by
    rw [← operands_pending heng]
    rcases hi with ⟨rfl, rfl⟩ | ⟨rfl, rfl⟩
    · exact exec_shake128 s
    · exact exec_shake256 s
  obtain ⟨t, ht, hbytes, hlanes, hrest⟩ :=
    exec_sponge hexec heng hlen hcap hmsg (squeezeShake_length hr _ _) hocap
  rw [squeezeShake_state hr] at hlanes
  exact ⟨t, ht, fun j hj => (hbytes j hj).trans (squeezeShake_getElem? hr hj _), hlanes, hrest⟩

/-- No store of a command falls in `MSG` (R76 (c)). -/
theorem EngineEffect.readByte_msg {s t : State} (h : EngineEffect s t) {a : Nat} (hlo : 0x800 ≤ a) (hhi : a < 0xC00) :
    readByte t.mem a = readByte s.mem a := by
  cases h with
  | results v w => rfl
  | keccak A => exact readByte_storeKeccak_outside (by omega)
  | sponge A bs => exact (readByte_storeOut_outside (by omega)).trans (readByte_storeKeccak_outside (by omega))
  | poly b p => exact readByte_storePoly_outside (by simp only [bankBase]; omega)

/-- Settles O49: each of the four effects a command can have keeps `MSG` and the control state, and ends the step. -/
theorem commandsTouchOnlyResults : Obligations.CommandsTouchOnlyResults := by
  intro i s t h
  have heffect : EngineEffect s t := exec_next h
  refine ⟨fun k => ?_, heffect.sameControl, heffect.finished⟩
  by_cases hk : k < 1024
  · rw [msgAt_eq_readByte hk, msgAt_eq_readByte hk, heffect.readByte_msg (by omega) (by omega)]
  · rw [msgAt, msgAt, if_neg hk, if_neg hk]

end Sys2Proof.Machine
end

section
/-! The scalar commands (spec/42_modarith.md): `s16` and the operands as two's complement, what a command that writes RES0
only does, and the laws of the two reductions and the butterfly. -/

namespace Sys2Proof.Machine

/-! ### `s16` and the operands as two's complement (R7, R45) -/

theorem s16_eq_wrap16 (v : Int) : s16 v = wrap16 v := by
  rw [wrap16, BitVec.toInt_ofInt, Int.bmod, s16, sext, low, low]
  split_ifs <;> omega

theorem wrap16_of_range {v : Int} (h : -32768 ≤ v ∧ v < 32768) : wrap16 v = v :=
  (s16_eq_wrap16 v).symm.trans (s16_of_range h)

theorem wrap16_range (v : Int) : -32768 ≤ wrap16 v ∧ wrap16 v < 32768 :=
  s16_eq_wrap16 v ▸ s16_range v

theorem wrap16_emod (v : Int) : wrap16 v % 65536 = v % 65536 := by
  rw [wrap16, BitVec.toInt_ofInt]
  exact Int.bmod_emod

theorem sext16_toNat (x : BitVec 16) : sext 16 x.toNat = x.toInt := by
  rw [sext16_eq_toInt_ofNat, BitVec.ofNat_toNat, BitVec.setWidth_eq]

theorem sext32_toNat (x : BitVec 32) : sext 32 x.toNat = x.toInt := by
  have hx := x.isLt
  rw [sext, low, BitVec.toInt_eq_toNat_cond]
  split_ifs <;> omega

theorem operandA16_eq_toInt (snap : Snapshot) : operandA16 snap = (snap.arg0.extractLsb' 0 16).toInt := sext16_toNat _

theorem operandB16_eq_toInt (snap : Snapshot) : operandB16 snap = (snap.arg1.extractLsb' 0 16).toInt := sext16_toNat _

theorem operandA32_eq_toInt (snap : Snapshot) : operandA32 snap = snap.arg0.toInt := sext32_toNat _

/-! ### The reductions by their formulas (R77, R79, R81) -/

theorem barrettWith_floor (a : Int) : barrettWith .floor a = wrap16 (a - 20159 * a / 2 ^ 26 * 3329) := s16_eq_wrap16 _

theorem barrettWith_round (a : Int) : barrettWith .round a = wrap16 (a - (20159 * a + 2 ^ 25) / 2 ^ 26 * 3329) :=
  s16_eq_wrap16 _

theorem montgomery_eq_wrap16 (a : Int) :
    montgomery a = wrap16 ((a - wrap16 (a * 62209) * 3329) / 65536) := by
  rw [← s16_eq_wrap16, ← s16_eq_wrap16]
  rfl

theorem csubq_eq_wrap16 (a : Int) : csubq a = if 0 ≤ a ∧ a < 3329 then a else wrap16 (a - 3329) := by
  rw [← s16_eq_wrap16]
  rfl

theorem butterfly_eq (a b zeta : Int) :
    butterfly a b zeta = ((a + zeta * b % 3329) % 3329, (a + 3329 - zeta * b % 3329) % 3329) := rfl

/-! ### The laws of the Barrett reduction (R77) -/

/-- `20159·Q = 2^26 + 447`: scaled by `2^26`, what a quotient with rounding term `c` leaves of `a` is `Q` times what the
division left, less `447·a`. -/
theorem scaled_quotient_remainder (a c : Int) :
    2 ^ 26 * (a - (20159 * a + c) / 2 ^ 26 * 3329) = 3329 * ((20159 * a + c) % 2 ^ 26 - c) - 447 * a := by
  omega

/-- For a 16-bit input `447·a` is below `2^26` in size, so the floored quotient leaves a value in [0, Q), or in [0, Q]
below 0. -/
theorem floor_quotient_remainder {a : Int} (h : -32768 ≤ a ∧ a < 32768) :
    0 ≤ a - 20159 * a / 2 ^ 26 * 3329 ∧ a - 20159 * a / 2 ^ 26 * 3329 ≤ 3329 ∧
      (0 ≤ a → a - 20159 * a / 2 ^ 26 * 3329 < 3329) := by
  have hscaled := scaled_quotient_remainder a 0
  rw [add_zero] at hscaled
  omega

/-- The rounded quotient centers that value on 0. -/
theorem round_quotient_remainder {a : Int} (h : -32768 ≤ a ∧ a < 32768) :
    -1664 ≤ a - (20159 * a + 2 ^ 25) / 2 ^ 26 * 3329 ∧ a - (20159 * a + 2 ^ 25) / 2 ^ 26 * 3329 ≤ 1664 := by
  have hscaled := scaled_quotient_remainder a (2 ^ 25)
  omega

/-- No 16-bit input wraps: the reduction is the exact difference. -/
theorem barrett_eq_sub {a : Int} (h : -32768 ≤ a ∧ a < 32768) : barrett a = a - 20159 * a / 2 ^ 26 * 3329 := by
  obtain ⟨hlo, hhi, -⟩ := floor_quotient_remainder h
  exact (barrettWith_floor a).trans (wrap16_of_range (by omega))

theorem barrett_range {a : Int} (h : -32768 ≤ a ∧ a < 32768) :
    0 ≤ barrett a ∧ barrett a ≤ 3329 ∧ (0 ≤ a → barrett a < 3329) := by
  rw [barrett_eq_sub h]
  exact floor_quotient_remainder h

theorem barrett_emod {a : Int} (h : -32768 ≤ a ∧ a < 32768) : barrett a % 3329 = a % 3329 := by
  rw [barrett_eq_sub h]
  exact Int.sub_mul_emod_self_right a _ 3329

theorem barrett_of_nonneg {a : Int} (h0 : 0 ≤ a) (h : a < 32768) : barrett a = a % 3329 := by
  obtain ⟨hlo, -, hhi⟩ := barrett_range ⟨by omega, h⟩
  rw [← barrett_emod ⟨by omega, h⟩, Int.emod_eq_of_lt hlo (hhi h0)]

/-- A result of `Q` is congruent to 0, so its input is a multiple of `Q`, and a negative one; at such an input the quotient
is floored one too low. -/
theorem barrett_eq_Q_iff {a : Int} (h : -32768 ≤ a ∧ a < 32768) :
    barrett a = 3329 ↔ ∃ m, 1 ≤ m ∧ m ≤ 9 ∧ a = -3329 * m := by
  constructor
  · intro hQ
    have hmod := barrett_emod h
    have hneg : a < 0 := by
      obtain ⟨-, -, hlt⟩ := barrett_range h
      omega
    exact ⟨-a / 3329, by omega⟩
  · rintro ⟨m, hm1, hm9, rfl⟩
    rw [barrett_eq_sub h]
    omega

theorem barrettWith_round_range {a : Int} (h : -32768 ≤ a ∧ a < 32768) :
    -1664 ≤ barrettWith .round a ∧ barrettWith .round a ≤ 1664 := by
  obtain ⟨hlo, hhi⟩ := round_quotient_remainder h
  rw [barrettWith_round, wrap16_of_range (by omega)]
  exact ⟨hlo, hhi⟩

/-- Settles O36: the result is congruent to the input and lies in [0, Q], so it is `a mod Q` unless it is `Q` itself. -/
theorem barrettReduces : Obligations.BarrettReduces := by
  intro a hlo hhi
  have h : -32768 ≤ a ∧ a < 32768 := ⟨hlo, by omega⟩
  obtain ⟨hmin, hmax, -⟩ := barrett_range h
  obtain ⟨hrmin, hrmax⟩ := barrettWith_round_range h
  refine ⟨rfl, barrettWith_floor a, barrettWith_round a, Int.emod_eq_emod_iff_emod_sub_eq_zero.mp (barrett_emod h),
    fun h0 => barrett_of_nonneg h0 h.2, fun _ => ⟨hmin, hmax⟩, barrett_eq_Q_iff h, fun hQ => ?_, hrmin, hrmax⟩
  rw [barrett_of_nonneg hQ.1 h.2, Int.emod_eq_of_lt hQ.1 hQ.2]

/-! ### The laws of the Montgomery reduction (R79) -/

/-- `u·Q` and `a` agree mod 2^16, because `62209·Q ≡ 1`. -/
theorem montgomery_division_exact (a : Int) : (a - wrap16 (a * 62209) * 3329) % 65536 = 0 := by
  have hu := wrap16_emod (a * 62209)
  omega

/-- In R79's range the exact quotient lies in (−Q, Q), so no wrap alters it. -/
theorem montgomery_mul_pow {a : Int} (hlo : -3329 * 2 ^ 15 ≤ a) (hhi : a < 3329 * 2 ^ 15) :
    -3329 < montgomery a ∧ montgomery a < 3329 ∧ montgomery a * 2 ^ 16 = a - wrap16 (a * 62209) * 3329 := by
  have hexact := montgomery_division_exact a
  have hu := wrap16_range (a * 62209)
  rw [montgomery_eq_wrap16]
  generalize wrap16 (a * 62209) = u at hexact hu ⊢
  rw [wrap16_of_range (by omega)]
  omega

/-- Settles O37: `montgomery a · 2^16` is `a` less a multiple of `Q`, and `169·2^16 ≡ 1`; the two inputs outside the range
are evaluated. -/
theorem montgomeryReduces : Obligations.MontgomeryReduces := by
  refine ⟨montgomery_division_exact, fun a hlo hhi => ?_, by decide, by decide⟩
  obtain ⟨hmin, hmax, hmul⟩ := montgomery_mul_pow hlo hhi
  generalize wrap16 (a * 62209) = u at hmul
  exact ⟨hmin, hmax, by omega, by omega⟩

/-! ### The laws of the butterfly (R82) -/

/-- Settles O38: both results are residues mod `Q`, and so is `t`. -/
theorem butterflyAddsAndSubtracts : Obligations.ButterflyAddsAndSubtracts := by
  intro a b zeta
  rw [butterfly_eq]
  dsimp only
  generalize zeta * b = p
  omega

/-! ### The scalar commands (R78, R80, R81, R83, R84) -/

/-- A command that ends by writing the results changes nothing else but the end of the step (R84 (a), R97). -/
theorem exec_writing_results {i : Instr} {s : State} {v w : Word}
    (h : exec i s = .next (complete { s with res0 := v, res1 := w })) :
    ∃ t, exec i s = .next t ∧ t.res0 = v ∧ t.res1 = w ∧ SameBytes s t ∧ SameControl s t ∧ Finished t :=
  ⟨_, h, rfl, rfl, fun _ => rfl, (EngineEffect.results v w).sameControl, complete_finished _⟩

/-- `writeRes0` leaves RES1 as it was. -/
theorem exec_writing_res0 {i : Instr} {s : State} {v : Int} (h : exec i s = writeRes0 s v) :
    ∃ t, exec i s = .next t ∧ t.res0 = BitVec.ofInt 32 v ∧ t.res1 = s.res1 ∧ SameBytes s t ∧ SameControl s t ∧
      Finished t :=
  exec_writing_results h

/-- Settles O32: the operand is the low half of ARG0 as two's complement, and its reduction does not wrap. -/
theorem barrettCommandResult : Obligations.BarrettCommandResult := by
  intro s snap a heng ha
  have hop : operandA16 snap = a := (operandA16_eq_toInt snap).trans ha.symm
  have hexec : exec .barrett s = writeRes0 s (barrett a) := by rw [exec_barrett, operands_pending heng, hop]
  rw [← barrett_eq_sub (hop ▸ sext16_range _)]
  exact exec_writing_res0 hexec

/-- Settles O33: the operand is ARG0 as two's complement, and the model's `s16` is `wrap16`. -/
theorem montgomeryCommandResult : Obligations.MontgomeryCommandResult := by
  rintro s snap a u heng ha rfl
  have hop : operandA32 snap = a := (operandA32_eq_toInt snap).trans ha.symm
  have hexec : exec .montgomery s = writeRes0 s (montgomery a) := by rw [exec_montgomery, operands_pending heng, hop]
  rw [← montgomery_eq_wrap16]
  exact exec_writing_res0 hexec

/-- Settles O34: the operand is the low half of ARG0 as two's complement, and the model's `s16` is `wrap16`. -/
theorem csubqCommandResult : Obligations.CsubqCommandResult := by
  intro s snap a heng ha
  have hop : operandA16 snap = a := (operandA16_eq_toInt snap).trans ha.symm
  have hexec : exec .csubq s = writeRes0 s (csubq a) := by rw [exec_csubq, operands_pending heng, hop]
  rw [← csubq_eq_wrap16]
  exact exec_writing_res0 hexec

/-- Settles O35: the operands are two low halves as two's complement and seven bits of ARG2, and both results are written. -/
theorem butterflyCommandResult : Obligations.ButterflyCommandResult := by
  rintro s snap a b z heng ha hb rfl
  have hexec : exec .butterfly s = .next (complete { s with
      res0 := regOf (butterfly a b (ZETA (operandK snap))).1, res1 := regOf (butterfly a b (ZETA (operandK snap))).2 }) := by
    rw [exec_butterfly, execButterfly, operands_pending heng, operandA16_eq_toInt, operandB16_eq_toInt, ← ha, ← hb]
  exact exec_writing_results hexec

end Sys2Proof.Machine
end

section
/-! The polynomial commands (spec/43_poly.md R85 to R94): the zeta table, what a command that stores a bank does, and the
lanes and slots of the packed commands. -/

namespace Sys2Proof.Machine

/-- Settles O14: the 128 entries of the table, evaluated. -/
theorem zetaTableIsPowersOf17 : Obligations.ZetaTableIsPowersOf17 := by
  unfold Obligations.ZetaTableIsPowersOf17
  decide

/-! ### What a command over banks does (R87, R89 to R92, R94) -/

/-- The polynomial with these coefficients. -/
def polyOf (a : Nat → Int) : Poly := Vector.ofFn fun j => a j.val

@[simp] theorem coef_polyOf (a : Nat → Int) {j : Nat} (h : j < 256) : coef (polyOf a) j = a j := coef_ofFn _ h

theorem readPoly_eq_some_iff_coef {m : Memory} {b : Fin 8} {p : Poly} :
    readPoly m b = some p ↔ ∀ j, j < 256 → coefAt m b j = some (coef p j) :=
  readPoly_eq_some_iff.trans (forall₂_congr fun j hj => by rw [coef_eq hj])

/-- A written bank is read as the polynomial of its coefficients. -/
theorem readPoly_of_coefAt {m : Memory} {b : Fin 8} {a : Nat → Int}
    (h : ∀ j, j < 256 → coefAt m b j = some (a j)) : readPoly m b = some (polyOf a) :=
  readPoly_eq_some_iff_coef.mpr fun j hj => by rw [coef_polyOf a hj, h j hj]

theorem coefAt_storePoly_same (m : Memory) (d : Fin 8) (p : Poly) {j : Nat} (hj : j < 256) :
    coefAt (storePoly m d p) d j = some (wrap16 (coef p j)) := by
  rw [coefAt_storePoly m d p j hj, s16_eq_wrap16, coef_eq hj]

/-- After a command that ends by storing a polynomial, its bank holds the coefficients as 16 bits hold them, and nothing
outside the bank but the end of the step (R97) has changed. -/
theorem exec_storing_poly {i : Instr} {s : State} {d : Fin 8} {p : Poly}
    (h : exec i s = .next (complete { s with mem := storePoly s.mem d p })) :
    ∃ t, exec i s = .next t ∧ (∀ j, j < 256 → coefAt t.mem d j = some (wrap16 (coef p j))) ∧
      SameBytesOutside s t (bankBase d) 512 ∧ SameControl s t ∧ SameResults s t ∧ Finished t :=
  ⟨_, h, fun _ => coefAt_storePoly_same s.mem d p, fun _ => readByte_storePoly_outside,
    (EngineEffect.poly d p).sameControl, ⟨rfl, rfl⟩, complete_finished _⟩

theorem exec_polyUnary {i : Instr} {f : Poly → Poly} {d ra : Fin 8} {s : State} {a : Nat → Int}
    (hexec : exec i s = polyUnary f d ra s) (ha : ∀ j, j < 256 → coefAt s.mem ra j = some (a j)) :
    ∃ t, exec i s = .next t ∧ (∀ j, j < 256 → coefAt t.mem d j = some (wrap16 (coef (f (polyOf a)) j))) ∧
      SameBytesOutside s t (bankBase d) 512 ∧ SameControl s t ∧ SameResults s t ∧ Finished t :=
  exec_storing_poly (hexec.trans (polyUnary_eq (readPoly_of_coefAt ha)))

theorem exec_polyBinary {i : Instr} {f : Poly → Poly → Poly} {d ra rb : Fin 8} {s : State} {a b : Nat → Int}
    (hexec : exec i s = polyBinary f d ra rb s) (ha : ∀ j, j < 256 → coefAt s.mem ra j = some (a j))
    (hb : ∀ j, j < 256 → coefAt s.mem rb j = some (b j)) :
    ∃ t, exec i s = .next t ∧
      (∀ j, j < 256 → coefAt t.mem d j = some (wrap16 (coef (f (polyOf a) (polyOf b)) j))) ∧
      SameBytesOutside s t (bankBase d) 512 ∧ SameControl s t ∧ SameResults s t ∧ Finished t :=
  exec_storing_poly (hexec.trans (polyBinary_eq (readPoly_of_coefAt ha) (readPoly_of_coefAt hb)))

/-- If a command over one bank completes, its source was written. -/
theorem polyUnary_next {f : Poly → Poly} {d ra : Fin 8} {s t : State} (h : polyUnary f d ra s = .next t) :
    ∃ a, (∀ j, j < 256 → coefAt s.mem ra j = some (coef a j)) ∧
      ∀ j, j < 256 → coefAt t.mem d j = some (wrap16 (coef (f a) j)) := by
  cases ha : readPoly s.mem ra with
  | none =>
    rw [polyUnary_fault ha] at h
    cases h
  | some a =>
    rw [polyUnary_eq ha] at h
    cases h
    exact ⟨a, readPoly_eq_some_iff_coef.mp ha, fun _ => coefAt_storePoly_same _ _ _⟩

/-- If a command over two banks completes, both its sources were written. -/
theorem polyBinary_next {f : Poly → Poly → Poly} {d ra rb : Fin 8} {s t : State}
    (h : polyBinary f d ra rb s = .next t) :
    ∃ a b, (∀ j, j < 256 → coefAt s.mem ra j = some (coef a j)) ∧
      (∀ j, j < 256 → coefAt s.mem rb j = some (coef b j)) ∧
      ∀ j, j < 256 → coefAt t.mem d j = some (wrap16 (coef (f a b) j)) := by
  cases ha : readPoly s.mem ra with
  | none =>
    rw [polyBinary_fault (.inl ha)] at h
    cases h
  | some a =>
    cases hb : readPoly s.mem rb with
    | none =>
      rw [polyBinary_fault (.inr hb)] at h
      cases h
    | some b =>
      rw [polyBinary_eq ha hb] at h
      cases h
      exact ⟨a, b, readPoly_eq_some_iff_coef.mp ha, readPoly_eq_some_iff_coef.mp hb,
        fun _ => coefAt_storePoly_same _ _ _⟩

/-! ### The results as 16 bits hold them (R88, R90 to R92) -/

@[simp] theorem wrap16_wrap16 (v : Int) : wrap16 (wrap16 v) = wrap16 v := wrap16_of_range (wrap16_range v)

@[simp] theorem wrap16_emod_Q (v : Int) : wrap16 (v % 3329) = v % 3329 := wrap16_of_range (by omega)

theorem paddLane_eq_wrap16 (a b : Int) : paddLane a b = wrap16 (a + b) := s16_eq_wrap16 _

theorem psubLane_eq_wrap16 (a b : Int) : psubLane a b = wrap16 (a - b + 3329) := s16_eq_wrap16 _

theorem wrap16_barrett {a : Int} (h : -32768 ≤ a ∧ a < 32768) : wrap16 (barrett a) = barrett a := by
  obtain ⟨hlo, hhi, -⟩ := barrett_range h
  exact wrap16_of_range (by omega)

/-! ### BASEMUL (R88, R89, R93) -/

theorem slotZeta_even (g : Nat) : slotZeta (2 * g) = ZETA (64 + g) := by
  rw [slotZeta, if_pos (by omega), show 2 * g / 2 = g by omega]

theorem slotZeta_odd (g : Nat) : slotZeta (2 * g + 1) = (3329 - ZETA (64 + g)) % 3329 := by
  rw [slotZeta, if_neg (by omega), show (2 * g + 1) / 2 = g by omega, modQ_eq]

/-- BASEMUL slot by slot: slot `i` is the product modulo `X² − slotZeta i` (R88). -/
theorem exec_basemul_slots {s : State} {d ra rb : Fin 8} {a b : Nat → Int}
    (ha : ∀ j, j < 256 → coefAt s.mem ra j = some (a j)) (hb : ∀ j, j < 256 → coefAt s.mem rb j = some (b j)) :
    ∃ t, exec (.basemul d ra rb) s = .next t ∧
      (∀ i, i < 128 →
        coefAt t.mem d (2 * i) =
          some ((a (2 * i) * b (2 * i) + slotZeta i * a (2 * i + 1) * b (2 * i + 1)) % 3329) ∧
        coefAt t.mem d (2 * i + 1) = some ((a (2 * i + 1) * b (2 * i) + a (2 * i) * b (2 * i + 1)) % 3329)) ∧
      SameBytesOutside s t (bankBase d) 512 ∧ SameControl s t ∧ SameResults s t ∧ Finished t := by
  obtain ⟨t, ht, hcoef, hframe⟩ := exec_polyBinary (exec_basemul d ra rb s) ha hb
  refine ⟨t, ht, fun i hi => ?_, hframe⟩
  have h0 : 2 * i < 256 := by omega
  have h1 : 2 * i + 1 < 256 := by omega
  rw [hcoef _ h0, hcoef _ h1, coef_basemul_even _ _ hi, coef_basemul_odd _ _ hi]
  simp only [coef_polyOf _ h0, coef_polyOf _ h1, modQ_eq, wrap16_emod_Q, and_self]

/-- Settles O43: group `g` is the slots `2g` and `2g + 1`. -/
theorem basemulCommandMultiplies : Obligations.BasemulCommandMultiplies := by
  intro s d ra rb a b ha hb
  obtain ⟨t, ht, hslot, hframe⟩ := exec_basemul_slots (d := d) ha hb
  refine ⟨t, ht, fun g hg o zz hzz => ?_, hframe⟩
  rcases hzz with ⟨rfl, rfl⟩ | ⟨rfl, rfl⟩
  · rw [← slotZeta_even, show 4 * g = 2 * (2 * g) by omega]
    exact hslot (2 * g) (by omega)
  · rw [← slotZeta_odd, show 4 * g + 2 = 2 * (2 * g + 1) by omega]
    exact hslot (2 * g + 1) (by omega)

/-! ### PADD, PSUB and PREDUCE (R90 to R94) -/

theorem exec_padd_lanes {s : State} (d : Fin 8) {ra rb : Fin 8} {a b : Nat → Int}
    (ha : ∀ j, j < 256 → coefAt s.mem ra j = some (a j)) (hb : ∀ j, j < 256 → coefAt s.mem rb j = some (b j)) :
    ∃ t, exec (.padd d ra rb) s = .next t ∧ (∀ j, j < 256 → coefAt t.mem d j = some (wrap16 (a j + b j))) ∧
      SameBytesOutside s t (bankBase d) 512 ∧ SameControl s t ∧ SameResults s t ∧ Finished t := by
  obtain ⟨t, ht, hcoef, hframe⟩ := exec_polyBinary (exec_padd d ra rb s) ha hb
  refine ⟨t, ht, fun j hj => ?_, hframe⟩
  rw [hcoef j hj, coef_polyZip _ _ _ hj, coef_polyOf a hj, coef_polyOf b hj, paddLane_eq_wrap16, wrap16_wrap16]

theorem exec_psub_lanes {s : State} (d : Fin 8) {ra rb : Fin 8} {a b : Nat → Int}
    (ha : ∀ j, j < 256 → coefAt s.mem ra j = some (a j)) (hb : ∀ j, j < 256 → coefAt s.mem rb j = some (b j)) :
    ∃ t, exec (.psub d ra rb) s = .next t ∧
      (∀ j, j < 256 → coefAt t.mem d j = some (wrap16 (a j - b j + 3329))) ∧
      SameBytesOutside s t (bankBase d) 512 ∧ SameControl s t ∧ SameResults s t ∧ Finished t := by
  obtain ⟨t, ht, hcoef, hframe⟩ := exec_polyBinary (exec_psub d ra rb s) ha hb
  refine ⟨t, ht, fun j hj => ?_, hframe⟩
  rw [hcoef j hj, coef_polyZip _ _ _ hj, coef_polyOf a hj, coef_polyOf b hj, psubLane_eq_wrap16, wrap16_wrap16]

/-- A stored coefficient is a 16-bit value, where the Barrett reduction is the exact difference (R77, R92). -/
theorem exec_preduce_lanes {s : State} (d : Fin 8) {ra : Fin 8} {a : Nat → Int}
    (ha : ∀ j, j < 256 → coefAt s.mem ra j = some (a j)) :
    ∃ t, exec (.preduce d ra) s = .next t ∧
      (∀ j, j < 256 → coefAt t.mem d j = some (a j - 20159 * a j / 2 ^ 26 * 3329)) ∧
      SameBytesOutside s t (bankBase d) 512 ∧ SameControl s t ∧ SameResults s t ∧ Finished t := by
  obtain ⟨t, ht, hcoef, hframe⟩ := exec_polyUnary (exec_preduce d ra s) ha
  refine ⟨t, ht, fun j hj => ?_, hframe⟩
  have hrange := coefAt_range (ha j hj)
  rw [hcoef j hj, coef_map _ _ hj, coef_polyOf a hj, wrap16_barrett hrange, barrett_eq_sub hrange]

/-- Settles O44: the lanes of each command. -/
theorem elementwiseCommandsCompute : Obligations.ElementwiseCommandsCompute :=
  fun _ d _ _ _ _ ha => ⟨fun hb => ⟨exec_padd_lanes d ha hb, exec_psub_lanes d ha hb⟩, exec_preduce_lanes d ha⟩

/-- Settles O45: the lanes of PADD and PSUB with one bank as both sources and destination. -/
theorem aliasedBanksAreExact : Obligations.AliasedBanksAreExact := by
  intro s p a ha
  obtain ⟨t, ht, hsum, -⟩ := exec_padd_lanes p ha ha
  obtain ⟨u, hu, hdiff, -⟩ := exec_psub_lanes p ha ha
  refine ⟨⟨t, ht, fun j hj => ?_⟩, ⟨u, hu, fun j hj => ?_⟩⟩
  · rw [hsum j hj, two_mul]
  · rw [hdiff j hj, sub_self, zero_add]
    rfl

/-! ### Independence of lanes and slots (R93) -/

section
variable {s1 s2 t1 t2 : State} {d ra rb : Fin 8} {j : Nat}

/-- Two runs of a lanewise command on one bank that agree on a source lane agree on that lane of the result. -/
theorem polyUnary_map_lane {f : Int → Int} (hj : j < 256) (hra : coefAt s1.mem ra j = coefAt s2.mem ra j)
    (h1 : polyUnary (fun p => p.map f) d ra s1 = .next t1) (h2 : polyUnary (fun p => p.map f) d ra s2 = .next t2) :
    coefAt t1.mem d j = coefAt t2.mem d j := by
  obtain ⟨a1, ha1, hd1⟩ := polyUnary_next h1
  obtain ⟨a2, ha2, hd2⟩ := polyUnary_next h2
  rw [ha1 j hj, ha2 j hj, Option.some.injEq] at hra
  rw [hd1 j hj, hd2 j hj, coef_map _ _ hj, coef_map _ _ hj, hra]

/-- Two runs of a lanewise command on two banks that agree on a lane of both sources agree on that lane of the result. -/
theorem polyBinary_polyZip_lane {f : Int → Int → Int} (hj : j < 256) (hra : coefAt s1.mem ra j = coefAt s2.mem ra j)
    (hrb : coefAt s1.mem rb j = coefAt s2.mem rb j) (h1 : polyBinary (polyZip f) d ra rb s1 = .next t1)
    (h2 : polyBinary (polyZip f) d ra rb s2 = .next t2) : coefAt t1.mem d j = coefAt t2.mem d j := by
  obtain ⟨a1, b1, ha1, hb1, hd1⟩ := polyBinary_next h1
  obtain ⟨a2, b2, ha2, hb2, hd2⟩ := polyBinary_next h2
  rw [ha1 j hj, ha2 j hj, Option.some.injEq] at hra
  rw [hb1 j hj, hb2 j hj, Option.some.injEq] at hrb
  rw [hd1 j hj, hd2 j hj, coef_polyZip _ _ _ hj, coef_polyZip _ _ _ hj, hra, hrb]

/-- Two runs of BASEMUL that agree on a slot of both sources agree on that slot of the result. -/
theorem polyBinary_basemul_slot {i : Nat} (hi : i < 128)
    (hra0 : coefAt s1.mem ra (2 * i) = coefAt s2.mem ra (2 * i))
    (hra1 : coefAt s1.mem ra (2 * i + 1) = coefAt s2.mem ra (2 * i + 1))
    (hrb0 : coefAt s1.mem rb (2 * i) = coefAt s2.mem rb (2 * i))
    (hrb1 : coefAt s1.mem rb (2 * i + 1) = coefAt s2.mem rb (2 * i + 1))
    (h1 : polyBinary basemul d ra rb s1 = .next t1) (h2 : polyBinary basemul d ra rb s2 = .next t2) :
    coefAt t1.mem d (2 * i) = coefAt t2.mem d (2 * i) ∧
      coefAt t1.mem d (2 * i + 1) = coefAt t2.mem d (2 * i + 1) := by
  have he : 2 * i < 256 := by omega
  have ho : 2 * i + 1 < 256 := by omega
  obtain ⟨a1, b1, ha1, hb1, hd1⟩ := polyBinary_next h1
  obtain ⟨a2, b2, ha2, hb2, hd2⟩ := polyBinary_next h2
  rw [ha1 _ he, ha2 _ he, Option.some.injEq] at hra0
  rw [ha1 _ ho, ha2 _ ho, Option.some.injEq] at hra1
  rw [hb1 _ he, hb2 _ he, Option.some.injEq] at hrb0
  rw [hb1 _ ho, hb2 _ ho, Option.some.injEq] at hrb1
  rw [hd1 _ he, hd2 _ he, hd1 _ ho, hd2 _ ho]
  simp only [coef_basemul_even _ _ hi, coef_basemul_odd _ _ hi, hra0, hra1, hrb0, hrb1, and_self]

end

/-- Settles O46: PADD, PSUB and PREDUCE are lanewise, and BASEMUL slotwise. -/
theorem lanesAreIndependent : Obligations.LanesAreIndependent := by
  intro s1 s2 t1 t2 d ra rb
  refine ⟨fun j hj hra hrb hruns => ?_, fun j hj hra => polyUnary_map_lane hj hra,
    fun i hi => polyBinary_basemul_slot hi⟩
  rcases hruns with ⟨h1, h2⟩ | ⟨h1, h2⟩
  · exact polyBinary_polyZip_lane hj hra hrb h1 h2
  · exact polyBinary_polyZip_lane hj hra hrb h1 h2

end Sys2Proof.Machine
end

section
/-! The transform (spec/43_poly.md R86, R87): its seven levels, that its outputs are reduced and see only the residues of
its inputs, and the command NTT. -/

namespace Sys2Proof.Machine

/-! ### The levels (R86) -/

/-- The blocks of a level cover the 256 coefficients. -/
theorem level_covers {m : Nat} (hm : m < 7) : 2 * 2 ^ (7 - m) * 2 ^ m = 256 := by
  interval_cases m <;> rfl

/-- What holds of both halves of every block of a level holds of every coefficient. -/
theorem forall_coef_of_blocks {P : Nat → Prop} {m l : Nat} (hm : m < 7) (hl : l = 2 ^ (7 - m))
    (h : ∀ b j, b < 2 ^ m → j < l → P (2 * l * b + j) ∧ P (2 * l * b + j + l)) : ∀ k, k < 256 → P k := by
  intro k hk
  have hcov : 2 * l * 2 ^ m = 256 := hl ▸ level_covers hm
  have hpos : 0 < l := hl ▸ Nat.two_pow_pos _
  have hb : k / (2 * l) < 2 ^ m := Nat.div_lt_of_lt_mul (by omega)
  have hlt : k % (2 * l) < 2 * l := Nat.mod_lt _ (by omega)
  have hdecomp := Nat.div_add_mod k (2 * l)
  by_cases hlow : k % (2 * l) < l
  · obtain ⟨hfirst, -⟩ := h _ _ hb hlow
    rwa [hdecomp] at hfirst
  · obtain ⟨-, hsecond⟩ := h _ (k % (2 * l) - l) hb (by omega)
    rwa [show 2 * l * (k / (2 * l)) + (k % (2 * l) - l) + l = k by omega] at hsecond

/-- The polynomial and the zeta index after the first `m` levels (R86). -/
def nttLevels (p : Poly) : Nat → Poly × Nat
  | 0 => (p, 1)
  | m + 1 => nttLevel (nttLevels p m) (2 ^ (7 - m))

theorem ntt_eq_nttLevels (p : Poly) : ntt p = (nttLevels p 7).1.map barrett := by
  simp [ntt, nttSpans, nttLevels]

/-- Level `m`, entered with zeta index `2^m`: every block by its butterflies, and the index for the level after it. -/
theorem nttLevel_spec (ck : Poly × Nat) {m l : Nat} (hm : m < 7) (hl : l = 2 ^ (7 - m)) (hk : ck.2 = 2 ^ m) :
    (nttLevel ck l).2 = 2 ^ (m + 1) ∧
      ∀ b j, b < 2 ^ m → j < l →
        coef (nttLevel ck l).1 (2 * l * b + j) =
          (butterfly (coef ck.1 (2 * l * b + j)) (coef ck.1 (2 * l * b + j + l)) (ZETA (2 ^ m + b))).1 ∧
        coef (nttLevel ck l).1 (2 * l * b + j + l) =
          (butterfly (coef ck.1 (2 * l * b + j)) (coef ck.1 (2 * l * b + j + l)) (ZETA (2 ^ m + b))).2 := by
  obtain ⟨q, K⟩ := ck
  subst hk
  have hcov : 2 * l * 2 ^ m = 256 := hl ▸ level_covers hm
  have hpos : 0 < l := hl ▸ Nat.two_pow_pos _
  have hn : Config.N / (2 * l) = 2 ^ m := Nat.div_eq_of_eq_mul_right (by omega) hcov.symm
  obtain ⟨hindex, hblocks, -⟩ := nttBlocks q (2 ^ m) hcov.le
  rw [nttLevel, hn]
  exact ⟨hindex.trans (by omega), hblocks⟩

theorem nttLevels_index (p : Poly) {m : Nat} (hm : m ≤ 7) : (nttLevels p m).2 = 2 ^ m := by
  induction m with
  | zero => rfl
  | succ m ih => exact (nttLevel_spec _ hm rfl (ih (by omega))).1

/-- Level `m` by its butterflies, from the polynomial before it. -/
theorem coef_nttLevels_succ (p : Poly) {m l b j : Nat} (hm : m < 7) (hl : l = 2 ^ (7 - m)) (hb : b < 2 ^ m)
    (hj : j < l) :
    coef (nttLevels p (m + 1)).1 (2 * l * b + j) =
      (butterfly (coef (nttLevels p m).1 (2 * l * b + j)) (coef (nttLevels p m).1 (2 * l * b + j + l))
        (ZETA (2 ^ m + b))).1 ∧
    coef (nttLevels p (m + 1)).1 (2 * l * b + j + l) =
      (butterfly (coef (nttLevels p m).1 (2 * l * b + j)) (coef (nttLevels p m).1 (2 * l * b + j + l))
        (ZETA (2 ^ m + b))).2 := by
  rw [nttLevels, ← hl]
  exact (nttLevel_spec _ hm hl (nttLevels_index p hm.le)).2 b j hb hj

/-- Settles O40: the sequence is the polynomial after each level. -/
theorem nttLevelsTransform : Obligations.NttLevelsTransform := by
  intro p
  refine ⟨fun m => (nttLevels p m).1, rfl, fun m l b j hm hl hb hj => ?_, fun j hj => ?_⟩
  · exact coef_nttLevels_succ p hm hl hb hj
  · rw [ntt_eq_nttLevels, coef_map _ _ hj]

/-! ### Reduced outputs (R86) -/

theorem butterfly_range (a b zeta : Int) :
    (0 ≤ (butterfly a b zeta).1 ∧ (butterfly a b zeta).1 < 3329) ∧
      (0 ≤ (butterfly a b zeta).2 ∧ (butterfly a b zeta).2 < 3329) :=
  ⟨modQ_range _, modQ_range _⟩

/-- Every level leaves residues mod `Q`. -/
theorem coef_nttLevels_succ_range (p : Poly) {m : Nat} (hm : m < 7) :
    ∀ k, k < 256 → 0 ≤ coef (nttLevels p (m + 1)).1 k ∧ coef (nttLevels p (m + 1)).1 k < 3329 := by
  refine forall_coef_of_blocks hm rfl fun b j hb hj => ?_
  obtain ⟨hlow, hup⟩ := coef_nttLevels_succ p hm rfl hb hj
  rw [hlow, hup]
  exact butterfly_range _ _ _

/-- The last level leaves residues already, and the Barrett pass keeps them. -/
theorem coef_ntt_range (p : Poly) {j : Nat} (hj : j < 256) : 0 ≤ coef (ntt p) j ∧ coef (ntt p) j < 3329 := by
  obtain ⟨hlo, hhi⟩ := coef_nttLevels_succ_range p (m := 6) (by decide) j hj
  rw [ntt_eq_nttLevels, coef_map _ _ hj, barrett_of_nonneg hlo (by omega)]
  omega

/-- Settles O41: the coefficients of the transform are residues mod `Q`. -/
theorem nttOutputsAreReduced : Obligations.NttOutputsAreReduced := fun p j hj => by
  rw [← coef_eq hj]
  exact coef_ntt_range p hj

/-! ### Residues of the inputs (R87) -/

theorem butterfly_congr {a a' b b' : Int} (ha : a % 3329 = a' % 3329) (hb : b % 3329 = b' % 3329) (zeta : Int) :
    butterfly a b zeta = butterfly a' b' zeta := by
  have ht : zeta * b % 3329 = zeta * b' % 3329 := Int.ModEq.mul_left zeta hb
  rw [butterfly_eq, butterfly_eq, ht]
  exact Prod.ext (Int.ModEq.add_right _ ha) ((Int.ModEq.add_right 3329 ha).sub_right _)

theorem poly_ext {p q : Poly} (h : ∀ k, k < 256 → coef p k = coef q k) : p = q :=
  Vector.ext fun k hk => by rw [← coef_eq hk, ← coef_eq hk, h k hk]

/-- A level sees only the residues of what it reads. -/
theorem nttLevels_succ_congr {p q : Poly} {m : Nat} (hm : m < 7)
    (h : ∀ k, k < 256 → coef (nttLevels p m).1 k % 3329 = coef (nttLevels q m).1 k % 3329) :
    nttLevels p (m + 1) = nttLevels q (m + 1) := by
  refine Prod.ext (poly_ext (forall_coef_of_blocks hm rfl fun b j hb hj => ?_)) ?_
  · obtain ⟨hp0, hp1⟩ := coef_nttLevels_succ p hm rfl hb hj
    obtain ⟨hq0, hq1⟩ := coef_nttLevels_succ q hm rfl hb hj
    have hin : 2 * 2 ^ (7 - m) * b + 2 * 2 ^ (7 - m) ≤ 256 := by
      rw [← level_covers hm, ← Nat.mul_succ]
      exact Nat.mul_le_mul_left _ hb
    rw [hp0, hp1, hq0, hq1, butterfly_congr (h _ (by omega)) (h _ (by omega))]
    exact ⟨rfl, rfl⟩
  · rw [nttLevels_index p hm, nttLevels_index q hm]

/-- Settles O42: the first level already gives the same from both, and so do the levels after it. -/
theorem nttSeesOnlyResidues : Obligations.NttSeesOnlyResidues := by
  intro p q h
  have hfirst : nttLevels p 1 = nttLevels q 1 := nttLevels_succ_congr (by decide) fun k hk => by
    show coef p k % 3329 = coef q k % 3329
    rw [coef_eq hk, coef_eq hk]
    exact Int.emod_eq_emod_iff_emod_sub_eq_zero.mpr (h k hk)
  rw [ntt_eq_nttLevels, ntt_eq_nttLevels]
  simp only [nttLevels] at hfirst ⊢
  rw [hfirst]

/-! ### NTT (R87) -/

/-- Settles O39: the command stores the transform of the bank it reads, whose coefficients need no wrap. -/
theorem nttCommandTransforms : Obligations.NttCommandTransforms := by
  intro s d p hp
  have hread : readPoly s.mem d = some p := readPoly_eq_some_iff.mpr hp
  obtain ⟨t, ht, hcoef, hframe⟩ := exec_storing_poly ((exec_ntt d s).trans (polyUnary_eq hread))
  refine ⟨t, ht, fun j hj => ?_, hframe⟩
  obtain ⟨hlo, hhi⟩ := coef_ntt_range p hj
  rw [hcoef j hj, wrap16_of_range (by omega), coef_eq hj]

end Sys2Proof.Machine
end

section
/-! Exceptions (spec/60_exceptions.md): the outcomes of a CMD write (R95), that a command faults exactly on an
unwritten operand (R105) and reads its snapshot only (R96). -/

namespace Sys2Proof.Machine

/-! ### The outcomes of a CMD write (R75, R95) -/

theorem isSponge_iff (i : Instr) :
    isSponge i = true ↔ i = .sha3_256 ∨ i = .sha3_512 ∨ i = .shake128 ∨ i = .shake256 := by
  cases i <;> simp [isSponge]

theorem isShake_iff (i : Instr) : isShake i = true ↔ i = .shake128 ∨ i = .shake256 := by
  cases i <;> simp [isShake]

/-- The check of R75: each length a command uses is within its buffer. -/
theorem lengthsOk_iff (i : Instr) (snap : Snapshot) :
    lengthsOk i snap = true ↔
      (isSponge i = true → snap.msgLen.toNat ≤ 1024) ∧ (isShake i = true → snap.outLen.toNat ≤ 1024) := by
  simp only [lengthsOk, Bool.and_eq_true, Bool.or_eq_true, Bool.not_eq_true', decide_eq_true_eq, or_iff_not_imp_left,
    Bool.not_eq_false]
  rfl

theorem issueCommand_of_busy {s : State} (hb : s.status.busy = true) (w : Word) :
    issueCommand w s = { s with status := statusFlag s.status .busy } := by
  rw [issueCommand, if_pos hb]

/-- The word of a command is accepted or rejected by its lengths alone. -/
theorem issueCommand_of_command {s : State} {w : Word} {i : Instr} (hb : s.status.busy = false)
    (hd : decode w = .command i) :
    issueCommand w s = if lengthsOk i (liveSnapshot s) then acceptCommand i (liveSnapshot s) { s with cmdLast := w }
      else raiseError .len { s with cmdLast := w } := by
  rw [issueCommand, hb, hd]
  rfl

/-- Settles O7: a CMD write is an issue, whose branch BUSY, the decoder and the check of the lengths choose. -/
theorem commandWriteIssues : Obligations.CommandWriteIssues := by
  intro s w
  rw [memWrite_cmd]
  refine ⟨fun hb => ?_, fun y hb hd => ?_, fun i hb hd hlong => ?_, fun i hb hd hmsg hout => ?_⟩
  · rw [issueCommand_of_busy hb]
    rfl
  · rw [issueCommand_of_illegal hb hd]
    rfl
  · have hbad : ¬ lengthsOk i (liveSnapshot s) = true := by
      rw [lengthsOk_iff, isSponge_iff, isShake_iff]
      rintro ⟨hmsg, hout⟩
      rcases hlong with ⟨hi, hlt⟩ | ⟨hi, hlt⟩
      · exact absurd (hmsg hi) (Nat.not_le.mpr hlt)
      · exact absurd (hout hi) (Nat.not_le.mpr hlt)
    rw [issueCommand_of_command hb hd, if_neg hbad]
    rfl
  · have hok : lengthsOk i (liveSnapshot s) = true := by
      rw [lengthsOk_iff, isSponge_iff, isShake_iff]
      exact ⟨hmsg, hout⟩
    rw [issueCommand_of_command hb hd, if_pos hok]
    exact ⟨_, rfl, rfl, rfl⟩

/-! ### Faults of the commands (R24, R105) -/

/-- The outcome is the unwritten fault if `P` holds, and a next state if not. -/
def FaultsExactlyIf (P : Prop) (o : Result) : Prop :=
  (P → o = .fault .unwrittenRead) ∧ (¬ P → ∃ t, o = .next t)

theorem faultsExactlyIf_false (t : State) : FaultsExactlyIf False (.next t) := ⟨False.elim, fun _ => ⟨t, rfl⟩⟩

theorem execKeccakF_faultsExactlyIf (s : State) :
    FaultsExactlyIf (∃ k, k < 25 ∧ laneAt s.mem k = none) (execKeccakF s) := by
  rw [← readKeccak_eq_none_iff]
  refine ⟨execKeccakF_fault s, fun hne => ?_⟩
  obtain ⟨A, hA⟩ := Option.ne_none_iff_exists'.mp hne
  exact ⟨_, execKeccakF_eq s hA⟩

theorem runSponge_faultsExactlyIf {s : State} {i : Instr} {snap : Snapshot} (heng : s.eng = .pending i snap)
    (hlen : snap.msgLen.toNat ≤ 1024) (r : Nat) (pad : Byte) (f : KState → List Byte × KState) :
    FaultsExactlyIf (∃ k, k < snap.msgLen.toNat ∧ msgAt s.mem k = none) (runSponge r pad f s) := by
  have hop : operandMsgLen (operands s) = snap.msgLen.toNat := by rw [operands_pending heng, operandMsgLen]
  rw [← readMsg_eq_none_iff hlen, ← hop]
  refine ⟨runSponge_fault, fun hne => ?_⟩
  obtain ⟨M, hM⟩ := Option.ne_none_iff_exists'.mp hne
  exact ⟨_, runSponge_eq hM⟩

theorem polyUnary_faultsExactlyIf (f : Poly → Poly) (rd ra : Fin 8) (s : State) :
    FaultsExactlyIf (∃ j, j < 256 ∧ coefAt s.mem ra j = none) (polyUnary f rd ra s) := by
  rw [← readPoly_eq_none_iff]
  refine ⟨polyUnary_fault, fun hne => ?_⟩
  obtain ⟨a, ha⟩ := Option.ne_none_iff_exists'.mp hne
  exact ⟨_, polyUnary_eq ha⟩

theorem polyBinary_faultsExactlyIf (f : Poly → Poly → Poly) (rd ra rb : Fin 8) (s : State) :
    FaultsExactlyIf (∃ j, j < 256 ∧ (coefAt s.mem ra j = none ∨ coefAt s.mem rb j = none))
      (polyBinary f rd ra rb s) := by
  simp only [and_or_left, exists_or, ← readPoly_eq_none_iff]
  refine ⟨polyBinary_fault, fun hne => ?_⟩
  obtain ⟨hra, hrb⟩ := not_or.mp hne
  obtain ⟨a, ha⟩ := Option.ne_none_iff_exists'.mp hra
  obtain ⟨b, hb⟩ := Option.ne_none_iff_exists'.mp hrb
  exact ⟨_, polyBinary_eq ha hb⟩

theorem exec_faultsExactlyIf {s : State} {i : Instr} {snap : Snapshot} (heng : s.eng = .pending i snap)
    (hlen : lengthsOk i snap = true) : FaultsExactlyIf (operandUnwritten i snap s.mem) (exec i s) := by
  obtain ⟨hmsg, _⟩ := (lengthsOk_iff i snap).mp hlen
  cases i with
  | keccakF => exact execKeccakF_faultsExactlyIf s
  | stateClear => exact faultsExactlyIf_false _
  | sha3_256 => exact runSponge_faultsExactlyIf heng (hmsg rfl) _ _ _
  | sha3_512 => exact runSponge_faultsExactlyIf heng (hmsg rfl) _ _ _
  | shake128 => exact runSponge_faultsExactlyIf heng (hmsg rfl) _ _ _
  | shake256 => exact runSponge_faultsExactlyIf heng (hmsg rfl) _ _ _
  | barrett => exact faultsExactlyIf_false _
  | montgomery => exact faultsExactlyIf_false _
  | csubq => exact faultsExactlyIf_false _
  | butterfly => exact faultsExactlyIf_false _
  | ntt rd => exact polyUnary_faultsExactlyIf _ _ _ s
  | basemul rd ra rb => exact polyBinary_faultsExactlyIf _ _ _ _ s
  | padd rd ra rb => exact polyBinary_faultsExactlyIf _ _ _ _ s
  | psub rd ra rb => exact polyBinary_faultsExactlyIf _ _ _ _ s
  | preduce rd ra => exact polyUnary_faultsExactlyIf _ _ _ s

/-- Settles O48: each shared operation of the commands faults exactly if it reads an unwritten element. -/
theorem commandsFaultExactlyOnUnwrittenOperands : Obligations.CommandsFaultExactlyOnUnwrittenOperands :=
  fun _ _ _ heng hlen => exec_faultsExactlyIf heng hlen

/-! ### The snapshot shields the pending command (R96) -/

/-- The five registers that an issue snapshots, set to `live`. -/
def setLive (live : Snapshot) (s : State) : State :=
  { s with arg0 := live.arg0, arg1 := live.arg1, arg2 := live.arg2, msgLen := live.msgLen, outLen := live.outLen }

/-- `f` applied to the state that an outcome reaches. -/
def mapNext (f : State → State) : Result → Result
  | .next t => .next (f t)
  | .fault r => .fault r
  | .refused r => .refused r

theorem operands_setLive {s : State} {i : Instr} {snap : Snapshot} (heng : s.eng = .pending i snap) (live : Snapshot) :
    operands (setLive live s) = operands s := by
  rw [operands_pending heng]
  exact operands_pending (s := setLive live s) heng

theorem execKeccakF_setLive (live : Snapshot) (s : State) :
    execKeccakF (setLive live s) = mapNext (setLive live) (execKeccakF s) := by
  cases h : readKeccak s.mem with
  | none => rw [execKeccakF_fault s h, execKeccakF_fault (setLive live s) h]; rfl
  | some A => rw [execKeccakF_eq s h, execKeccakF_eq (setLive live s) h]; rfl

theorem runSponge_setLive {s : State} {live : Snapshot} (hop : operands (setLive live s) = operands s) (r : Nat)
    (pad : Byte) (f : KState → List Byte × KState) :
    runSponge r pad f (setLive live s) = mapNext (setLive live) (runSponge r pad f s) := by
  have hread : readMsg (setLive live s).mem (operandMsgLen (operands (setLive live s))) =
      readMsg s.mem (operandMsgLen (operands s)) := by rw [hop]; rfl
  cases h : readMsg s.mem (operandMsgLen (operands s)) with
  | none => rw [runSponge_fault h, runSponge_fault (hread.trans h)]; rfl
  | some M => rw [runSponge_eq h, runSponge_eq (hread.trans h)]; rfl

theorem polyUnary_setLive (live : Snapshot) (f : Poly → Poly) (rd ra : Fin 8) (s : State) :
    polyUnary f rd ra (setLive live s) = mapNext (setLive live) (polyUnary f rd ra s) := by
  cases h : readPoly s.mem ra with
  | none => rw [polyUnary_fault h, polyUnary_fault (s := setLive live s) h]; rfl
  | some a => rw [polyUnary_eq h, polyUnary_eq (s := setLive live s) h]; rfl

theorem polyBinary_setLive (live : Snapshot) (f : Poly → Poly → Poly) (rd ra rb : Fin 8) (s : State) :
    polyBinary f rd ra rb (setLive live s) = mapNext (setLive live) (polyBinary f rd ra rb s) := by
  by_cases h : readPoly s.mem ra = none ∨ readPoly s.mem rb = none
  · rw [polyBinary_fault h, polyBinary_fault (s := setLive live s) h]
    rfl
  · obtain ⟨hra, hrb⟩ := not_or.mp h
    obtain ⟨a, ha⟩ := Option.ne_none_iff_exists'.mp hra
    obtain ⟨b, hb⟩ := Option.ne_none_iff_exists'.mp hrb
    rw [polyBinary_eq ha hb, polyBinary_eq (s := setLive live s) ha hb]
    rfl

/-- A pending command does the same whatever the live registers hold, and leaves them. -/
theorem exec_setLive {s : State} {i : Instr} {snap : Snapshot} (heng : s.eng = .pending i snap) (live : Snapshot) :
    exec i (setLive live s) = mapNext (setLive live) (exec i s) := by
  have hop : operands (setLive live s) = operands s := operands_setLive heng live
  cases i with
  | keccakF => exact execKeccakF_setLive live s
  | stateClear => rfl
  | sha3_256 => exact runSponge_setLive hop _ _ _
  | sha3_512 => exact runSponge_setLive hop _ _ _
  | shake128 =>
    rw [exec_shake128, exec_shake128, hop]
    exact runSponge_setLive hop _ _ _
  | shake256 =>
    rw [exec_shake256, exec_shake256, hop]
    exact runSponge_setLive hop _ _ _
  | barrett => rw [exec_barrett, exec_barrett, hop]; rfl
  | montgomery => rw [exec_montgomery, exec_montgomery, hop]; rfl
  | csubq => rw [exec_csubq, exec_csubq, hop]; rfl
  | butterfly => rw [exec_butterfly, exec_butterfly, execButterfly, execButterfly, hop]; rfl
  | ntt rd => exact polyUnary_setLive live _ _ _ s
  | basemul rd ra rb => exact polyBinary_setLive live _ _ _ _ s
  | padd rd ra rb => exact polyBinary_setLive live _ _ _ _ s
  | psub rd ra rb => exact polyBinary_setLive live _ _ _ _ s
  | preduce rd ra => exact polyUnary_setLive live _ _ _ s

/-- Settles O50: a command's outcome under other live registers is its outcome with those registers set. -/
theorem snapshotShieldsPendingCommand : Obligations.SnapshotShieldsPendingCommand := by
  intro s i snap a0 a1 a2 m o heng
  have hexec := exec_setLive heng ⟨a0, a1, a2, m, o⟩
  exact ⟨fun t ht => hexec.trans (congrArg _ ht), fun f hf => hexec.trans (congrArg _ hf)⟩

end Sys2Proof.Machine
end

section
/-! Accesses without a step (spec/60_exceptions.md R106), the sticky error flags (R102), and which command a step
runs (R97, with the model's schedule and placing). -/

namespace Sys2Proof.Machine

/-! ### Accesses without a step (R28, R30, R31, R106) -/

theorem accessOffset_of_width {width : Nat} (hw : width ≠ 4) (a : HostAddr) :
    accessOffset a width = .error .accessWidth := by
  unfold accessOffset
  rw [if_pos hw]

theorem accessOffset_rel_misaligned {off : Nat} (h : off % 4 ≠ 0) : accessOffset (.rel off) 4 = .error .misaligned := by
  simp [accessOffset, h]

theorem accessOffset_abs_misaligned {addr : Nat} (h : addr % 4 ≠ 0) :
    accessOffset (.abs addr) 4 = .error .misaligned := by
  simp [accessOffset, h]

theorem accessOffset_rel_outside {off : Nat} (ha : off % 4 = 0) (h : 0x2000 ≤ off) :
    accessOffset (.rel off) 4 = .error .outsideWindow := by
  simp [accessOffset, ha, h]

theorem accessOffset_abs_outside {addr : Nat} (ha : addr % 4 = 0)
    (h : addr < Config.base ∨ Config.base + 0x2000 ≤ addr) :
    accessOffset (.abs addr) 4 = .error .outsideWindow := by
  have hout : ¬ (Config.base ≤ addr ∧ addr < Config.base + 8192) := by omega
  simp [accessOffset, ha, hout]

/-- A line whose access has no offset in the window is refused for the same reason, read or write. -/
theorem hostLineStep_of_accessOffset_error {a : HostAddr} {width : Nat} {r : Refusal}
    (h : accessOffset a width = .error r) (s : State) (t : Nat) (x : HostValue) :
    hostLineStep s (.read a width t) = .refused r ∧ hostLineStep s (.write a width x) = .refused r := by
  constructor
  · rw [hostLineStep, hostRead, memRead, h]
  · rw [hostLineStep, hostWrite, memWrite, h]

/-- Settles O20: an access is refused as its offset is, and an absolute one's offset is that of `BASE + off`. -/
theorem refusedAccesses : Obligations.RefusedAccesses := by
  intro s x t
  have refused {a : HostAddr} {width : Nat} {r : Refusal} (h : accessOffset a width = .error r) :=
    hostLineStep_of_accessOffset_error h s t x
  refine ⟨fun a width hw => refused (accessOffset_of_width hw a), fun off h => ?_,
    fun addr h => refused (accessOffset_abs_misaligned h), fun off ha h => refused (accessOffset_rel_outside ha h),
    fun addr ha h => refused (accessOffset_abs_outside ha h), fun off width v => ?_⟩
  · have hrel := accessOffset_rel_misaligned h
    obtain ⟨hread, hwrite⟩ := refused hrel
    exact ⟨hread, hwrite, refused ((accessOffset_abs off 4).trans hrel)⟩
  · rw [memRead, memRead, memWrite, memWrite, accessOffset_abs]
    exact ⟨rfl, rfl⟩

/-! ### The error flags are sticky (R15, R102) -/

/-- Every error flag set before, STATUS bits 2 and up, is set after. -/
def KeepsErrors (t u : Status) : Prop := ∀ bit, 2 ≤ bit → statusBit t bit = true → statusBit u bit = true

theorem keepsErrors_refl (t : Status) : KeepsErrors t t := fun _ _ h => h

theorem KeepsErrors.of_flags {t u : Status} (hi : t.errIllegal = true → u.errIllegal = true)
    (hl : t.errLen = true → u.errLen = true) (hb : t.errBusy = true → u.errBusy = true) : KeepsErrors t u
  | 2, _, h => hi h
  | 3, _, h => hl h
  | 4, _, h => hb h
  | _ + 5, _, h => nomatch h

theorem keepsErrors_statusFlag (t : Status) (f : ErrorFlag) : KeepsErrors t (statusFlag t f) := by
  cases f with
  | illegal => exact .of_flags (fun _ => rfl) id id
  | len => exact .of_flags id (fun _ => rfl) id
  | busy => exact .of_flags id id (fun _ => rfl)

/-- DONE and BUSY are no error flags. -/
theorem KeepsErrors.setDoneBusy {t u : Status} (h : KeepsErrors t u) (d b : Bool) :
    KeepsErrors t { u with done := d, busy := b } :=
  .of_flags (h 2 (by decide)) (h 3 (by decide)) (h 4 (by decide))

/-- An issue raises error flags and clears none (R95). -/
theorem issueCommand_keepsErrors (w : Word) (s : State) : KeepsErrors s.status (issueCommand w s).status := by
  rcases issueCommand_cases w s with ⟨_, heq⟩ | ⟨_, _, heq⟩ | ⟨_, i, _, ⟨_, heq⟩ | ⟨_, heq⟩⟩ <;> rw [heq]
  · exact keepsErrors_statusFlag _ _
  · exact (keepsErrors_statusFlag _ _).setDoneBusy _ _
  · exact (keepsErrors_refl _).setDoneBusy _ _
  · exact (keepsErrors_statusFlag _ _).setDoneBusy _ _

theorem statusBit_statusW1c (t : Status) (w : Word) {bit : Nat} (h : 2 ≤ bit) :
    statusBit (statusW1c t w) bit = (statusBit t bit && !w.getLsbD bit) := by
  match bit, h with
  | 2, _ => rfl
  | 3, _ => rfl
  | 4, _ => rfl
  | k + 5, _ => rfl

theorem locate_eq_status {off : Nat} (h : locate off = .status) : off = 4 := by
  unfold locate at h
  revert h
  refine ite_cases (fun _ h => nomatch h) (fun _ => ?_)
  refine ite_cases (fun hc _ => hc) (fun _ => ?_)
  iterate 14 (refine ite_cases (fun _ h => nomatch h) (fun _ => ?_))
  exact fun h => nomatch h

/-- Of all host writes only one to STATUS can clear an error flag. -/
theorem memWrite_keepsErrors {s t : State} {a : HostAddr} {width : Nat} {v : Word} (h : memWrite s a width v = .next t) :
    KeepsErrors s.status t.status ∨ (accessOffset a width = .ok 0x004 ∧ t.status = statusW1c s.status v) := by
  unfold memWrite at h
  split at h
  · cases h
  case h_2 off hoff =>
    have unchanged : t.status = s.status → KeepsErrors s.status t.status := fun he => he ▸ keepsErrors_refl _
    have data : ∀ o, writeData s o v = .next t → t.status = s.status := fun o ho => by rw [(writeData_next ho).2]
    cases hl : locate off <;> rw [hl] at h <;> simp only [writeLocation] at h
    case cmd => exact .inl (Host.Outcome.next.inj h ▸ issueCommand_keepsErrors v s)
    case status => exact .inr ⟨locate_eq_status hl ▸ hoff, by cases h; rfl⟩
    case keccak w => exact .inl (unchanged (data _ h))
    case msg m => exact .inl (unchanged (data _ h))
    case bank b m => exact .inl (unchanged (data _ h))
    all_goals exact .inl (unchanged (by cases h; rfl))

/-- The host changes STATUS only by the reset event or by a write. -/
theorem hostStep_status {s t : State} (h : hostStep s = .next t) :
    t.status = s.status ∨ hostLine s = some .reset ∨
    ∃ a width v u, hostLine s = some (.write a width v) ∧ memWrite s a width (hostValue s.host v) = .next u ∧
      t.status = u.status := by
  unfold hostStep at h
  split at h
  · cases h; exact .inl rfl
  case h_2 l hline =>
    cases l with
    | write a width v =>
      simp only [hostLineStep, hostWrite] at h
      split at h <;> cases h
      case h_1 u hu => exact .inr (.inr ⟨a, width, v, u, hline, hu, rfl⟩)
    | read a width x =>
      simp only [hostLineStep, hostRead] at h
      split at h <;> cases h
      case h_1 r hr =>
        rcases memRead_next (v := r.1) (t := r.2) (by rw [hr]) with hu | ⟨_, hu⟩
        · exact .inl (show r.2.status = s.status by rw [hu])
        · exact .inl (show r.2.status = s.status by rw [hu, drawn_status])
    | label n => cases h; exact .inl rfl
    | branch c n =>
      simp only [hostLineStep, hostGoto] at h
      split at h
      · split at h <;> cases h
        exact .inl rfl
      · cases h; exact .inl rfl
    | halt => cases h; exact .inl rfl
    | reset => exact .inr (.inl hline)

/-- What a step can do to the error flags: keep them, reset the block, or clear those that a STATUS write names. -/
def ErrorFlagsMove (s t : State) : Prop :=
  KeepsErrors s.status t.status ∨ hostLine s = some .reset ∨
  ∃ a width v, hostLine s = some (.write a width v) ∧ accessOffset a width = .ok 0x004 ∧
    t.status = statusW1c s.status (hostValue s.host v)

theorem hostStep_errorFlagsMove {s t : State} (h : hostStep s = .next t) : ErrorFlagsMove s t := by
  rcases hostStep_status h with heq | hreset | ⟨a, width, v, u, hline, hu, heq⟩
  · exact .inl (heq ▸ keepsErrors_refl _)
  · exact .inr (.inl hreset)
  · rcases memWrite_keepsErrors hu with hkeep | ⟨hoff, hclear⟩
    · exact .inl (heq ▸ hkeep)
    · exact .inr (.inr ⟨a, width, v, hline, hoff, heq.trans hclear⟩)

theorem SameControl.keepsErrors {s t : State} (h : SameControl s t) : KeepsErrors s.status t.status :=
  .of_flags (h.errIllegal.trans ·) (h.errLen.trans ·) (h.errBusy.trans ·)

theorem step_errorFlagsMove {s t : State} (h : step s = .next t) : ErrorFlagsMove s t := by
  rcases step_cases s with ⟨_, heq⟩ | ⟨i, snap, _, ⟨_, heq⟩ | ⟨_, heq⟩⟩ <;> rw [heq] at h
  · exact hostStep_errorFlagsMove h
  · exact .inl (exec_next h).sameControl.keepsErrors
  · exact hostStep_errorFlagsMove (s := waitOne s) h

/-- Settles O55: of what a step can do to the error flags, only the reset and the W1C write clear one. -/
theorem errorFlagsAreSticky : Obligations.ErrorFlagsAreSticky := by
  intro s t h bit hcleared
  obtain ⟨hbit, hset, hclear⟩ : 2 ≤ bit ∧ statusBit s.status bit = true ∧ statusBit t.status bit = false := by
    rcases hcleared with ⟨rfl, hset, hclear⟩ | ⟨rfl, hset, hclear⟩ | ⟨rfl, hset, hclear⟩
    all_goals exact ⟨by decide, hset, hclear⟩
  rcases step_errorFlagsMove h with hkeep | hreset | ⟨a, width, v, hline, hoff, heq⟩
  · rw [hkeep bit hbit hset] at hclear
    cases hclear
  · exact .inl hreset
  · rw [heq, statusBit_statusW1c _ _ hbit, hset] at hclear
    exact .inr ⟨a, width, v, hline, hoff, by simpa using hclear⟩

/-! ### Which command a step runs (R95, R97) -/

theorem step_of_engineTurn {s : State} {i : Instr} {snap : Snapshot} (heng : s.eng = .pending i snap)
    (hturn : engineTurn s = true) : step s = exec i s := by
  simp only [step, heng, hturn, if_true]

theorem step_of_waiting {s : State} {i : Instr} {snap : Snapshot} (heng : s.eng = .pending i snap)
    (hturn : engineTurn s = false) : step s = hostStep (waitOne s) := by
  simp only [step, heng, hturn, Bool.false_eq_true, if_false]

theorem step_of_idle {s : State} (heng : s.eng = .idle) : step s = hostStep s := by
  simp only [step, heng]

theorem engineTurn_eq_true_iff {s : State} : engineTurn s = true ↔ s.wait = 0 ∨ hostStopped s = true := by
  simp [engineTurn]

theorem decodeTableWord_of_decode {w : Word} {i : Instr} (h : decode w = .command i) :
    decodeTableWord 32 w.toNat = some i := by
  have hmod : w.toNat % 2 ^ 32 = w.toNat := Nat.mod_eq_of_lt w.isLt
  rw [decodeTableWord, hmod, if_pos w.isLt, BitVec.ofNat_toNat, BitVec.setWidth_eq, h]

/-- Placing the word of a command with legal lengths is its acceptance, with no host step to wait for. -/
theorem withFetchWord_of_decode {s : State} {w : Word} {i : Instr} (hd : decode w = .command i)
    (hlen : lengthsOk i (liveSnapshot s) = true) :
    s.withFetchWord 32 w.toNat =
      { s with
        cmdLast := w
        status := { s.status with done := false, busy := true }
        eng := .pending i (liveSnapshot s)
        wait := 0 } := by
  have hmod : w.toNat % 2 ^ 32 = w.toNat := Nat.mod_eq_of_lt w.isLt
  simp only [State.withFetchWord, decodeTableWord_of_decode hd, hlen, if_true, hmod, BitVec.ofNat_toNat,
    BitVec.setWidth_eq]

/-- Settles O6: whose turn it is decides a step, and a placed command waits for no host step. -/
theorem stepRunsTheDecodedCommand : Obligations.StepRunsTheDecodedCommand := by
  refine ⟨fun s i snap heng => ⟨fun hturn => step_of_engineTurn heng (engineTurn_eq_true_iff.mpr hturn),
    fun hwait => step_of_waiting heng (engineTurn_eq_false_iff.mpr hwait)⟩, fun s => step_of_idle,
    fun s w i hd hlen => ?_⟩
  rw [withFetchWord_of_decode hd hlen]
  exact ⟨step_of_engineTurn rfl rfl, rfl, rfl, rfl⟩

end Sys2Proof.Machine
end

section
/-! Reset and hazards (spec/70_reset_and_hazards.md): the state after reset and the reset event (R109, R110), what
the host reads and writes while BUSY = 1 (R114, R115), that a pending command is stepped (R118), and where the
packed sums do not wrap (R121). -/

namespace Sys2Proof.Machine

/-! ### Reset (R109, R110) -/

/-- Settles O51: nothing is pending after reset and nothing is listed. -/
theorem resetMeetsInvariant : Obligations.ResetMeetsInvariant := inv_of_idle memInv_nil .nil rfl rfl

/-- Settles O53: the registers are R109's by definition, and the ROMs read the same in every state. -/
theorem resetState : Obligations.ResetState :=
  ⟨rfl, rfl, rfl, rfl, rfl, rfl, rfl, rfl, rfl, rfl, fun _ => rfl, romWordsRead State.reset⟩

theorem hostStep_of_reset {s : State} (h : hostLine s = some .reset) : hostStep s = .next (nextLine (resetBlock s)) := by
  simp only [hostStep, h, hostLineStep]

theorem hostStopped_of_reset {s : State} (h : hostLine s = some .reset) : hostStopped s = false := by
  simp only [hostStopped, h]

theorem sameBlock_resetBlock (s : State) : SameBlock State.reset (nextLine (resetBlock s)) := rfl

/-- Settles O54: the line is the host's whether or not a command is pending, and the reset keeps the host alone. -/
theorem resetEventDiscardsPendingCommand : Obligations.ResetEventDiscardsPendingCommand := by
  intro s hline hturn
  cases heng : s.eng with
  | idle =>
    exact ⟨_, (step_of_idle heng).trans (hostStep_of_reset hline), sameBlock_resetBlock s, rfl, rfl⟩
  | pending i snap =>
    have hwait : s.wait ≠ 0 := hturn.resolve_left fun hidle => (nomatch heng.symm.trans hidle)
    have hwaiting : engineTurn s = false := engineTurn_eq_false_iff.mpr ⟨hwait, hostStopped_of_reset hline⟩
    exact ⟨_, (step_of_waiting heng hwaiting).trans (hostStep_of_reset (s := waitOne s) hline),
      sameBlock_resetBlock _, rfl, rfl⟩

/-! ### Accesses while busy (R114, R115) -/

theorem exists_locate_keccak {off : Nat} (ha : off % 4 = 0) (h : 0x100 ≤ off ∧ off < 0x1C8) :
    ∃ w, locate off = .keccak w := by
  obtain ⟨w, rfl⟩ : ∃ w, off = 0x100 + 4 * w := ⟨(off - 0x100) / 4, by omega⟩
  exact ⟨w, locate_keccak (by omega)⟩

theorem exists_locate_msg {off : Nat} (ha : off % 4 = 0) (h : 0x800 ≤ off ∧ off < 0xC00) :
    ∃ m, locate off = .msg m := by
  obtain ⟨m, rfl⟩ : ∃ m, off = 0x800 + 4 * m := ⟨(off - 0x800) / 4, by omega⟩
  exact ⟨m, locate_msg (by omega)⟩

theorem exists_locate_out {off : Nat} (ha : off % 4 = 0) (h : 0xC00 ≤ off ∧ off < 0x1000) :
    ∃ m, locate off = .out m := by
  obtain ⟨m, rfl⟩ : ∃ m, off = 0xC00 + 4 * m := ⟨(off - 0xC00) / 4, by omega⟩
  exact ⟨m, locate_out (by omega)⟩

theorem exists_locate_bank {off : Nat} (ha : off % 4 = 0) (h : 0x1000 ≤ off ∧ off < 0x2000) :
    ∃ b m, locate off = .bank b m := by
  obtain ⟨b, m, rfl, hm⟩ : ∃ b m, off = 0x1000 + 0x200 * b + 4 * m ∧ m < 128 :=
    ⟨(off - 0x1000) / 0x200, (off - 0x1000) % 0x200 / 4, by omega, by omega⟩
  exact ⟨b, m, locate_bank (by omega) hm⟩

theorem readUnlessBusy_busy {s : State} (hb : s.status.busy = true) (q : ReadResult) :
    readUnlessBusy s q = .next (draw s) := if_pos hb

/-- R115: `S`, `OUT`, `P`, RES0 and RES1 give no value of theirs while busy. -/
theorem memRead_eq_draw {s : State} {off : Nat} (hb : s.status.busy = true) (ha : off % 4 = 0)
    (h : (0x100 ≤ off ∧ off < 0x1C8) ∨ (0xC00 ≤ off ∧ off < 0x2000) ∨ off = 0x020 ∨ off = 0x024) :
    memRead s (.rel off) 4 = .next (draw s) := by
  rw [memRead_rel ha (by omega)]
  rcases h with hkeccak | hrest | rfl | rfl
  · obtain ⟨w, hloc⟩ := exists_locate_keccak ha hkeccak
    rw [hloc]
    exact readUnlessBusy_busy hb _
  · by_cases hout : off < 0x1000
    · obtain ⟨m, hloc⟩ := exists_locate_out ha (by omega)
      rw [hloc]
      exact readUnlessBusy_busy hb _
    · obtain ⟨b, m, hloc⟩ := exists_locate_bank ha (by omega)
      rw [hloc]
      exact readUnlessBusy_busy hb _
  · exact readUnlessBusy_busy hb _
  · exact readUnlessBusy_busy hb _

/-- Settles O18: a location is a draw while busy, or reads as in every other state. -/
theorem readsWhileBusy : Obligations.ReadsWhileBusy := by
  intro s off hb ha
  obtain ⟨hcmd, hmsgLen, _, houtLen, _, harg0, _, harg1, _, harg2, _⟩ := controlRegistersReadAndWrite s 0#32
  have hstatus : memRead s (.rel 0x004) 4 = .next (statusWord s.status, s) := memRead_rel rfl (by decide)
  obtain ⟨hzeta, _, hrho⟩ := romWordsRead s
  obtain ⟨hreserved, _⟩ := reservedAndReadOnlyOffsets s off 0#32 ha
  refine ⟨memRead_eq_draw hb ha, fun h => h ▸ hcmd, fun h => h ▸ hstatus, fun h => h ▸ hmsgLen, fun h => h ▸ houtLen,
    fun h => h ▸ harg0, fun h => h ▸ harg1, fun h => h ▸ harg2, fun v h hv => ?_, fun h => ?_, fun h => ?_, fun h => ?_,
    fun h => (hreserved h).1⟩
  · rw [memRead_eq_readData ha (.inl h), readData_of_readWord hv]
  · rw [← hzeta ((off - 0x200) / 4) (by omega)]
    congr 2
    omega
  · rw [← memRead_rc s (r := (off - 0x400) / 8) (h := (off - 0x400) / 4 % 2) (by omega) (by omega)]
    congr 2
    omega
  · rw [← hrho ((off - 0x500) / 4) (by omega)]
    congr 2
    omega

/-- R114: `S`, `MSG` and `P` take no write while busy. -/
theorem memWrite_fault_of_busy {s : State} {off : Nat} {v : Word} (hb : s.status.busy = true) (ha : off % 4 = 0)
    (h : (0x100 ≤ off ∧ off < 0x1C8) ∨ (0x800 ≤ off ∧ off < 0xC00) ∨ (0x1000 ≤ off ∧ off < 0x2000)) :
    memWrite s (.rel off) 4 v = .fault .writeWhileBusy := by
  have data : ∀ o, writeData s o v = .fault .writeWhileBusy := fun _ => if_pos hb
  rw [memWrite_rel ha (by omega)]
  rcases h with hkeccak | hmsg | hbank
  · obtain ⟨w, hloc⟩ := exists_locate_keccak ha hkeccak
    rw [hloc]
    exact data _
  · obtain ⟨m, hloc⟩ := exists_locate_msg ha hmsg
    rw [hloc]
    exact data _
  · obtain ⟨b, m, hloc⟩ := exists_locate_bank ha hbank
    rw [hloc]
    exact data _

/-- Settles O19: only the data memory asks whether the block is busy; every other write is as in any state. -/
theorem writesWhileBusy : Obligations.WritesWhileBusy := by
  intro s off v ha
  obtain ⟨_, _, hmsgLen, _, houtLen, _, harg0, _, harg1, _, harg2, _⟩ := controlRegistersReadAndWrite s v
  obtain ⟨hreserved, hreadOnly⟩ := reservedAndReadOnlyOffsets s off v ha
  refine ⟨fun hb => ⟨memWrite_fault_of_busy hb ha, fun h => h ▸ hmsgLen, fun h => h ▸ houtLen, fun h => h ▸ harg0,
    fun h => h ▸ harg1, fun h => h ▸ harg2, ?_⟩, fun h => ?_⟩
  · rintro rfl
    exact ⟨{ s with status := statusW1c s.status v }, memWrite_rel rfl (by decide), rfl, hb, statusWord_statusW1c _ _⟩
  · rcases h with _ | _ | _ | _ | _ | hrest
    case inr.inr.inr.inr.inr => exact (hreserved hrest).2
    all_goals exact hreadOnly (by omega)

/-! ### A pending command is stepped (R118) -/

theorem hostStopped_iff (s : State) : hostStopped s = true ↔
    hostLine s = none ∨ hostLine s = some .halt ∨ ∃ r, hostStep s = .refused r := by
  constructor
  · intro h
    unfold hostStopped at h
    cases hline : hostLine s with
    | none => exact .inl rfl
    | some l =>
      refine .inr ?_
      simp only [hline] at h
      simp only [hostStep, hline]
      cases l with
      | write a width v => exact .inr (hostWrite_refused_iff.mpr h)
      | read a width t => exact .inr (hostRead_refused_iff.mpr h)
      | label l => cases h
      | branch c l =>
        obtain ⟨hc, hl⟩ := Bool.and_eq_true_iff.mp h
        exact .inr ⟨.unknownLabel, by simp only [hostLineStep, hostGoto, hc, if_true, Option.isNone_iff_eq_none.mp hl]⟩
      | halt => exact .inl rfl
      | reset => cases h
  · rintro (h | h | ⟨r, h⟩)
    · simp only [hostStopped, h]
    · simp only [hostStopped, h]
    · exact hostStopped_of_refused h

/-- The engine's turn comes wherever the host has no step, and the engine is never refused one. -/
theorem step_ne_refused_of_pending {s : State} {i : Instr} {snap : Snapshot} (heng : s.eng = .pending i snap)
    (r : Refusal) : step s ≠ .refused r := by
  intro h
  cases hturn : engineTurn s with
  | true => exact exec_ne_refused i s r ((step_of_engineTurn heng hturn).symm.trans h)
  | false =>
    obtain ⟨_, hgoes⟩ := engineTurn_eq_false_iff.mp hturn
    have hstop := hostStopped_of_refused ((step_of_waiting heng hturn).symm.trans h)
    rw [hostStopped_waitOne, hgoes] at hstop
    cases hstop

/-- While busy no write sets a new delay: a CMD write is dropped (R95). -/
theorem WriteEffect.wait_of_busy {s t : State} {v : Word} (h : WriteEffect s v t) (hb : s.status.busy = true) :
    t.wait = s.wait := by
  cases h with
  | issue => rw [issueCommand_of_busy hb]
  | _ => rfl

/-- A host step that finds a command pending and leaves one pending does not touch the count of host steps to come. -/
theorem HostEffect.wait_of_pending {s t : State} (h : HostEffect s t) (hb : s.status.busy = true)
    (heng : t.eng ≠ .idle) : t.wait = s.wait := by
  cases h with
  | stay => rfl
  | write v u hu => exact hu.wait_of_busy hb
  | read v x u hu => rcases hu with rfl | ⟨_, rfl⟩ <;> rfl
  | skip => rfl
  | goto n => rfl
  | reset => exact absurd rfl heng

/-- A host step taken while waiting, the reset event apart, leaves the command pending with one host step fewer to
come. -/
theorem step_waiting_next {s t : State} {i : Instr} {snap : Snapshot} (hs : s.Inv) (heng : s.eng = .pending i snap)
    (hturn : engineTurn s = false) (hreset : hostLine s ≠ some .reset) (h : step s = .next t) :
    t.eng = .pending i snap ∧ t.wait = s.wait - 1 := by
  rw [step_of_waiting heng hturn] at h
  have hb : (waitOne s).status.busy = true := hs.busy_of_pending heng
  have ht : t.eng = .pending i snap := by
    rcases hostStep_eng h with hsame | ⟨hline, _⟩ | ⟨hidle, _⟩
    · exact hsame.trans heng
    · exact absurd hline hreset
    · exact nomatch hidle.symm.trans hb
  exact ⟨ht, (hostStep_next h).wait_of_pending hb (by rw [ht]; exact fun h => nomatch h)⟩

theorem reaches_succ {n : Nat} {s t u : State} (h : step s = .next t) (hr : Reaches n t u) : Reaches (n + 1) s u := by
  have hstep : Sys2Proof.core.step s = .next t := h
  simp only [Reaches, Host.Core.run, hstep]
  exact hr

/-- The pending command comes to its own step, or to the reset event, within its delay. -/
def CommandComesToStep (s : State) (i : Instr) (snap : Snapshot) : Prop :=
  ∃ k u, k ≤ s.wait ∧ Reaches k s u ∧ u.eng = .pending i snap ∧ (step u = exec i u ∨ hostLine u = some .reset)

/-- A host step within the delay of the pending command faults and ends the run. -/
def HostFaultsFirst (s : State) (i : Instr) (snap : Snapshot) : Prop :=
  ∃ k u f, k < s.wait ∧ Reaches k s u ∧ u.eng = .pending i snap ∧ hostStopped u = false ∧
    step u = hostStep { u with wait := u.wait - 1 } ∧ step u = .fault f

/-- Induction on the host steps still to come: each is the last, faults, or leaves one fewer. -/
theorem comesToStep_or_hostFaults {n : Nat} {s : State} {i : Instr} {snap : Snapshot} (hn : s.wait = n) (hs : s.Inv)
    (heng : s.eng = .pending i snap) : CommandComesToStep s i snap ∨ HostFaultsFirst s i snap := by
  induction n generalizing s with
  | zero =>
    have hturn : engineTurn s = true := engineTurn_eq_true_iff.mpr (.inl hn)
    exact .inl ⟨0, s, by omega, rfl, heng, .inl (step_of_engineTurn heng hturn)⟩
  | succ n ih =>
    cases hturn : engineTurn s with
    | true => exact .inl ⟨0, s, by omega, rfl, heng, .inl (step_of_engineTurn heng hturn)⟩
    | false =>
      by_cases hreset : hostLine s = some .reset
      · exact .inl ⟨0, s, by omega, rfl, heng, .inr hreset⟩
      cases hstep : step s with
      | refused r => exact absurd hstep (step_ne_refused_of_pending heng r)
      | fault f =>
        obtain ⟨_, hgoes⟩ := engineTurn_eq_false_iff.mp hturn
        exact .inr ⟨0, s, f, by omega, rfl, heng, hgoes, step_of_waiting heng hturn, hstep⟩
      | next t =>
        obtain ⟨hpend, hwait⟩ := step_waiting_next hs heng hturn hreset hstep
        rcases ih (by omega) (stepKeepsInvariant s t hs hstep) hpend with
          ⟨k, u, hk, hr, hu⟩ | ⟨k, u, f, hk, hr, hu⟩
        · exact .inl ⟨k + 1, u, by omega, reaches_succ hstep hr, hu⟩
        · exact .inr ⟨k + 1, u, f, by omega, reaches_succ hstep hr, hu⟩

/-- Settles O57: a host that has no step is stopped, and one that has steps uses up the delay. -/
theorem pendingCommandIsStepped : Obligations.PendingCommandIsStepped :=
  ⟨hostStopped_iff, fun _ _ _ r heng => step_ne_refused_of_pending heng r,
    fun _ _ _ hs heng => comesToStep_or_hostFaults rfl hs heng⟩

/-! ### Sums that do not wrap (R121) -/

/-- Settles O47: in these ranges the sums are 16-bit values, on which `wrap16` is the identity. -/
theorem sumsInRangeAreExact : Obligations.SumsInRangeAreExact := by
  intro a b
  refine ⟨fun ha0 ha hb0 hb => ?_, fun ha0 ha hb0 hb => ?_⟩
  · have hsum : paddLane a b = a + b := (paddLane_eq_wrap16 a b).trans (wrap16_of_range (by omega))
    exact ⟨hsum, by omega⟩
  · have hdiff : psubLane a b = a - b + 3329 := (psubLane_eq_wrap16 a b).trans (wrap16_of_range (by omega))
    exact ⟨hdiff, by omega, by omega⟩

end Sys2Proof.Machine
end
